-- ==== Sys2Proof/Word.lean ====
section
/-! DEFINITION. The widths of the block's data: bytes, command and response words, and the counter
(00_scope.md R11, R12). -/

namespace Sys2Proof

/-- A byte is a u8 (R12). -/
abbrev Byte := BitVec 8

/-- A command word, a response value and a checksum are u32 (R70, R78, R180). -/
abbrev Word := BitVec 32

end Sys2Proof
end

