-- ==== Sys2Proof/Config.lean ====
section
/-! DEFINITION. What is fixed for one block (00_scope.md R8, R10, R32), the answers and functions of
the external collaborators that the spec leaves open (60_exceptions.md R236), and the synthetic
test configuration of R8. -/

namespace Sys2Proof

/-- The algorithm parameter `CRC` of R8: polynomial (normal form), seed, reflection and final XOR
(43_crc32.md R181). -/
structure CrcParams where
  poly   : Word
  init   : Word
  refIn  : Bool
  refOut : Bool
  xorOut : Word
deriving DecidableEq, Repr

/-- The default of R181, CRC-32/ISO-HDLC. PRESUMED by the spec from general knowledge (G1), log 10. -/
def CrcParams.iso : CrcParams where
  poly   := 0x04C11DB7
  init   := 0xFFFFFFFF
  refIn  := true
  refOut := true
  xorOut := 0xFFFFFFFF

/-- The configuration of one block instance (R8). The two sample rates are the HOST's (R139),
DESIGN CHOICE, log 18; `codec` and `unit` name what the spec gives no numbers for, DESIGN CHOICE,
log 12 and log 16. -/
structure Config where
  /-- `CAP0`, capacity of RB0 in bytes. -/
  cap0 : Nat
  /-- `CAP1`, capacity of RB1 in bytes. -/
  cap1 : Nat
  /-- `F`, bytes of one encoder output block. -/
  frameSize : Nat
  /-- `C`, bytes of one encoder input block. -/
  codeSize : Nat
  /-- `SIZE2`. -/
  size2 : Nat
  /-- `SIZE4`. -/
  size4 : Nat
  rc2   : Byte
  rc4   : Byte
  m1    : Byte
  m2    : Byte
  mode  : Byte
  devid : Byte
  lead  : Byte
  crc   : CrcParams
  /-- The capture device's native sample rate (R139). -/
  nativeRate : Nat
  /-- The codec's fixed target rate (R139). -/
  targetRate : Nat
  /-- Which resampler, conversion and codec configuration the session has (R141, R236). -/
  codec : Nat
  /-- Which block instance of a system this is (R7, R237). -/
  unit : Nat
deriving DecidableEq, Repr

/-- The constraints of R8 and R88. A configuration that breaks one has no block (R88). -/
abbrev Config.Constraints (c : Config) : Prop :=
  (1 ≤ c.cap0 ∧ c.cap0 ≤ 2 ^ 32 - 1) ∧
  (1 ≤ c.cap1 ∧ c.cap1 ≤ 2 ^ 32 - 1) ∧
  1 ≤ c.frameSize ∧
  (1 ≤ c.codeSize ∧ c.codeSize ≤ 2 ^ 24 - 1) ∧
  10 + 2 * c.frameSize ≤ c.size2 ∧
  10 + 4 * c.frameSize ≤ c.size4 ∧
  c.rc2 ≠ c.rc4

/-- A configuration that has a block (R8, R88). -/
def Config.legal (c : Config) : Bool := decide c.Constraints

/-- The synthetic test configuration TC (R8, 95_test_vectors.md). DESIGN CHOICE as the configuration
of `State.reset`, log 2: the spec leaves every value open. -/
def Config.test : Config where
  cap0 := 32
  cap1 := 32
  frameSize := 4
  codeSize := 8
  size2 := 18
  size4 := 28
  rc2 := 0x01
  rc4 := 0x02
  m1 := 0x11
  m2 := 0x22
  mode := 0x33
  devid := 0x44
  lead := 0xA2
  crc := CrcParams.iso
  nativeRate := 1
  targetRate := 1
  codec := 0
  unit := 0

/-- The outcome of a draw: of one transport write (R161) or of constructing the collaborators
(R201, where `fail` is the false of `InitDraw`). -/
inductive Answer where
  | ok
  | fail
deriving DecidableEq, Repr, Inhabited

/-- The free value of a draw (R161, R201): nothing constrains it. The arguments are the instance and
the count of its draws, so every sequence of outcomes is possible for each instance, and nothing
relates the outcomes of two instances (R62, R237; log 5). -/
opaque Config.freeAnswer : Nat → Nat → Answer

/-- The external pure functions of the HOST's program (R236), of which the model assumes nothing. -/
structure Collaborators where
  /-- `resample(input_frames, ratio)`, the ratio given as target and native rate (R139): the output
  frames, and how many input frames were consumed (R144). -/
  resample : List Byte → Nat → Nat → List Byte × Nat
  /-- Float samples to signed 16-bit PCM bytes (R139). -/
  convert : List Byte → List Byte
  /-- `ENCODER(blk)`: a signed count and the output block (R141). -/
  encode : List Byte → Int × List Byte
deriving Inhabited

/-- The collaborators that a configuration names, its fields as R236 says: a free value for each
configuration (R141), log 12. -/
opaque Config.collaborators : Config → Collaborators

end Sys2Proof
end

