-- ==== Sys2Proof/Syntax.lean ====
section
/-! DEFINITION. The twelve commands (30_encoding.md R74) and the transaction that carries one (R70). -/

namespace Sys2Proof

/-- The ring-buffer instance a command names (R73): RB[0] raw PCM, RB[1] encoded payload. -/
inductive RbSel where
  | rb0
  | rb1
deriving DecidableEq, Repr

/-- The batch sizes, exactly 2 and 4 frames (R9). -/
inductive BatchSize where
  | two
  | four
deriving DecidableEq, Repr

/-- One constructor per row of the opcode map (R74). A `len` is the zero-extended LEN field (R72). -/
inductive Instr where
  /-- SESS_START (R200). -/
  | sessStart
  /-- SESS_STOP (R202). -/
  | sessStop
  /-- RB_WRITE i, len bytes on `din` (R101). -/
  | rbWrite (i : RbSel) (len : Nat)
  /-- RB_READ i, len (R105). -/
  | rbRead (i : RbSel) (len : Nat)
  /-- RB_LEN i (R110). -/
  | rbLen (i : RbSel)
  /-- RB_GLITCH i (R111). -/
  | rbGlitch (i : RbSel)
  /-- BATCH_SEL (R130). -/
  | batchSel
  /-- EMIT.2, 2·F bytes on `din` (R163). -/
  | emit2
  /-- EMIT.4, 4·F bytes on `din` (R164). -/
  | emit4
  /-- CRC32 of len bytes on `din` (R184). -/
  | crc32 (len : Nat)
  /-- STATUS (R203). -/
  | status
  /-- CNT_RD (R204). -/
  | cntRd
deriving DecidableEq, Repr

/-- A command is one transaction `(word, din)` (R70). -/
structure Transaction where
  word : Word
  din  : List Byte
deriving DecidableEq, Repr

end Sys2Proof
end

