-- ==== Sys2Proof/WellFormed.lean ====
section
/-! DEFINITION. Which commands can be encoded (30_encoding.md R72) and which data lengths they take
(R74, R77). The constraints on a configuration are `Config.legal` (R8, R88). -/

namespace Sys2Proof

/-- The largest value of the 24-bit LEN field (R72). -/
def maxLen : Nat := 2 ^ 24 - 1

/-- A command is well formed when its LEN operand fits in 24 bits (R72). SEL is well formed by its
type (R73). -/
def Instr.wf : Instr → Bool
  | .rbWrite _ len => decide (len ≤ maxLen)
  | .rbRead _ len => decide (len ≤ maxLen)
  | .crc32 len => decide (len ≤ maxLen)
  | .sessStart | .sessStop | .rbLen _ | .rbGlitch _ | .batchSel | .emit2 | .emit4 | .status | .cntRd => true

/-- The `|din|` column of R74. -/
def Instr.dinLen (c : Config) : Instr → Nat
  | .rbWrite _ len => len
  | .crc32 len => len
  | .emit2 => 2 * c.frameSize
  | .emit4 => 4 * c.frameSize
  | .sessStart | .sessStop | .rbRead _ _ | .rbLen _ | .rbGlitch _ | .batchSel | .status | .cntRd => 0

/-- A command with another `|din|` is ill-formed (R77). -/
def Instr.dinWf (c : Config) (i : Instr) (din : List Byte) : Bool :=
  decide (din.length = i.dinLen c)

end Sys2Proof
end

