-- ==== Sys2Proof/Decode.lean ====
section
/-! DEFINITION. The decoder of command words (30_encoding.md R71 to R76), total on every word and on
every byte list, the encoder written from the same map, and the rows of the opcode map (R74). -/

namespace Sys2Proof

/-- Why a word is illegal (R75). The block answers ILLEGAL to each (R76). -/
inductive DecodeError where
  /-- OP 0x0 or 0xC to 0xF. -/
  | reservedOpcode
  /-- A SEL the command does not allow. -/
  | illegalSel
  /-- A LEN the command does not allow. -/
  | illegalLen
  /-- Fewer than the four bytes of a command word. -/
  | truncated
deriving DecidableEq, Repr

/-- OP, bits [31:28] (R71). -/
def opField (w : Word) : BitVec 4 := w.extractLsb' 28 4
/-- SEL, bits [27:24] (R71). -/
def selField (w : Word) : BitVec 4 := w.extractLsb' 24 4
/-- LEN, bits [23:0], zero-extended (R72). -/
def lenField (w : Word) : Nat := (w.extractLsb' 0 24).toNat

/-- A command whose SEL and LEN must both be 0. -/
def decodePlain (w : Word) (i : Instr) : Except DecodeError Instr :=
  if selField w ≠ 0 then .error .illegalSel
  else if lenField w ≠ 0 then .error .illegalLen
  else .ok i

/-- A ring-buffer command: SEL is 0 or 1, every other value is illegal (R73). -/
def decodeRb (w : Word) (i : RbSel → Except DecodeError Instr) : Except DecodeError Instr :=
  if selField w = 0 then i .rb0
  else if selField w = 1 then i .rb1
  else .error .illegalSel

/-- A ring-buffer query: LEN must be 0 (R75). -/
def decodeRbQuery (w : Word) (i : RbSel → Instr) : Except DecodeError Instr :=
  decodeRb w fun r => if lenField w ≠ 0 then .error .illegalLen else .ok (i r)

/-- OP 0x8: SEL is 0 and LEN is the frame count, 2 or 4 (R72, R74, R75). -/
def decodeEmit (w : Word) : Except DecodeError Instr :=
  if selField w ≠ 0 then .error .illegalSel
  else if lenField w = 2 then .ok .emit2
  else if lenField w = 4 then .ok .emit4
  else .error .illegalLen

/-- OP 0x9: SEL is 0, LEN is the byte count. -/
def decodeCrc (w : Word) : Except DecodeError Instr :=
  if selField w ≠ 0 then .error .illegalSel else .ok (.crc32 (lenField w))

/-- The decoder (R74, R75). -/
def decode (w : Word) : Except DecodeError Instr :=
  match (opField w).toNat with
  | 0x1 => decodePlain w .sessStart
  | 0x2 => decodePlain w .sessStop
  | 0x3 => decodeRb w fun r => .ok (.rbWrite r (lenField w))
  | 0x4 => decodeRb w fun r => .ok (.rbRead r (lenField w))
  | 0x5 => decodeRbQuery w .rbLen
  | 0x6 => decodeRbQuery w .rbGlitch
  | 0x7 => decodePlain w .batchSel
  | 0x8 => decodeEmit w
  | 0x9 => decodeCrc w
  | 0xA => decodePlain w .status
  | 0xB => decodePlain w .cntRd
  | _ => .error .reservedOpcode

/-- `word = OP << 28 | SEL << 24 | LEN` (R71); a LEN is stored mod 2^24 (R11). -/
def packWord (op sel : BitVec 4) (len : Nat) : Word :=
  op.zeroExtend 32 <<< 28 ||| sel.zeroExtend 32 <<< 24 ||| (BitVec.ofNat 24 len).zeroExtend 32

/-- The instance number in SEL (R73). -/
def RbSel.code : RbSel → BitVec 4
  | .rb0 => 0
  | .rb1 => 1

/-- The encoder: the word of each row of R74. -/
def encode : Instr → Word
  | .sessStart => packWord 0x1 0 0
  | .sessStop => packWord 0x2 0 0
  | .rbWrite i len => packWord 0x3 i.code len
  | .rbRead i len => packWord 0x4 i.code len
  | .rbLen i => packWord 0x5 i.code 0
  | .rbGlitch i => packWord 0x6 i.code 0
  | .batchSel => packWord 0x7 0 0
  | .emit2 => packWord 0x8 0 2
  | .emit4 => packWord 0x8 0 4
  | .crc32 len => packWord 0x9 0 len
  | .status => packWord 0xA 0 0
  | .cntRd => packWord 0xB 0 0

/-- Bytes of a command word carried as bytes: little-endian (20_memory.md R54). -/
def wordBytes (w : Word) : List Byte :=
  [w.extractLsb' 0 8, w.extractLsb' 8 8, w.extractLsb' 16 8, w.extractLsb' 24 8]

/-- The word whose little-endian bytes are given (R54). -/
def wordOfBytes (b0 b1 b2 b3 : Byte) : Word :=
  b3.zeroExtend 32 <<< 24 ||| b2.zeroExtend 32 <<< 16 ||| b1.zeroExtend 32 <<< 8 ||| b0.zeroExtend 32

/-- The decoder on a byte stream: the command of the first four bytes, and the rest. -/
def decodeBytes : List Byte → Except DecodeError (Instr × List Byte)
  | b0 :: b1 :: b2 :: b3 :: rest =>
    match decode (wordOfBytes b0 b1 b2 b3) with
    | .ok i => .ok (i, rest)
    | .error e => .error e
  | _ => .error .truncated

/-- The command word of `nbits` bits given as a number, every bit above `nbits` 0. -/
def tableWord (nbits w : Nat) : Word := BitVec.ofNat 32 (w % 2 ^ nbits)

/-- What the decoder reads from the bytes of a word of spec/opcode_table.json. -/
def decodeTableWord (nbits w : Nat) : Option Instr :=
  match decodeBytes (wordBytes (tableWord nbits w)) with
  | .ok (i, _) => some i
  | .error _ => none

/-- The mnemonic of R74. -/
def Instr.mnemonic : Instr → String
  | .sessStart => "SESS_START"
  | .sessStop => "SESS_STOP"
  | .rbWrite _ _ => "RB_WRITE"
  | .rbRead _ _ => "RB_READ"
  | .rbLen _ => "RB_LEN"
  | .rbGlitch _ => "RB_GLITCH"
  | .batchSel => "BATCH_SEL"
  | .emit2 => "EMIT.2"
  | .emit4 => "EMIT.4"
  | .crc32 _ => "CRC32"
  | .status => "STATUS"
  | .cntRd => "CNT_RD"

/-- One row of the second table of R74: a word `w` selects it when `w & mask = pattern`. -/
structure OpcodeRow where
  mnemonic : String
  pattern  : Word
  mask     : Word
deriving DecidableEq, Repr

/-- A word selects a row (R74). -/
abbrev OpcodeRow.Selects (r : OpcodeRow) (w : Word) : Prop := w &&& r.mask = r.pattern

/-- The match and mask of each row, as R74 lists them. -/
def opcodeMap : List OpcodeRow :=
  [⟨"SESS_START", 0x10000000, 0xFFFFFFFF⟩, ⟨"SESS_STOP", 0x20000000, 0xFFFFFFFF⟩,
   ⟨"RB_WRITE", 0x30000000, 0xFE000000⟩, ⟨"RB_READ", 0x40000000, 0xFE000000⟩,
   ⟨"RB_LEN", 0x50000000, 0xFEFFFFFF⟩, ⟨"RB_GLITCH", 0x60000000, 0xFEFFFFFF⟩,
   ⟨"BATCH_SEL", 0x70000000, 0xFFFFFFFF⟩, ⟨"EMIT.2", 0x80000002, 0xFFFFFFFF⟩,
   ⟨"EMIT.4", 0x80000004, 0xFFFFFFFF⟩, ⟨"CRC32", 0x90000000, 0xFF000000⟩,
   ⟨"STATUS", 0xA0000000, 0xFFFFFFFF⟩, ⟨"CNT_RD", 0xB0000000, 0xFFFFFFFF⟩]

end Sys2Proof
end

