-- ==== Sys2Proof/Machine/State.lean ====
section
/-! DEFINITION. The state of one block instance (10_state.md R20 to R39), its command port
(30_encoding.md R70, R77, R78), the agents around it (00_scope.md R6), and reset (R40, R260). -/

namespace Sys2Proof.Machine

/-- The backing array of a ring buffer (R50): cells of index and byte, the indices rising, with no
cell equal to what an unlisted index reads as. -/
abbrev Memory := List Host.Cell

/-- What an index that nothing has written reads as. The spec leaves the bytes of a new array
unspecified and lets a model hold any value (R37, R200). DESIGN CHOICE, log 6. -/
def Memory.unlisted : Byte := 0

/-- The canonical form of a memory. -/
abbrev Memory.wf (m : Memory) : Prop :=
  m.Pairwise (fun x y => x.1 < y.1) ∧ ∀ x ∈ m, x.2 ≠ Memory.unlisted

/-- One ring buffer (R20, R22, R27). `end_` is the manual's `end`. -/
structure RingBuffer where
  cap     : Nat
  mem     : Memory
  start   : Nat
  end_    : Nat
  hasData : Bool
  glitch  : BitVec 32
deriving DecidableEq, Repr

/-- `RB[0]` and `RB[1]` of a session (R20). -/
structure Buffers where
  rb0 : RingBuffer
  rb1 : RingBuffer
deriving DecidableEq, Repr

/-- `sstate` (R21). -/
inductive SState where
  | idle
  | active
  | faulted
deriving DecidableEq, Repr

/-- `sstate` together with the ring buffers, which exist exactly in a session (R21, R40). DESIGN
CHOICE of one home for both, log 7. -/
inductive Session where
  | idle
  | active (b : Buffers)
  | faulted (b : Buffers)
deriving DecidableEq, Repr

/-- The RSTAT codes that are ever returned (R79). -/
inductive RStat where
  | ok
  | underrun
  | noBatch
  | illegal
  | badState
  | txFail
  | initFail
deriving DecidableEq, Repr

/-- The output events (R39). -/
inductive Event where
  /-- `UNDERRUN(i)`. -/
  | underrun (i : RbSel)
  /-- `NOTIFY(n)`. -/
  | notify (n : BatchSize)
  /-- `FRAME(bytes, result)`. -/
  | frame (bytes : List Byte) (result : Answer)
  /-- `FATAL(code)`. -/
  | fatal (code : RStat)
deriving DecidableEq, Repr

/-- The response of a command (R78). -/
structure Response where
  rstat : RStat
  rval  : Word
  dout  : List Byte
deriving DecidableEq, Repr

/-- Who issues commands (R6). -/
inductive Agent where
  | host
  | observer (n : Nat)
deriving DecidableEq, Repr

/-- One block delivered by CAPTURE: `(interleaved_float_samples, sample_count)` (R236). -/
structure CaptureBlock where
  samples : List Byte
  count   : Int
deriving DecidableEq, Repr

/-- What CAPTURE is doing, as its `start()` and `stop()` leave it (R236). DESIGN CHOICE, log 13. -/
inductive CaptureMode where
  /-- Not started in this bring-up (R263). -/
  | unstarted
  /-- Producing callbacks. -/
  | started
  /-- Halted: no further callback arrives (R266). -/
  | halted
deriving DecidableEq, Repr

/-- Where the HOST stands in its per-block program (R138), between two of its commands. -/
inductive HostPhase where
  /-- No callback is running. -/
  | idle
  /-- The head of the loop of step 3: RB_LEN 0 comes next. -/
  | test
  /-- RB_READ 0, C and the encoder call come next. -/
  | read
  /-- RB_WRITE 1 of an encoder output block comes next. -/
  | append (out : List Byte)
  /-- BATCH_SEL comes next. -/
  | batch
  /-- After TX_FAIL of its BATCH_SEL: SESS_STOP comes next, before the callback returns (R138, R224). -/
  | stop
  /-- No callback is running, and after TX_FAIL of another command SESS_STOP is owed (R224, log 22). -/
  | owesStop
deriving DecidableEq, Repr

/-- What the HOST logs or reports (R143, R144, R224). -/
inductive HostNote where
  | encodeFailure
  | resamplerShortfall
  | sessionFailed
deriving DecidableEq, Repr

/-- One entry of the order in which the agents move (R6, R60). -/
inductive Turn where
  /-- An agent issues one command. -/
  | command (a : Agent) (tx : Transaction)
  /-- An agent polls once in a `WAIT_FILL i, k` loop (R82). -/
  | waitFill (a : Agent) (i : RbSel) (k : Nat)
  /-- CAPTURE delivers a block to the HOST (R236). -/
  | capture (blk : CaptureBlock)
  /-- The HOST issues the next command of its per-block program (R138). -/
  | host
  /-- The HOST starts a session, then CAPTURE (R263). -/
  | start
  /-- The HOST halts CAPTURE, then stops the session (R266). -/
  | stop
  /-- The HOST starts CAPTURE by itself, in or out of the order that R263 asks of the system. -/
  | captureStart
  /-- The HOST halts CAPTURE by itself, the first half of R266. -/
  | captureHalt
deriving DecidableEq, Repr

/-- The state of one block instance and of the agents around it. -/
structure State where
  /-- The configuration, which no command writes (R10, R32). DESIGN CHOICE of its place, log 1. -/
  cfg       : Config
  /-- `sstate`, `RB[0]` and `RB[1]` (R20, R21). -/
  session   : Session
  /-- `fcause` (R29). -/
  fcause    : BitVec 4
  /-- `ctr` (R28). -/
  ctr       : BitVec 16
  /-- `trace`, oldest event first (R39). -/
  trace     : List Event
  /-- The agent that issued the command in hand and gets its response (R221). -/
  issuer    : Agent
  /-- The byte sequence of the command in hand (R70). -/
  din       : List Byte
  /-- The response of the last command (R78). -/
  resp      : Option Response
  /-- The order in which the agents move from here on (R60). -/
  turns     : List Turn
  /-- The HOST's place in its program (R138). -/
  host      : HostPhase
  /-- What CAPTURE is doing (R263, R266). -/
  capture   : CaptureMode
  /-- Blocks that wait for the callback before them to return, oldest first (R138). -/
  captured  : List CaptureBlock
  /-- The HOST's log (R143, R144) and its reports to the owner (R224), oldest first. -/
  hostLog   : List HostNote
  /-- Outcomes of the next draws that are already known, oldest first (log 5). -/
  answers   : List Answer
  /-- How many draws were taken from `Config.freeAnswer` (log 5). -/
  draws     : Nat
deriving DecidableEq, Repr

/-- The block has no fault that stops it: every condition ends its command with an RSTAT (R220,
R221). So no step raises a fault. -/
inductive Fault where
deriving DecidableEq, Repr

/-- Why a step has no next state. -/
inductive Refusal where
  /-- An arm of `exec` without a meaning. No arm is left so. Safe. -/
  | notModelled (mnemonic : String)
  /-- Raised by every step of a state whose configuration breaks R8 or R88: it has no block. Safe. -/
  | illegalConfig
  /-- Raised by the HOST's turn when the encoder's positive count is not F, or its block is not F
  bytes (R141). Safe. -/
  | encoderContract
deriving DecidableEq, Repr

/-- Power-on reset of a block with a given configuration (R40, R260). Nothing is pending in the
environment (log 3, log 8, log 11, log 13). -/
def State.resetWith (c : Config) : State where
  cfg := c
  session := .idle
  fcause := 0
  ctr := 0
  trace := []
  issuer := .host
  din := []
  resp := none
  turns := []
  host := .idle
  capture := .unstarted
  captured := []
  hostLog := []
  answers := []
  draws := 0

/-- Power-on reset. DESIGN CHOICE of the configuration, log 2. -/
def State.reset : State := State.resetWith Config.test

/-- `sstate` of a session. -/
def Session.sstate : Session → SState
  | .idle => .idle
  | .active _ => .active
  | .faulted _ => .faulted

/-- The ring buffers that exist (R40). -/
def Session.buffers : Session → Option Buffers
  | .idle => none
  | .active b => some b
  | .faulted b => some b

end Sys2Proof.Machine
end

