-- ==== Sys2Proof/Machine/Flags.lean ====
section
/-! DEFINITION. The one flag of a ring buffer, `hasData` (10_state.md R35), and the status word, a
view of `sstate` and `fcause` (R36). -/

namespace Sys2Proof.Machine

/-- A write of at least one byte sets the flag whatever it was; a write of none leaves it (R103,
R104). -/
def hasDataAfterWrite (n : Nat) (old : Bool) : Bool := if n = 0 then old else true

/-- Taking `k` of `len` held bytes clears the flag exactly when every held byte is taken (R108,
R130). -/
def hasDataAfterTake (k len : Nat) (old : Bool) : Bool := if k = len then false else old

/-- `code(sstate)` (R203). -/
def SState.code : SState → BitVec 4
  | .idle => 0
  | .active => 1
  | .faulted => 2

/-- The status word: SSTATE in bits [1:0], FCAUSE in bits [7:4], the rest 0 (R36, R203). -/
def statusWord (st : SState) (fcause : BitVec 4) : Word :=
  fcause.zeroExtend 32 <<< 4 ||| st.code.zeroExtend 32

end Sys2Proof.Machine
end

