-- ==== Sys2Proof/Machine/Ops.lean ====
section
/-! DEFINITION. The named operations over the backing arrays, the ring buffers, the command port,
the event trace and the draws, and entering and leaving the fault state (40_ringbuffer.md,
60_exceptions.md). -/

namespace Sys2Proof.Machine

/-! ## Bytes of a value -/

/-- `le16` (00_scope.md R12). -/
def le16 (v : BitVec 16) : List Byte := [v.extractLsb' 0 8, v.extractLsb' 8 8]

/-- `le32` (R12). -/
def le32 (v : Word) : List Byte :=
  [v.extractLsb' 0 8, v.extractLsb' 8 8, v.extractLsb' 16 8, v.extractLsb' 24 8]

/-- `zeros(k)` (R12). -/
def zeros (k : Nat) : List Byte := List.replicate k 0

/-! ## A backing array -/

/-- The byte at an index of a backing array. -/
def Memory.read : Memory → Nat → Byte
  | [], _ => Memory.unlisted
  | (a', b') :: m, a => if a' = a then b' else Memory.read m a

/-- Stores one byte and keeps the canonical form. -/
def Memory.write : Memory → Nat → Byte → Memory
  | [], a, b => if b = Memory.unlisted then [] else [(a, b)]
  | (a', b') :: m, a, b =>
    if a < a' then
      if b = Memory.unlisted then (a', b') :: m else (a, b) :: (a', b') :: m
    else if a = a' then
      if b = Memory.unlisted then m else (a, b) :: m
    else (a', b') :: Memory.write m a b

/-- `for k in 0..n-1: mem[(pos + k) mod cap] <- s[k]` (R101). -/
def Memory.store (m : Memory) (cap pos : Nat) : List Byte → Memory
  | [] => m
  | b :: s => Memory.store (m.write (pos % cap) b) cap (pos + 1) s

/-! ## A ring buffer -/

/-- A ring buffer as SESS_START creates it (R200). -/
def RingBuffer.create (cap : Nat) : RingBuffer where
  cap := cap
  mem := []
  start := 0
  end_ := 0
  hasData := false
  glitch := 0

/-- `len(i)`, the fill level (R25). -/
def RingBuffer.len (rb : RingBuffer) : Nat :=
  if rb.hasData then
    if rb.start = rb.end_ then rb.cap else (rb.end_ + rb.cap - rb.start) % rb.cap
  else 0

/-- The byte at a distance from the oldest one: `mem[(start + k) mod cap]` (R26). -/
def RingBuffer.byteAt (rb : RingBuffer) (k : Nat) : Byte := rb.mem.read ((rb.start + k) % rb.cap)

/-- `content(i)`, oldest byte first (R26). -/
def RingBuffer.content (rb : RingBuffer) : List Byte := (List.range rb.len).map rb.byteAt

/-- The overflow amount of a write of `n` bytes (R101, R102). -/
def RingBuffer.overflow (rb : RingBuffer) (n : Nat) : Nat := rb.len + n - rb.cap

/-- Appends the bytes `s`, overwriting the oldest ones (R101). -/
def RingBuffer.write (rb : RingBuffer) (s : List Byte) : RingBuffer :=
  { rb with
    mem := rb.mem.store rb.cap rb.end_ s
    end_ := (rb.end_ + s.length) % rb.cap
    start := (rb.start + rb.overflow s.length) % rb.cap
    hasData := hasDataAfterWrite s.length rb.hasData }

/-- Removes the `k` oldest bytes, `k ≤ len` (R105, R133). -/
def RingBuffer.take (rb : RingBuffer) (k : Nat) : RingBuffer :=
  { rb with
    start := (rb.start + k) % rb.cap
    hasData := hasDataAfterTake k rb.len rb.hasData }

/-- Counts one underrun, modulo 2^32 (R107). -/
def RingBuffer.countUnderrun (rb : RingBuffer) : RingBuffer :=
  { rb with glitch := rb.glitch + 1 }

/-- What a read of `n` bytes returns: the held bytes in order, then zero fill (R105, R106). -/
def RingBuffer.readOut (rb : RingBuffer) (n : Nat) : List Byte :=
  rb.content.take n ++ zeros (n - rb.len)

/-! ## The command port and the trace -/

/-- The code of an RSTAT (R79). -/
def RStat.code : RStat → BitVec 4
  | .ok => 0
  | .underrun => 1
  | .noBatch => 2
  | .illegal => 3
  | .badState => 4
  | .txFail => 5
  | .initFail => 6

/-- `respond(rstat, rval, dout)` ends the command (R13, R78). Its data has been used up. -/
def respond (s : State) (rstat : RStat) (rval : Word) (dout : List Byte) : State :=
  { s with din := [], resp := some ⟨rstat, rval, dout⟩ }

/-- A malformed word or data length: no effect (R76, R77, R225). -/
def respondIllegal (s : State) : State := respond s .illegal 0 []

/-- A command the session state does not allow: no effect (R205, R226). -/
def respondBadState (s : State) : State := respond s .badState 0 []

/-- `emit_event(e)` (R13, R39). -/
def emitEvent (s : State) (e : Event) : State := { s with trace := s.trace ++ [e] }

/-- One draw (R161, R201): the next known answer, and when none is known a free value of this
instance. The spec relates no draw of one instance to a draw of another (R62); DESIGN CHOICE, log 5. -/
def draw (s : State) : Answer × State :=
  match s.answers with
  | a :: rest => (a, { s with answers := rest })
  | [] => (Config.freeAnswer s.cfg.unit s.draws, { s with draws := s.draws + 1 })

/-! ## The fault state -/

/-- Records a fatal event with its code (R29, R223, R230). -/
def recordFatal (s : State) (code : RStat) : State :=
  emitEvent { s with fcause := code.code } (.fatal code)

/-- `sstate <- FAULTED`, the ring buffers kept (R230). -/
def Session.toFaulted : Session → Session
  | .active b => .faulted b
  | .faulted b => .faulted b
  | .idle => .idle

/-- Fault entry after a failed transport write (R230). -/
def enterFaulted (s : State) : State :=
  recordFatal { s with session := s.session.toFaulted } .txFail

/-- Leaving a session, the only way out of FAULTED (R202, R231): both buffers are discarded, `ctr`
and `fcause` stay (R262). -/
def endSession (s : State) : State := { s with session := .idle }

/-- The values SESS_START gives a new session (R200, R261). -/
def beginSession (s : State) : State :=
  { s with
    session := .active ⟨RingBuffer.create s.cfg.cap0, RingBuffer.create s.cfg.cap1⟩
    ctr := 0
    fcause := 0 }

end Sys2Proof.Machine
end

