-- ==== Sys2Proof/Machine/Operands.lean ====
section
/-! DEFINITION. The operands of a command: the ring buffer SEL names, the data length, the session
state it needs, and the numbers of a batch (30_encoding.md R73, R77, 44_control.md R205). -/

namespace Sys2Proof.Machine

/-- `sstate` (R21). -/
def State.sstate (s : State) : SState := s.session.sstate

/-- `RB[i]`. -/
def Buffers.get (b : Buffers) : RbSel → RingBuffer
  | .rb0 => b.rb0
  | .rb1 => b.rb1

/-- `RB[i] <- rb`. -/
def Buffers.set (b : Buffers) (i : RbSel) (rb : RingBuffer) : Buffers :=
  match i with
  | .rb0 => { b with rb0 := rb }
  | .rb1 => { b with rb1 := rb }

/-- An ACTIVE session with these buffers. -/
def setBuffers (s : State) (b : Buffers) : State := { s with session := .active b }

/-- `n` of a batch (R9). -/
def BatchSize.frames : BatchSize → Nat
  | .two => 2
  | .four => 4

/-- `n·F`, the payload bytes of a batch (R135). -/
def payloadLen (c : Config) (n : BatchSize) : Nat := BatchSize.frames n * c.frameSize

/-- The second check of R229: `|din|` has the length the command needs (R77). -/
def checkDin (need : Nat) (s : State) (run : State) : State :=
  if s.din.length = need then run else respondIllegal s

/-- The third check of R229 for a command that needs IDLE (R205). -/
def inIdle (s : State) (run : State) : State :=
  match s.session with
  | .idle => run
  | .active _ => respondBadState s
  | .faulted _ => respondBadState s

/-- The third check of R229 for a command that needs ACTIVE (R100, R205). -/
def inActive (s : State) (run : Buffers → State) : State :=
  match s.session with
  | .active b => run b
  | .idle => respondBadState s
  | .faulted _ => respondBadState s

/-- The third check of R229 for a command that needs ACTIVE or FAULTED (R100, R205). -/
def inSession (s : State) (run : Buffers → State) : State :=
  match s.session with
  | .active b => run b
  | .faulted b => run b
  | .idle => respondBadState s

end Sys2Proof.Machine
end

