-- ==== Sys2Proof/Machine/Assembler.lean ====
section
/-! DEFINITION. The lines of the assembler syntax (30_encoding.md R81) and of the pseudo-command
RB_DISCARD (R82) as data, and the transaction each one stands for. The pseudo-commands with a loop,
WAIT_FILL and PUSH_BLOCK with its ENCODE_STEP, are in Turns.lean. -/

namespace Sys2Proof.Machine

/-- One line of R81, or RB_DISCARD of R82. -/
inductive AsmLine where
  | sessStart
  | sessStop
  | rbWrite (i : RbSel) (bytes : List Byte)
  | rbRead (i : RbSel) (len : Nat)
  | rbLen (i : RbSel)
  | rbGlitch (i : RbSel)
  | batchSel
  | emit2 (bytes : List Byte)
  | emit4 (bytes : List Byte)
  | crc32 (bytes : List Byte)
  | status
  | cntRd
  | rbDiscard (i : RbSel) (len : Nat)
deriving DecidableEq, Repr

/-- The command of a line. `LEN = number of listed bytes` (R81). -/
def AsmLine.instr : AsmLine → Instr
  | .sessStart => .sessStart
  | .sessStop => .sessStop
  | .rbWrite i bytes => .rbWrite i bytes.length
  | .rbRead i len => .rbRead i len
  | .rbLen i => .rbLen i
  | .rbGlitch i => .rbGlitch i
  | .batchSel => .batchSel
  | .emit2 _ => .emit2
  | .emit4 _ => .emit4
  | .crc32 bytes => .crc32 bytes.length
  | .status => .status
  | .cntRd => .cntRd
  | .rbDiscard i len => .rbRead i len

/-- The bytes a line puts on `din`. -/
def AsmLine.din : AsmLine → List Byte
  | .rbWrite _ bytes => bytes
  | .emit2 bytes => bytes
  | .emit4 bytes => bytes
  | .crc32 bytes => bytes
  | .sessStart | .sessStop | .rbRead _ _ | .rbLen _ | .rbGlitch _ | .batchSel | .status | .cntRd | .rbDiscard _ _ => []

/-- The transaction of a line (R70). A count above 2^24-1 is stored mod 2^24 (R11), and the block
then finds the wrong data length (R77), log 14. -/
def AsmLine.assemble (l : AsmLine) : Transaction := ⟨encode l.instr, l.din⟩

end Sys2Proof.Machine
end

