-- ==== Sys2Proof/Machine/Crc.lean ====
section
/-! DEFINITION. The checksum function and the CRC32 command (43_crc32.md R180 to R184). -/

namespace Sys2Proof.Machine

/-- One bit of the serial procedure. The reflected form shifts right with the reflected polynomial
(R182); the normal form shifts left with the polynomial itself. -/
def crcBit (p : CrcParams) (c : Word) : Word :=
  if p.refIn then
    if c.getLsbD 0 then (c >>> 1) ^^^ p.poly.reverse else c >>> 1
  else
    if c.getLsbD 31 then (c <<< 1) ^^^ p.poly else c <<< 1

/-- `for j in 0..n-1` of the bit step. -/
def crcBits (p : CrcParams) : Nat → Word → Word
  | 0, c => c
  | n + 1, c => crcBits p n (crcBit p c)

/-- One byte of the procedure (R182). A reflected byte enters at bit 0, another at bit 31. -/
def crcByte (p : CrcParams) (c : Word) (b : Byte) : Word :=
  crcBits p 8 (c ^^^ (if p.refIn then b.zeroExtend 32 else b.zeroExtend 32 <<< 24))

/-- The finalization: output reflection where it differs from the register's form, then the final
XOR (R181). -/
def crcFinal (p : CrcParams) (c : Word) : Word :=
  (if p.refIn = p.refOut then c else c.reverse) ^^^ p.xorOut

/-- The seed in the register's form. -/
def crcSeed (p : CrcParams) : Word := if p.refIn then p.init.reverse else p.init

/-- `crc32(s)` under the algorithm parameter `CRC` (R8, R180). Only the bytes and the parameter
determine it (R183). -/
def crc32 (p : CrcParams) (s : List Byte) : Word := crcFinal p (s.foldl (crcByte p) (crcSeed p))

/-- CRC32 (R184): no LEAD byte is prepended, every session state accepts it. -/
def execCrc32 (n : Nat) (s : State) : Host.Outcome State Fault Refusal :=
  .next (checkDin n s (respond s .ok (crc32 s.cfg.crc s.din) []))

end Sys2Proof.Machine
end

