-- ==== Sys2Proof/Machine/Emitter.lean ====
section
/-! DEFINITION. The frame emitter with its header and trailer sequencer, EMIT.2 and EMIT.4
(42_emitter.md R150 to R165). -/

namespace Sys2Proof.Machine

/-- `S` of R150: SIZE2 or SIZE4. -/
def frameSpan (c : Config) : BatchSize → Nat
  | .two => c.size2
  | .four => c.size4

/-- `T` of R150, the transmitted length (R85). -/
def wireLen (c : Config) : BatchSize → Nat
  | .two => c.size2
  | .four => c.size4 + 1

/-- Byte 0, the report code (R151). -/
def reportCode (c : Config) : BatchSize → Byte
  | .two => c.rc2
  | .four => c.rc4

/-- Writes the bytes `bs` into a frame from offset `off` on. -/
def putBytes (fr : List Byte) (off : Nat) : List Byte → List Byte
  | [] => fr
  | b :: bs => putBytes (fr.set off b) (off + 1) bs

/-- CLEAR and HDR: bytes 0 to 5 (R151 to R154). -/
def putHeader (c : Config) (n : BatchSize) (ctr : BitVec 16) (fr : List Byte) : List Byte :=
  putBytes fr 0 ([reportCode c n, c.m1, c.m2] ++ le16 ctr ++ [c.mode])

/-- The checksum of R157: over LEAD and the frame bytes 0 to S-5. -/
def frameChecksum (c : Config) (n : BatchSize) (fr : List Byte) : Word :=
  crc32 c.crc (c.lead :: fr.take (frameSpan c n - 4))

/-- CRC: the checksum little-endian in bytes S-4 to S-1 (R158). -/
def putChecksum (c : Config) (n : BatchSize) (fr : List Byte) : List Byte :=
  putBytes fr (frameSpan c n - 4) (le32 (frameChecksum c n fr))

/-- TRL: the device id at byte SIZE4 of a 4-frame frame only (R159). -/
def putDeviceId (c : Config) (n : BatchSize) (fr : List Byte) : List Byte :=
  match n with
  | .two => fr
  | .four => fr.set c.size4 c.devid

/-- The wire frame the sequencer builds, phase by phase (R150). -/
def buildFrame (c : Config) (n : BatchSize) (ctr : BitVec 16) (payload : List Byte) : List Byte :=
  putDeviceId c n <| putChecksum c n <| putBytes (putHeader c n ctr (zeros (wireLen c n))) 6 payload

/-- The phases CNT and TX of R150 for a built frame: the counter advances whatever the write's
outcome (R160), the write is a draw (R161), and its failure enters FAULTED (R162, R230). -/
def transmit (n : BatchSize) (fr : List Byte) (s : State) : Answer × State :=
  let d := draw { s with ctr := s.ctr + BitVec.ofNat 16 (BatchSize.frames n) }
  let t := emitEvent d.2 (.frame fr d.1)
  match d.1 with
  | .ok => (.ok, t)
  | .fail => (.fail, enterFaulted t)

/-- `EmitFrame(n, payload)` (R150). -/
def emitFrame (n : BatchSize) (payload : List Byte) (s : State) : Answer × State :=
  transmit n (buildFrame s.cfg n s.ctr payload) s

/-- Answers an emission: OK or TX_FAIL with the given RVAL (R130, R163, R164). -/
def respondEmission (rval : Word) (r : Answer × State) : State :=
  match r.1 with
  | .ok => respond r.2 .ok rval []
  | .fail => respond r.2 .txFail rval []

/-- EMIT.2 (R163). -/
def execEmit2 (s : State) : Host.Outcome State Fault Refusal :=
  .next (checkDin (payloadLen s.cfg .two) s
    (inActive s fun _ => respondEmission 0 (emitFrame .two s.din s)))

/-- EMIT.4 (R164). -/
def execEmit4 (s : State) : Host.Outcome State Fault Refusal :=
  .next (checkDin (payloadLen s.cfg .four) s
    (inActive s fun _ => respondEmission 0 (emitFrame .four s.din s)))

end Sys2Proof.Machine
end

