-- ==== Sys2Proof/Machine/Batch.lean ====
section
/-! DEFINITION. The batch selector, BATCH_SEL (41_batch.md R130 to R137). -/

namespace Sys2Proof.Machine

/-- The fill level of RB[1] in whole frames (R131). -/
def framesHeld (c : Config) (b : Buffers) : Nat := b.rb1.len / c.frameSize

/-- The selection policy (R132). -/
def selectBatch (nf : Nat) : Option BatchSize :=
  if 4 ≤ nf then some .four else if 2 ≤ nf then some .two else none

/-- Pops the selected batch, notifies, and emits it (R130, R133, R134). -/
def emitBatch (n : BatchSize) (s : State) (b : Buffers) : State :=
  let popped := setBuffers s (b.set .rb1 (b.rb1.take (payloadLen s.cfg n)))
  respondEmission (BitVec.ofNat 32 (BatchSize.frames n))
    (emitFrame n (b.rb1.content.take (payloadLen s.cfg n)) (emitEvent popped (.notify n)))

/-- BATCH_SEL once the checks have passed (R130). -/
def batchSel (s : State) (b : Buffers) : State :=
  match selectBatch (framesHeld s.cfg b) with
  | some n => emitBatch n s b
  | none => respond s .noBatch 0 []

/-- BATCH_SEL (R130). -/
def execBatchSel (s : State) : Host.Outcome State Fault Refusal :=
  .next (checkDin 0 s (inActive s (batchSel s)))

end Sys2Proof.Machine
end

