-- ==== Sys2Proof/Machine/Control.lean ====
section
/-! DEFINITION. Session control and the status commands (44_control.md R200 to R204). -/

namespace Sys2Proof.Machine

/-- SESS_START in IDLE (R200, R201, R223). -/
def sessStart (s : State) : State :=
  let d := draw s
  match d.1 with
  | .ok => respond (beginSession d.2) .ok 0 []
  | .fail => respond (recordFatal d.2 .initFail) .initFail 0 []

/-- SESS_START (R200). -/
def execSessStart (s : State) : Host.Outcome State Fault Refusal :=
  .next (checkDin 0 s (inIdle s (sessStart s)))

/-- SESS_STOP (R202). -/
def execSessStop (s : State) : Host.Outcome State Fault Refusal :=
  .next (checkDin 0 s (inSession s fun _ => respond (endSession s) .ok 0 []))

/-- STATUS (R203). -/
def execStatus (s : State) : Host.Outcome State Fault Refusal :=
  .next (checkDin 0 s (respond s .ok (statusWord s.sstate s.fcause) []))

/-- CNT_RD (R204). -/
def execCntRd (s : State) : Host.Outcome State Fault Refusal :=
  .next (checkDin 0 s (respond s .ok (s.ctr.zeroExtend 32) []))

end Sys2Proof.Machine
end

