-- ==== Sys2Proof/Machine/RingBufferCmds.lean ====
section
/-! DEFINITION. RB_WRITE, RB_READ, RB_LEN and RB_GLITCH (40_ringbuffer.md R100 to R111). -/

namespace Sys2Proof.Machine

/-- RB_WRITE i, n once the checks have passed (R101, R104). -/
def rbWrite (i : RbSel) (n : Nat) (s : State) (b : Buffers) : State :=
  if n = 0 then respond s .ok 0 []
  else respond (setBuffers s (b.set i ((b.get i).write s.din))) .ok 0 []

/-- RB_READ i, n once the checks have passed (R105 to R109). RVAL is the count of real bytes. -/
def rbRead (i : RbSel) (n : Nat) (s : State) (b : Buffers) : State :=
  let rb := b.get i
  let k := min rb.len n
  if n = 0 then respond s .ok 0 []
  else if rb.len < n then
    respond (emitEvent (setBuffers s (b.set i (rb.take k).countUnderrun)) (.underrun i))
      .underrun (BitVec.ofNat 32 k) (rb.readOut n)
  else
    respond (setBuffers s (b.set i (rb.take k))) .ok (BitVec.ofNat 32 k) (rb.readOut n)

/-- RB_WRITE (R101). -/
def execRbWrite (i : RbSel) (n : Nat) (s : State) : Host.Outcome State Fault Refusal :=
  .next (checkDin n s (inActive s (rbWrite i n s)))

/-- RB_READ (R105). -/
def execRbRead (i : RbSel) (n : Nat) (s : State) : Host.Outcome State Fault Refusal :=
  .next (checkDin 0 s (inActive s (rbRead i n s)))

/-- RB_LEN (R110). -/
def execRbLen (i : RbSel) (s : State) : Host.Outcome State Fault Refusal :=
  .next (checkDin 0 s (inSession s fun b => respond s .ok (BitVec.ofNat 32 (b.get i).len) []))

/-- RB_GLITCH (R111). -/
def execRbGlitch (i : RbSel) (s : State) : Host.Outcome State Fault Refusal :=
  .next (checkDin 0 s (inSession s fun b => respond s .ok (b.get i).glitch []))

end Sys2Proof.Machine
end

