-- ==== Sys2Proof/Machine/Dispatch.lean ====
section
/-! DEFINITION. One arm per command (30_encoding.md R74). -/

namespace Sys2Proof.Machine

/-- The meaning of a command on a state whose `din` holds the command's data. -/
def exec (i : Instr) (s : State) : Host.Outcome State Fault Refusal :=
  match i with
  | .sessStart => Sys2Proof.Machine.execSessStart s
  | .sessStop => Sys2Proof.Machine.execSessStop s
  | .rbWrite r len => Sys2Proof.Machine.execRbWrite r len s
  | .rbRead r len => Sys2Proof.Machine.execRbRead r len s
  | .rbLen r => Sys2Proof.Machine.execRbLen r s
  | .rbGlitch r => Sys2Proof.Machine.execRbGlitch r s
  | .batchSel => Sys2Proof.Machine.execBatchSel s
  | .emit2 => Sys2Proof.Machine.execEmit2 s
  | .emit4 => Sys2Proof.Machine.execEmit4 s
  | .crc32 len => Sys2Proof.Machine.execCrc32 len s
  | .status => Sys2Proof.Machine.execStatus s
  | .cntRd => Sys2Proof.Machine.execCntRd s

end Sys2Proof.Machine
end

