-- ==== Sys2Proof/Machine/Turns.lean ====
section
/-! DEFINITION. What the agents do: issuing a command to the block (30_encoding.md R70, R75 to R77),
the HOST's per-block program and session control (41_batch.md R138 to R145, 60_exceptions.md R224,
70_reset_and_hazards.md R263, R266), WAIT_FILL (R82) and CAPTURE (R236). -/

namespace Sys2Proof.Machine

/-- Goes on with the next state, if there is one. -/
def andThen (o : Host.Outcome State Fault Refusal) (k : State → Host.Outcome State Fault Refusal) :
    Host.Outcome State Fault Refusal :=
  match o with
  | .next s => k s
  | .fault f => .fault f
  | .refused r => .refused r

/-- An agent issues one transaction and the block answers it (R70): a legal word runs its command,
an illegal one completes with ILLEGAL and no effect (R76). -/
def issue (a : Agent) (tx : Transaction) (s : State) : Host.Outcome State Fault Refusal :=
  match decode tx.word with
  | .ok i => exec i { s with issuer := a, din := tx.din }
  | .error _ => .next (respondIllegal { s with issuer := a, din := tx.din })

/-- RSTAT of the last response. -/
def lastRstat (s : State) : Option RStat := s.resp.map (·.rstat)

/-- RVAL of the last response, as a number. -/
def lastRval (s : State) : Nat :=
  match s.resp with
  | some r => r.rval.toNat
  | none => 0

/-- `dout` of the last response. -/
def lastDout (s : State) : List Byte :=
  match s.resp with
  | some r => r.dout
  | none => []

/-- Appends to the HOST's log. -/
def note (s : State) (ns : List HostNote) : State := { s with hostLog := s.hostLog ++ ns }

/-- The HOST's place in its program. -/
def setHost (s : State) (h : HostPhase) : State := { s with host := h }

/-- Step 1 of the program (R139): resampling when the rates differ, with an anomaly when fewer frames
were consumed than offered (R144), then conversion to PCM bytes. The spec does not say whether
`sample_count` (R236) counts frames or single samples, nor what is offered: the model takes
`sample_count` itself as the input frames offered. DESIGN CHOICE, log 21. -/
def capturePcm (col : Collaborators) (c : Config) (blk : CaptureBlock) : List Byte × List HostNote :=
  if c.nativeRate = c.targetRate then (col.convert blk.samples, [])
  else
    let r := col.resample blk.samples c.targetRate c.nativeRate
    (col.convert r.1, if (r.2 : Int) < blk.count then [.resamplerShortfall] else [])

/-- The HOST is inside a callback, which it runs to its end before anything else (R138). -/
def HostPhase.inCallback : HostPhase → Bool
  | .idle | .owesStop => false
  | .test | .read | .append _ | .batch | .stop => true

/-- The HOST has callbacks to run: one in progress, or blocks that wait for theirs. -/
def hostBusy (s : State) : Bool := s.host.inCallback || !s.captured.isEmpty

/-- The start of the callback of a block: steps 1 and 2 (R138 to R140). The loop of step 3 comes next. -/
def hostWritePcm (col : Collaborators) (blk : CaptureBlock) (s : State) :
    Host.Outcome State Fault Refusal :=
  let p := capturePcm col s.cfg blk
  andThen (issue .host (AsmLine.rbWrite .rb0 p.1).assemble (note s p.2)) fun t =>
    .next (setHost t .test)

/-- The start of a callback, for the oldest waiting block (R138). -/
def hostBegin (col : Collaborators) (s : State) : Host.Outcome State Fault Refusal :=
  match s.captured with
  | [] => .next s
  | blk :: rest => hostWritePcm col blk { s with captured := rest }

/-- The loop test of step 3: `while (RB_LEN 0).rval >= C` (R138, R142). -/
def hostTest (s : State) : Host.Outcome State Fault Refusal :=
  andThen (issue .host (AsmLine.rbLen .rb0).assemble s)
    fun t => .next (setHost t (if s.cfg.codeSize ≤ lastRval t then .read else .batch))

/-- The encoder call on the bytes just read: a count of 0 or less is logged and dropped (R143), F
bytes go on to RB[1], and any other count is refused (R141). -/
def hostEncode (col : Collaborators) (s : State) : Host.Outcome State Fault Refusal :=
  let r := col.encode (lastDout s)
  if r.1 ≤ 0 then .next (setHost (note s [.encodeFailure]) .test)
  else if r.1 = s.cfg.frameSize ∧ r.2.length = s.cfg.frameSize then .next (setHost s (.append r.2))
  else .refused .encoderContract

/-- Pops one input block and encodes it (R141, R142). -/
def hostRead (col : Collaborators) (s : State) : Host.Outcome State Fault Refusal :=
  andThen (issue .host (AsmLine.rbRead .rb0 s.cfg.codeSize).assemble s) (hostEncode col)

/-- Appends one output block to RB[1] (R142). -/
def hostAppend (out : List Byte) (s : State) : Host.Outcome State Fault Refusal :=
  andThen (issue .host (AsmLine.rbWrite .rb1 out).assemble s) fun t => .next (setHost t .test)

/-- CAPTURE is halted: no further callback begins (R224, R266). -/
def haltCapture (s : State) : State := { s with capture := .halted, captured := [] }

/-- After TX_FAIL: the HOST halts CAPTURE at once (R224). In its per-block program SESS_STOP comes next.
For another command it is owed, and a HOST turn for it goes behind the entries already in order,
log 22. -/
def stopAfterFailure (s : State) : State :=
  setHost (haltCapture { s with turns := s.turns ++ [.host] })
    (if s.host.inCallback then .stop else .owesStop)

/-- After the response to SESS_START (R263): OK starts CAPTURE, and INIT_FAIL leaves it
unstarted. -/
def afterStart (t : State) : State :=
  if lastRstat t = some .ok then { t with capture := .started }
  else if lastRstat t = some .initFail then { t with capture := .unstarted }
  else t

/-- The HOST has still to stop the session after TX_FAIL (R224). -/
def HostPhase.owes : HostPhase → Bool
  | .stop | .owesStop => true
  | .idle | .test | .read | .append _ | .batch => false

/-- After the response to SESS_STOP: the session is over, unless the word was ILLEGAL, which stops
nothing (R77). Then a stop after TX_FAIL is reported to the session's owner (R224). -/
def afterStop (t : State) : State :=
  if lastRstat t = some .illegal then t
  else if t.host.owes then setHost (note t [.sessionFailed]) .idle
  else t

/-- What the HOST does on the response to one of its commands: it goes to stop the session after
TX_FAIL (R224), and after SESS_START and SESS_STOP as said there. -/
def hostReact (tx : Transaction) (t : State) : State :=
  if lastRstat t = some .txFail then stopAfterFailure t
  else if tx.word = encode .sessStart then afterStart t
  else if tx.word = encode .sessStop then afterStop t
  else t

/-- What the HOST does before one of its commands: it halts a CAPTURE that was started before SESS_STOP
(R266). -/
def hostPrepare (tx : Transaction) (s : State) : State :=
  if tx.word = encode .sessStop ∧ s.capture = .started then haltCapture s else s

/-- The HOST issues one command and reacts to its response. The session order of R263 and R266 belongs
to the command, however it comes into the order of the agents: DESIGN CHOICE, log 13. -/
def hostCommand (tx : Transaction) (s : State) : Host.Outcome State Fault Refusal :=
  andThen (issue .host tx (hostPrepare tx s)) fun t => .next (hostReact tx t)

/-- Steps 4 and 5, then the end of the callback, or the stop after TX_FAIL (R138, R145, R224). -/
def hostBatch (s : State) : Host.Outcome State Fault Refusal :=
  andThen (hostCommand AsmLine.batchSel.assemble s) fun t =>
    .next (if lastRstat t = some .txFail then t else setHost t .idle)

/-- After TX_FAIL: SESS_STOP, and the report to the session's owner (R224). -/
def hostFail (s : State) : Host.Outcome State Fault Refusal :=
  hostCommand AsmLine.sessStop.assemble s

/-- The HOST's next command in its per-block program (R138). -/
def hostTurn (col : Collaborators) (s : State) : Host.Outcome State Fault Refusal :=
  match s.host with
  | .idle => hostBegin col s
  | .test => hostTest s
  | .read => hostRead col s
  | .append out => hostAppend out s
  | .batch => hostBatch s
  | .stop => hostFail s
  | .owesStop => hostFail s

/-- Session start: SESS_START, and CAPTURE started only after it returned OK (R263). -/
def hostStart (s : State) : Host.Outcome State Fault Refusal :=
  hostCommand AsmLine.sessStart.assemble s

/-- Session stop: CAPTURE is halted first (R266). -/
def hostStop (s : State) : Host.Outcome State Fault Refusal :=
  hostCommand AsmLine.sessStop.assemble s

/-- CAPTURE delivers a block, in any number and with any content (R236). The HOST begins its callback at
once (R138), in IDLE too, where its RB_WRITE meets BAD_STATE and the block is lost (R263). While the
HOST is not free the block waits for the callbacks before its own. A halted CAPTURE delivers nothing
(R266), log 13. -/
def deliver (col : Collaborators) (blk : CaptureBlock) (s : State) : Host.Outcome State Fault Refusal :=
  if s.capture = .halted then .next s
  else if s.host = .idle ∧ s.captured = [] then hostWritePcm col blk s
  else .next { s with captured := s.captured ++ [blk] }

/-- Who moves in an entry of the order: an agent that issues commands, or CAPTURE (`none`) (R6). -/
def Turn.mover : Turn → Option Agent
  | .command a _ => some a
  | .waitFill a _ _ => some a
  | .capture _ => none
  | .host | .start | .stop | .captureStart | .captureHalt => some .host

/-- The entries of the order that an agent itself moves in. -/
def Turn.movedBy (a : Agent) (t : Turn) : Bool := t.mover == some a

/-- Splits the order after its shortest part in which everyone moves that has an entry in it, those in
`seen` apart. -/
def roundOf (seen : List (Option Agent)) : List Turn → List Turn × List Turn
  | [] => ([], [])
  | x :: xs =>
    if (x :: xs).all fun y => seen.contains y.mover then ([], x :: xs)
    else
      let r := roundOf (x.mover :: seen) xs
      (x :: r.1, r.2)

/-- The order after an agent has yielded in an entry that it goes back to: everyone else with a pending
entry moves, then the agent moves again, so that no loop keeps another agent waiting (R67, D35). Its own later entries stay
behind it (R60, R82), and with no one else pending it moves again at once (R271), log 15. -/
def yieldPoll (a : Agent) (poll : Turn) (rest : List Turn) : List Turn :=
  let r := roundOf [some a] rest
  (r.1.filter fun x => !x.movedBy a) ++ poll :: (r.1.filter (Turn.movedBy a) ++ r.2)

/-- One poll of `WAIT_FILL i, k`: below k the agent yields and goes back to its loop (R67, R82). -/
def waitFill (a : Agent) (i : RbSel) (k : Nat) (s : State) : Host.Outcome State Fault Refusal :=
  andThen (issue a (AsmLine.rbLen i).assemble s) fun t =>
    .next (if lastRval t < k then { t with turns := yieldPoll a (.waitFill a i k) t.turns } else t)

/-- An agent issues a command. The HOST keeps the session order and reacts to the response (R224, R263,
R266), an OBSERVER does not. -/
def takeCommand (a : Agent) (tx : Transaction) (s : State) : Host.Outcome State Fault Refusal :=
  match a with
  | .host => hostCommand tx s
  | .observer n => issue (.observer n) tx s

/-- What one entry of the order does. -/
def takeEntry (col : Collaborators) (t : Turn) (s : State) : Host.Outcome State Fault Refusal :=
  match t with
  | .command a tx => takeCommand a tx s
  | .waitFill a i k => waitFill a i k s
  | .capture blk => deliver col blk s
  | .host => hostTurn col s
  | .start => hostStart s
  | .stop => hostStop s
  | .captureStart => .next { s with capture := .started }
  | .captureHalt => .next (haltCapture s)

/-- An entry of the HOST that has to wait for the HOST's own program: any but a turn of that program
itself while callbacks are to be run, which come first on the HOST's one thread (R138), and a WAIT_FILL
loop while SESS_STOP is owed, which the loop would keep from coming (R224, log 22). -/
def Turn.waits (t : Turn) (s : State) : Bool :=
  match t with
  | .host | .capture _ => false
  | .waitFill a _ _ => a == .host && (hostBusy s || s.host == .owesStop)
  | .command a _ => a == .host && hostBusy s
  | .start | .stop | .captureStart | .captureHalt => hostBusy s

/-- One entry of the order is taken. In place of a HOST entry that has to wait, the HOST issues the next
command of its own program, and goes back to the entry as an agent that yields does. -/
def takeTurn (col : Collaborators) (t : Turn) (s : State) : Host.Outcome State Fault Refusal :=
  if t.waits s then
    andThen (hostTurn col s) fun u => .next { u with turns := yieldPoll .host t u.turns }
  else takeEntry col t s

/-- One step with given collaborators: the first entry of the order is taken; with none the block
idles and keeps all state (R239); a configuration that breaks R8 or R88 has no block. -/
def stepWith (col : Collaborators) (s : State) : Host.Outcome State Fault Refusal :=
  if s.cfg.legal then
    match s.turns with
    | [] => .next s
    | t :: rest => takeTurn col t { s with turns := rest }
  else .refused .illegalConfig

/-- The transaction of a word with the data length its command needs, every byte 0 (log 4). -/
def bareTransaction (c : Config) (w : Word) : Transaction :=
  match decode w with
  | .ok i => ⟨w, zeros (i.dinLen c)⟩
  | .error _ => ⟨w, []⟩

/-- The HOST issues this transaction next. A HOST with callbacks to run is set free of them, since they
would come first (R138, log 4). -/
def placeTransaction (s : State) (tx : Transaction) : State :=
  if hostBusy s then { s with turns := .command .host tx :: s.turns, host := .idle, captured := [] }
  else { s with turns := .command .host tx :: s.turns }

end Sys2Proof.Machine
end

