-- ==== Sys2Proof/Machine/Step.lean ====
section
/-! DEFINITION. The step of the machine, and how one command word is put where the next step takes
it from. -/

namespace Sys2Proof.Machine

/-- One step: the next entry of the order of R60 is taken, with the collaborators the configuration
names (R236). -/
def step (s : State) : Host.Outcome State Fault Refusal :=
  Sys2Proof.Machine.stepWith (Sys2Proof.Config.collaborators s.cfg) s

/-- The block runs no stored program (R34): its next command is the first entry of `turns`, so the
word is put there, issued by the HOST with data of the length it needs (log 4). -/
def State.withFetchWord (s : State) (nbits w : Nat) : State :=
  Sys2Proof.Machine.placeTransaction s
    (Sys2Proof.Machine.bareTransaction s.cfg (Sys2Proof.tableWord nbits w))

end Sys2Proof.Machine
end

