-- ==== Sys2Proof/Machine/System.lean ====
section
/-! DEFINITION. Several block instances, one for each streamed unit (00_scope.md R7, 20_memory.md R62,
60_exceptions.md R237). -/

namespace Sys2Proof.Machine

/-- A system of block instances. Each has its own configuration, collaborators, draws, buffers,
counter and session (R237). -/
abbrev System := List State

/-- No two instances bear the same number, so none shares its draws with another (R7, R62). DEDUCED,
log 16. -/
abbrev System.Wf (sys : System) : Prop := (sys.map fun s => s.cfg.unit).Nodup

/-- A system after power-on reset, one instance for each configuration, numbered in order. -/
def System.reset (cs : List Config) : System :=
  cs.mapIdx fun k c => State.resetWith { c with unit := k }

/-- Instance `k` of a system takes a step. Instances share no state, so only its entry can change. A
number with no instance moves nothing. -/
def System.stepAt (k : Nat) (sys : System) : Host.Outcome System Fault Refusal :=
  match sys[k]? with
  | none => .next sys
  | some s =>
    match step s with
    | .next t => .next (sys.set k t)
    | .fault f => .fault f
    | .refused r => .refused r

end Sys2Proof.Machine
end

