-- ==== Sys2Proof/Safety.lean ====
section
/-! DEFINITION. The terms claims use: the invariants of the spec (10_state.md R23, R24, R29), the
table of accepted commands (44_control.md R205), runs of commands, what is observable (R37, D45),
the wire layouts (30_encoding.md R83, R84), and the agents' discipline (70_reset_and_hazards.md
R264). -/

namespace Sys2Proof.Machine

/-- A ring buffer of the given capacity that meets R23 and R24, with a backing array in canonical
form and no cell beyond the capacity (R50). -/
structure RingBuffer.Wf (cap : Nat) (rb : RingBuffer) : Prop where
  cap_eq   : rb.cap = cap
  cap_pos  : 0 < cap
  start_lt : rb.start < cap
  end_lt   : rb.end_ < cap
  flag     : rb.hasData = false → rb.start = rb.end_
  mem_wf   : Memory.wf rb.mem
  mem_lt   : ∀ x ∈ rb.mem, x.1 < cap

/-- Both buffers of a session have the configured capacities (R22). -/
structure Buffers.Wf (c : Config) (b : Buffers) : Prop where
  rb0 : b.rb0.Wf c.cap0
  rb1 : b.rb1.Wf c.cap1

/-- The configured capacity of an instance (R22). -/
def Config.capOf (c : Config) : RbSel → Nat
  | .rb0 => c.cap0
  | .rb1 => c.cap1

/-- The buffers of a session, where they exist, are well formed. -/
def Session.Wf (c : Config) : Session → Prop
  | .idle => True
  | .active b => b.Wf c
  | .faulted b => b.Wf c

/-- The fault causes a session state goes with: none in ACTIVE, TX_FAIL in FAULTED, none or the last
fatal event in IDLE (R29). -/
def causeLegal : SState → BitVec 4 → Prop
  | .idle, c => c = 0 ∨ c = RStat.code .txFail ∨ c = RStat.code .initFail
  | .active, c => c = 0
  | .faulted, c => c = RStat.code .txFail

/-- The invariant of the machine: a legal configuration, well-formed buffers, and a legal cause. -/
structure State.Inv (s : State) : Prop where
  legal   : s.cfg.legal = true
  buffers : s.session.Wf s.cfg
  cause   : causeLegal s.sstate s.fcause

/-- The table of R205: which command each session state accepts. -/
def accepts : Instr → SState → Bool
  | .sessStart, .idle => true
  | .sessStart, .active => false
  | .sessStart, .faulted => false
  | .sessStop, .idle => false
  | .sessStop, .active => true
  | .sessStop, .faulted => true
  | .rbWrite _ _, st => st == .active
  | .rbRead _ _, st => st == .active
  | .rbLen _, st => st != .idle
  | .rbGlitch _, st => st != .idle
  | .batchSel, st => st == .active
  | .emit2, st => st == .active
  | .emit4, st => st == .active
  | .crc32 _, _ => true
  | .status, _ => true
  | .cntRd, _ => true

/-- The commands with no side effect (R57), the ones an OBSERVER issues (R6, R264). -/
def isQuery : Instr → Bool
  | .rbLen _ => true
  | .rbGlitch _ => true
  | .status => true
  | .cntRd => true
  | .crc32 _ => true
  | .sessStart | .sessStop | .rbWrite _ _ | .rbRead _ _ | .batchSel | .emit2 | .emit4 => false

/-- An entry of the order keeps the discipline of R264: an observer issues only queries. The block
does not check this (R234). -/
def Turn.disciplined : Turn → Bool
  | .command (.observer _) tx =>
    match decode tx.word with
    | .ok i => isQuery i
    | .error _ => true
  | .command .host _ | .waitFill _ _ _ | .capture _ | .host | .start | .stop | .captureStart | .captureHalt =>
    true

/-- Runs commands one after another, each with its data, as one agent issues them (R60). -/
def runCommands : List (Instr × List Byte) → State → Host.Outcome State Fault Refusal
  | [], s => .next s
  | (i, d) :: rest, s => andThen (exec i { s with din := d }) (runCommands rest)

/-- The HOST takes `k` turns with nothing else in between. -/
def runHost (col : Collaborators) : Nat → State → Host.Outcome State Fault Refusal
  | 0, s => .next s
  | k + 1, s => andThen (hostTurn col s) (runHost col k)

/-- The encoder keeps its contract: every count is at most 0 or F, and then with F bytes (R141). -/
def KeepsContract (col : Collaborators) (c : Config) : Prop :=
  ∀ blk, (col.encode blk).1 ≤ 0 ∨
    (col.encode blk).1 = c.frameSize ∧ (col.encode blk).2.length = c.frameSize

/-- The outcome of the next draw: the free value of R161 and R201. -/
def nextAnswer (s : State) : Answer := (draw s).1

/-- The frames of a sequence of batches, in total (R166). -/
def totalFrames (ns : List BatchSize) : Nat := (ns.map BatchSize.frames).sum

/-- The wire frames in a trace, oldest first, each with TRANSPORT's answer (R39). -/
def sentFrames (es : List Event) : List (List Byte × Answer) :=
  es.filterMap fun
    | .frame fr r => some (fr, r)
    | .underrun _ | .notify _ | .fatal _ => none

/-- The frame count of a wire frame, which a receiver tells by byte 0 (R87, R151). -/
def frameCount (c : Config) (fr : List Byte) : Nat := if fr.head? = some c.rc4 then 4 else 2

/-- The EMIT command of a batch size. -/
def emitInstr : BatchSize → Instr
  | .two => .emit2
  | .four => .emit4

/-- The `n` most recent bytes of a sequence. -/
def lastBytes (n : Nat) (s : List Byte) : List Byte := s.drop (s.length - n)

/-- The state with the command's data used up and this response given, and nothing else changed. -/
def answered (s : State) (r : Response) : State := { s with din := [], resp := some r }

/-- The 2-frame wire frame as R83 lays it out, field after field. -/
def layout2 (c : Config) (ctr : BitVec 16) (payload : List Byte) : List Byte :=
  let body := [c.rc2, c.m1, c.m2, ctr.extractLsb' 0 8, ctr.extractLsb' 8 8, c.mode] ++ payload ++
    List.replicate (c.size2 - (10 + 2 * c.frameSize)) 0
  body ++ le32 (crc32 c.crc ([c.lead] ++ body))

/-- The 4-frame wire frame as R84 lays it out, field after field. -/
def layout4 (c : Config) (ctr : BitVec 16) (payload : List Byte) : List Byte :=
  let body := [c.rc4, c.m1, c.m2, ctr.extractLsb' 0 8, ctr.extractLsb' 8 8, c.mode] ++ payload ++
    List.replicate (c.size4 - (10 + 4 * c.frameSize)) 0
  body ++ le32 (crc32 c.crc ([c.lead] ++ body)) ++ [c.devid]

/-- The layout of a batch size (R83, R84). -/
def layout (c : Config) : BatchSize → BitVec 16 → List Byte → List Byte
  | .two => layout2 c
  | .four => layout4 c

/-- The counter a wire frame carries in bytes 3 and 4, little-endian (R52, R153). -/
def carriedCounter (fr : List Byte) : Nat :=
  match fr with
  | _ :: _ :: _ :: lo :: hi :: _ => lo.toNat + 256 * hi.toNat
  | _ => 0

/-- What a ring buffer shows to the outside: its content and its underrun count (D45). -/
def RingBuffer.shown (rb : RingBuffer) : List Byte × BitVec 32 := (rb.content, rb.glitch)

/-- What a session shows to the outside: no cursor and no stale byte (R37, D45). -/
def Session.shown : Session → SState × List (List Byte × BitVec 32)
  | .idle => (.idle, [])
  | .active b => (.active, [b.rb0.shown, b.rb1.shown])
  | .faulted b => (.faulted, [b.rb0.shown, b.rb1.shown])

/-- Two states that differ at most in cursor positions and stale bytes. -/
def State.SameShown (s t : State) : Prop :=
  s.session.shown = t.session.shown ∧ { s with session := t.session } = t

/-- Two states with the same block (R20): they differ at most in the command port and in the agents
around it. -/
structure State.SameBlock (s t : State) : Prop where
  cfg     : t.cfg = s.cfg
  session : t.session = s.session
  fcause  : t.fcause = s.fcause
  ctr     : t.ctr = s.ctr
  trace   : t.trace = s.trace

/-- The serial procedure of R182 as it stands there, for the default parameters. -/
def isoBit (c : Word) : Word :=
  if c.getLsbD 0 then (c >>> 1) ^^^ 0xEDB88320 else c >>> 1

/-- One byte of R182: the byte, zero-extended, enters, then eight bit steps. -/
def isoByte (c : Word) (b : Byte) : Word :=
  isoBit <| isoBit <| isoBit <| isoBit <| isoBit <| isoBit <| isoBit <| isoBit (c ^^^ b.zeroExtend 32)

/-- `crc32(s)` of R182. -/
def isoCrc32 (s : List Byte) : Word := s.foldl isoByte 0xFFFFFFFF ^^^ 0xFFFFFFFF

end Sys2Proof.Machine
end

