-- ==== Sys2Proof/Certificates/Slice0/Obligations.lean ====
section
/-! DEFINITION. The statements for the provers. Each docstring names the rule of the spec it
formalises. Wherever the outcome of a draw matters, the statement holds for both outcomes. -/

open Sys2Proof Sys2Proof.Machine

/-! ## Encoding (30_encoding.md) -/

/-- R71 to R74: decoding the word of a well-formed command gives that command back. -/
def Obligations.DecodeOfEncode : Prop :=
  ∀ i : Instr, i.wf = true → decode (encode i) = .ok i

/-- R71 to R74: a word has one meaning, and that command is well formed and encodes to it. -/
def Obligations.EncodeOfDecode : Prop :=
  ∀ (w : Word) (i : Instr), decode w = .ok i → i.wf = true ∧ encode i = w

/-- R75: a word decodes to the command of a row exactly when it selects that row, and a word that
selects no row does not decode. -/
def Obligations.DecodesExactlyTheMapRows : Prop :=
  ∀ w : Word,
    (∀ r ∈ opcodeMap, r.Selects w ↔ ∃ i, decode w = .ok i ∧ i.mnemonic = r.mnemonic) ∧
    ((∀ r ∈ opcodeMap, ¬ r.Selects w) ↔ ∃ e, decode w = .error e)

/-- R74: no two rows match the same word. -/
def Obligations.NoTwoRowsMatchOneWord : Prop :=
  ∀ (w : Word) (r q : OpcodeRow), r ∈ opcodeMap → q ∈ opcodeMap → r.Selects w → q.Selects w → r = q

/-- Six words of programs P1 to P5 and the words of FE3 and CV9 of 95_test_vectors.md decode to the
commands listed there. -/
def Obligations.SampleWordsDecode : Prop :=
  decode 0x10000000 = .ok .sessStart ∧ decode 0x30000014 = .ok (.rbWrite .rb0 20) ∧
  decode 0x4000001E = .ok (.rbRead .rb0 30) ∧ decode 0x51000000 = .ok (.rbLen .rb1) ∧
  decode 0x70000000 = .ok .batchSel ∧ decode 0x80000004 = .ok .emit4 ∧
  decode 0x9000002B = .ok (.crc32 43) ∧ decode 0xB0000000 = .ok .cntRd

/-! ## The step and the checks of a command (R76, R77, R205, R229) -/

/-- R60, R70: when the next entry of the order is a transaction whose word decodes, the step is the
command's meaning on the state with that entry taken off, its issuer noted and its data on `din`, and,
for a command of the HOST, CAPTURE halted before SESS_STOP (R266) and its reaction to the response
after (R224, R263). While the HOST has callbacks to run, an entry of its own waits: the step is the
next command of the per-block program, and the entry comes again (R138). The list of turns and what the
HOST adds to its commands are the model's DESIGN CHOICE (log 3, log 11, log 13, log 15, log 22). -/
def Obligations.StepRunsDecodedCommand : Prop :=
  (∀ (s : State) (a : Agent) (tx : Transaction) (rest : List Turn) (i : Instr),
    s.cfg.legal = true → s.turns = .command a tx :: rest → decode tx.word = .ok i →
    (a = .host → hostBusy s = false → step s =
      andThen (exec i { hostPrepare tx { s with turns := rest } with issuer := a, din := tx.din }) fun t =>
        .next (hostReact tx t)) ∧
    (a ≠ .host → step s = exec i { s with turns := rest, issuer := a, din := tx.din })) ∧
  (∀ (s : State) (x : Turn) (rest : List Turn),
    s.cfg.legal = true → s.turns = x :: rest → x.mover = some .host → x ≠ .host → hostBusy s = true →
    step s = andThen (hostTurn (Config.collaborators s.cfg) { s with turns := rest }) fun t =>
      .next { t with turns := yieldPoll .host x t.turns })

/-- R76: an illegal word completes with ILLEGAL and RVAL 0, changes no state and raises no event. A HOST
with callbacks to run has not issued it yet (R138, log 11). -/
def Obligations.IllegalWordHasNoEffect : Prop :=
  ∀ (s : State) (a : Agent) (tx : Transaction) (rest : List Turn) (e : DecodeError),
    s.cfg.legal = true → s.turns = .command a tx :: rest → decode tx.word = .error e →
    ¬ (a = .host ∧ hostBusy s = true) →
    step s = .next { s with turns := rest, issuer := a, din := [], resp := some ⟨.illegal, 0, []⟩ }

/-- R77: a command with another data length than its row's completes with ILLEGAL and changes no
state. -/
def Obligations.WrongDataLengthIsIllegal : Prop :=
  ∀ (i : Instr) (s : State), s.din.length ≠ i.dinLen s.cfg →
    exec i s = .next (answered s ⟨.illegal, 0, []⟩)

/-- R205: a command with the right data length is accepted or rejected by the session state as the
table says; a rejected one completes with BAD_STATE and has no effect. -/
def Obligations.SessionStateAcceptsAsTabled : Prop :=
  ∀ (i : Instr) (s : State), s.din.length = i.dinLen s.cfg →
    (accepts i s.sstate = false → exec i s = .next (answered s ⟨.badState, 0, []⟩)) ∧
    (accepts i s.sstate = true →
      ∃ t r, exec i s = .next t ∧ t.resp = some r ∧ r.rstat ≠ .badState ∧ r.rstat ≠ .illegal)

/-- R79: which RSTAT codes a command can answer with, beside OK, ILLEGAL and BAD_STATE. -/
def Obligations.OnlyTheListedRstats : Prop :=
  ∀ (i : Instr) (s : State), ∃ t r, exec i s = .next t ∧ t.resp = some r ∧
    (r.rstat = .underrun → ∃ sel n, i = .rbRead sel n) ∧
    (r.rstat = .noBatch → i = .batchSel) ∧
    (r.rstat = .txFail → i = .batchSel ∨ i = .emit2 ∨ i = .emit4) ∧
    (r.rstat = .initFail → i = .sessStart)

/-- R78: every command answers, `dout` is empty but for a read that completes with OK or UNDERRUN,
whose `dout` has exactly LEN bytes. -/
def Obligations.EveryCommandResponds : Prop :=
  ∀ (i : Instr) (s : State), ∃ t r, exec i s = .next t ∧ t.resp = some r ∧
    (r.dout ≠ [] → ∃ sel n, i = .rbRead sel n ∧ (r.rstat = .ok ∨ r.rstat = .underrun)) ∧
    (∀ sel n, i = .rbRead sel n → r.rstat = .ok ∨ r.rstat = .underrun → r.dout.length = n)

/-- R239: with no command pending the block idles and keeps all state. That an empty list of turns
stands for this is the model's DESIGN CHOICE (log 3). -/
def Obligations.IdlesBetweenCommands : Prop :=
  ∀ s : State, s.cfg.legal = true → s.turns = [] → step s = .next s

/-- R88: a configuration that breaks a size constraint or RC2 ≠ RC4 is refused. That the step refuses
is the model's DESIGN CHOICE (log 19). -/
def Obligations.BrokenFrameConfigIsRefused : Prop :=
  ∀ s : State,
    s.cfg.size2 < 10 + 2 * s.cfg.frameSize ∨ s.cfg.size4 < 10 + 4 * s.cfg.frameSize ∨
      s.cfg.rc2 = s.cfg.rc4 →
    step s = .refused .illegalConfig

/-- R32, R273: no step changes the configuration, which the model keeps in its state (DESIGN CHOICE,
log 1). -/
def Obligations.StepKeepsConfiguration : Prop :=
  ∀ s t : State, step s = .next t → t.cfg = s.cfg

/-- R39, R228: events are appended to the trace and never taken away. -/
def Obligations.StepOnlyAppendsToTrace : Prop :=
  ∀ s t : State, step s = .next t → ∃ es, t.trace = s.trace ++ es

/-- The frame of every command for the fields of the environment it leaves alone: the configuration
(R32), and the fields that are the model's DESIGN CHOICE: the order of the agents (log 3), the issuer
(log 8), the HOST's place and log (log 11), what CAPTURE is doing and its queue (log 13). -/
def Obligations.CommandsKeepTheEnvironment : Prop :=
  ∀ (i : Instr) (s t : State), exec i s = .next t →
    t.cfg = s.cfg ∧ t.issuer = s.issuer ∧ t.turns = s.turns ∧ t.host = s.host ∧
    t.capture = s.capture ∧ t.captured = s.captured ∧ t.hostLog = s.hostLog

/-- R57: the queries change nothing but the response, and asked again with the same data they
answer the same. -/
def Obligations.QueriesHaveNoEffect : Prop :=
  ∀ (i : Instr) (s : State), isQuery i = true →
    ∃ r, exec i s = .next (answered s r) ∧
      exec i { answered s r with din := s.din } = .next (answered s r)

/-! ## Ring buffers (40_ringbuffer.md) -/

/-- R102, which the spec derives from R101, and R103: what a write does to the content, the fill level and the cursors, with and without
overflow. -/
def Obligations.WriteKeepsTheMostRecentBytes : Prop :=
  ∀ (s : State) (b : Buffers) (i : RbSel), s.session = .active b → b.Wf s.cfg →
    ∃ t b', exec (.rbWrite i s.din.length) s = .next t ∧ t.resp = some ⟨.ok, 0, []⟩ ∧
      t.session = .active b' ∧
      (s.din ≠ [] → (b'.get i).hasData = true) ∧
      ((b.get i).cap < (b.get i).len + s.din.length →
        (b'.get i).content = lastBytes (b.get i).cap ((b.get i).content ++ s.din) ∧
        (s.din.length ≤ (b.get i).cap → (b'.get i).content =
          (b.get i).content.drop ((b.get i).len + s.din.length - (b.get i).cap) ++ s.din) ∧
        ((b.get i).cap < s.din.length → (b'.get i).content = lastBytes (b.get i).cap s.din) ∧
        (b'.get i).len = (b.get i).cap ∧
        (b'.get i).start = ((b.get i).end_ + s.din.length) % (b.get i).cap ∧
        (b'.get i).end_ = ((b.get i).end_ + s.din.length) % (b.get i).cap) ∧
      ((b.get i).len + s.din.length ≤ (b.get i).cap →
        (b'.get i).content = (b.get i).content ++ s.din ∧ (b'.get i).start = (b.get i).start)

/-- The effect of RB_WRITE on the registers and its frame (R101): `end` moves on by n and `start` by
the overflow, the flag is set by a write of at least one byte, and the bytes stored are those at
`(end + k) mod cap`; every other byte of both arrays, the other buffer, the underrun counts, the
counter, the cause, the trace and the draws are unchanged. -/
def Obligations.WriteFrame : Prop :=
  ∀ (s : State) (b : Buffers) (i : RbSel), s.session = .active b → b.Wf s.cfg →
    ∃ t b', exec (.rbWrite i s.din.length) s = .next t ∧ t.session = .active b' ∧
      (∀ k (h : k < s.din.length), s.din.length ≤ k + (b.get i).cap →
        (b'.get i).mem.read (((b.get i).end_ + k) % (b.get i).cap) = s.din[k]) ∧
      (∀ j, (∀ k, k < s.din.length → ((b.get i).end_ + k) % (b.get i).cap ≠ j) →
        (b'.get i).mem.read j = (b.get i).mem.read j) ∧
      (b'.get i).end_ = ((b.get i).end_ + s.din.length) % (b.get i).cap ∧
      (b'.get i).start = ((b.get i).start +
        ((b.get i).len + s.din.length - (b.get i).cap)) % (b.get i).cap ∧
      (b'.get i).hasData = (if s.din = [] then (b.get i).hasData else true) ∧
      (b'.get i).cap = (b.get i).cap ∧ (b'.get i).glitch = (b.get i).glitch ∧
      (∀ j, j ≠ i → b'.get j = b.get j) ∧
      t.ctr = s.ctr ∧ t.fcause = s.fcause ∧ t.trace = s.trace ∧
      t.answers = s.answers ∧ t.draws = s.draws

/-- R105 to R108 as one: a read removes the bytes it returns, in order, answers how many were real,
and fills the rest with zeros. -/
def Obligations.ReadRemovesOldestBytes : Prop :=
  ∀ (s : State) (b : Buffers) (i : RbSel) (n : Nat), s.session = .active b → b.Wf s.cfg →
    s.cfg.legal = true → s.din = [] →
    ∃ t b' r, exec (.rbRead i n) s = .next t ∧ t.session = .active b' ∧ t.resp = some r ∧
      r.rstat = (if (b.get i).len < n then .underrun else .ok) ∧
      r.rval.toNat = min (b.get i).len n ∧
      r.dout = (b.get i).content.take n ++ List.replicate (n - (b.get i).len) 0 ∧
      (b'.get i).content = (b.get i).content.drop n

/-- R106: an underrunning read returns every held byte and then zeros, empties the buffer, raises
UNDERRUN once, and completes with UNDERRUN and the number of real bytes. -/
def Obligations.UnderrunZeroFills : Prop :=
  ∀ (s : State) (b : Buffers) (i : RbSel) (n : Nat), s.session = .active b → b.Wf s.cfg →
    s.cfg.legal = true → s.din = [] → (b.get i).len < n →
    ∃ t b', exec (.rbRead i n) s = .next t ∧ t.session = .active b' ∧
      t.resp = some ⟨.underrun, BitVec.ofNat 32 (b.get i).len,
        (b.get i).content ++ List.replicate (n - (b.get i).len) 0⟩ ∧
      (BitVec.ofNat 32 (b.get i).len).toNat = (b.get i).len ∧
      (b'.get i).content = [] ∧ t.trace = s.trace ++ [.underrun i]

/-- R107: an underrunning read adds exactly 1 to its buffer's count, modulo 2^32, SESS_START creates
the counts as 0, and nothing else changes a count. -/
def Obligations.GlitchCountsUnderruns : Prop :=
  (∀ (c : Instr) (s t : State) (b b' : Buffers) (i : RbSel), exec c s = .next t →
    s.session.buffers = some b → t.session.buffers = some b' →
    ((s.session = .active b ∧ s.din = [] ∧ ∃ n, c = .rbRead i n ∧ (b.get i).len < n) →
      (b'.get i).glitch = (b.get i).glitch + 1) ∧
    (¬ (s.session = .active b ∧ s.din = [] ∧ ∃ n, c = .rbRead i n ∧ (b.get i).len < n) →
      (b'.get i).glitch = (b.get i).glitch)) ∧
  (∀ (c : Instr) (s t : State) (b' : Buffers) (i : RbSel), exec c s = .next t →
    s.session = .idle → t.session.buffers = some b' → c = .sessStart ∧ (b'.get i).glitch = 0)

/-- R108, which the spec derives from R105: a read clears the flag exactly when it takes every held byte, and then the cursors meet. -/
def Obligations.DrainingReadClearsHasData : Prop :=
  ∀ (s : State) (b : Buffers) (i : RbSel) (n : Nat), s.session = .active b → b.Wf s.cfg →
    s.din = [] →
    ∃ t b', exec (.rbRead i n) s = .next t ∧ t.session = .active b' ∧
      ((b'.get i).hasData = false ↔ min (b.get i).len n = (b.get i).len) ∧
      (min (b.get i).len n = (b.get i).len → (b'.get i).start = (b'.get i).end_)

/-- R104, R109: a write and a read of no bytes change neither cursor nor flag, raise no underrun, on
an empty buffer too, and complete with OK and RVAL 0. -/
def Obligations.ZeroLengthTransfersAreNoOps : Prop :=
  ∀ (s : State) (b : Buffers) (i : RbSel), s.session = .active b → s.din = [] →
    exec (.rbWrite i 0) s = .next (answered s ⟨.ok, 0, []⟩) ∧
    exec (.rbRead i 0) s = .next (answered s ⟨.ok, 0, []⟩)

/-- The frame of RB_READ (R105): it stores no byte, of its buffer it moves only `start` and may change
only the flag and the underrun count, it leaves the other buffer, the counter, the cause and the draws
unchanged, and a shortfall alone adds its one event to the trace (R106). -/
def Obligations.ReadFrame : Prop :=
  ∀ (s : State) (b : Buffers) (i : RbSel) (n : Nat), s.session = .active b → s.din = [] →
    ∃ t b', exec (.rbRead i n) s = .next t ∧ t.session = .active b' ∧
      (∀ j a, (b'.get j).mem.read a = (b.get j).mem.read a) ∧
      (b'.get i).end_ = (b.get i).end_ ∧ (b'.get i).cap = (b.get i).cap ∧
      (∀ j, j ≠ i → b'.get j = b.get j) ∧
      t.ctr = s.ctr ∧ t.fcause = s.fcause ∧ t.answers = s.answers ∧ t.draws = s.draws ∧
      (t.trace = s.trace ∨ (b.get i).len < n ∧ t.trace = s.trace ++ [.underrun i])

/-- R110: RB_LEN answers the fill level in ACTIVE and FAULTED, never above the capacity, changes
nothing, and answers BAD_STATE in IDLE. -/
def Obligations.RbLenAnswersFillLevel : Prop :=
  ∀ (s : State) (i : RbSel), s.din = [] →
    (s.session = .idle → exec (.rbLen i) s = .next (answered s ⟨.badState, 0, []⟩)) ∧
    (∀ b, s.session.buffers = some b → b.Wf s.cfg → s.cfg.legal = true →
      ∃ v : Word, exec (.rbLen i) s = .next (answered s ⟨.ok, v, []⟩) ∧
        v.toNat = (b.get i).len ∧ v.toNat ≤ (b.get i).cap ∧
        ((b.get i).hasData = false → v = 0) ∧
        ((b.get i).hasData = true → (b.get i).start = (b.get i).end_ → v.toNat = (b.get i).cap))

/-- R111: RB_GLITCH answers the underrun count in ACTIVE and FAULTED without clearing it, and
BAD_STATE in IDLE. -/
def Obligations.RbGlitchAnswersCount : Prop :=
  ∀ (s : State) (i : RbSel), s.din = [] →
    (s.session = .idle → exec (.rbGlitch i) s = .next (answered s ⟨.badState, 0, []⟩)) ∧
    (∀ b, s.session.buffers = some b →
      exec (.rbGlitch i) s = .next (answered s ⟨.ok, (b.get i).glitch, []⟩))

/-- R112, which the spec derives from R101 and R105: bytes written into an empty buffer in any pieces, up to the capacity, are read back in
order with OK. -/
def Obligations.RoundTripThroughRingBuffer : Prop :=
  ∀ (s : State) (b : Buffers) (i : RbSel) (chunks : List (List Byte)),
    s.session = .active b → b.Wf s.cfg → s.cfg.legal = true → (b.get i).len = 0 →
    chunks.flatten.length ≤ (b.get i).cap →
    ∃ t, runCommands (chunks.map (fun d => (Instr.rbWrite i d.length, d)) ++
        [(Instr.rbRead i chunks.flatten.length, [])]) s = .next t ∧
      t.resp = some ⟨.ok, BitVec.ofNat 32 chunks.flatten.length, chunks.flatten⟩ ∧
      t.trace = s.trace

/-- R113, which the spec derives from R101: writes of more than the capacity in total leave the last `cap` bytes written. -/
def Obligations.OverwriteOldest : Prop :=
  ∀ (s : State) (b : Buffers) (i : RbSel) (chunks : List (List Byte)),
    s.session = .active b → b.Wf s.cfg → (b.get i).len = 0 →
    (b.get i).cap < chunks.flatten.length →
    ∃ t b', runCommands (chunks.map (fun d => (Instr.rbWrite i d.length, d))) s = .next t ∧
      t.session = .active b' ∧ (b'.get i).len = (b.get i).cap ∧
      (b'.get i).content = lastBytes (b.get i).cap chunks.flatten

/-- R114, which the spec derives from R101 and R105: what each ring-buffer command does to the fill level. -/
def Obligations.FillLevelIsConserved : Prop :=
  ∀ (s : State) (b : Buffers) (i : RbSel), s.session = .active b → b.Wf s.cfg →
    (∃ t b', exec (.rbWrite i s.din.length) s = .next t ∧ t.session = .active b' ∧
      (b'.get i).len = min (b.get i).cap ((b.get i).len + s.din.length)) ∧
    (∀ n, s.din = [] → ∃ t b', exec (.rbRead i n) s = .next t ∧ t.session = .active b' ∧
      (b'.get i).len = (b.get i).len - min (b.get i).len n) ∧
    (∃ t, exec (.rbLen i) s = .next t ∧ t.session = s.session) ∧
    (∃ t, exec (.rbGlitch i) s = .next t ∧ t.session = s.session)

/-! ## Batches (41_batch.md) -/

/-- R130 to R135: with at least 2 whole frames held the selected batch is popped, notified and
emitted, and the answer is OK or TX_FAIL with the frame count. -/
def Obligations.BatchSelEmitsTheBatch : Prop :=
  ∀ (s : State) (b : Buffers) (n : BatchSize), s.session = .active b → b.Wf s.cfg →
    s.cfg.legal = true → s.din = [] →
    n = .four ∧ 4 * s.cfg.frameSize ≤ b.rb1.len ∨
      n = .two ∧ 2 * s.cfg.frameSize ≤ b.rb1.len ∧ b.rb1.len < 4 * s.cfg.frameSize →
    ∃ t b', exec .batchSel s = .next t ∧ t.session.buffers = some b' ∧
      b'.rb1.content = b.rb1.content.drop (BatchSize.frames n * s.cfg.frameSize) ∧
      t.ctr = s.ctr + BitVec.ofNat 16 (BatchSize.frames n) ∧
      (nextAnswer s = .ok → t.sstate = .active ∧ t.fcause = s.fcause ∧
        t.resp = some ⟨.ok, BitVec.ofNat 32 (BatchSize.frames n), []⟩ ∧
        t.trace = s.trace ++ [.notify n, .frame (layout s.cfg n s.ctr
          (b.rb1.content.take (BatchSize.frames n * s.cfg.frameSize))) .ok]) ∧
      (nextAnswer s = .fail → t.sstate = .faulted ∧ t.fcause = 5 ∧
        t.resp = some ⟨.txFail, BitVec.ofNat 32 (BatchSize.frames n), []⟩ ∧
        t.trace = s.trace ++ [.notify n, .frame (layout s.cfg n s.ctr
          (b.rb1.content.take (BatchSize.frames n * s.cfg.frameSize))) .fail, .fatal .txFail])

/-- R132, R137: with fewer than 2 whole frames held BATCH_SEL answers NO_BATCH with RVAL 0 and
changes no state. -/
def Obligations.TooFewFramesGiveNoBatch : Prop :=
  ∀ (s : State) (b : Buffers), s.session = .active b → s.cfg.legal = true → s.din = [] →
    b.rb1.len < 2 * s.cfg.frameSize → exec .batchSel s = .next (answered s ⟨.noBatch, 0, []⟩)

/-- R146, which the spec derives from R131 to R133: the batch-selection table: frames held, frames selected (and consumed), frames left. -/
def Obligations.BatchSelectionTable : Prop :=
  ∀ (s : State) (b : Buffers), s.session = .active b → b.Wf s.cfg → s.cfg.legal = true → s.din = [] →
    ∀ row ∈ [(0, 0, 0), (1, 0, 1), (2, 2, 0), (3, 2, 1), (4, 4, 0), (5, 4, 1), (8, 4, 4)],
      b.rb1.len = row.1 * s.cfg.frameSize →
      ∃ t b' r, exec .batchSel s = .next t ∧ t.session.buffers = some b' ∧ t.resp = some r ∧
        r.rval = BitVec.ofNat 32 row.2.1 ∧ (row.2.1 = 0 ↔ r.rstat = .noBatch) ∧
        b'.rb1.content = b.rb1.content.drop (row.2.1 * s.cfg.frameSize) ∧
        b'.rb1.len = row.2.2 * s.cfg.frameSize

/-- The frame of BATCH_SEL (R133): RB[0], every byte of both arrays, the write cursor and the
underrun counts are unchanged. -/
def Obligations.BatchSelFrame : Prop :=
  ∀ (s : State) (b : Buffers), s.session = .active b → s.din = [] →
    ∃ t b', exec .batchSel s = .next t ∧ t.session.buffers = some b' ∧
      b'.rb0 = b.rb0 ∧ (∀ a, b'.rb1.mem.read a = b.rb1.mem.read a) ∧
      b'.rb1.end_ = b.rb1.end_ ∧ b'.rb1.cap = b.rb1.cap ∧ b'.rb1.glitch = b.rb1.glitch

/-! ## The emitter (42_emitter.md) -/

/-- R83 to R87: the frame the sequencer builds is the laid-out one, field after field, and has the
transmitted length. -/
def Obligations.SequencerBuildsTheLayout : Prop :=
  ∀ (c : Config) (n : BatchSize) (ctr : BitVec 16) (payload : List Byte), c.legal = true →
    payload.length = BatchSize.frames n * c.frameSize →
    buildFrame c n ctr payload = layout c n ctr payload ∧
    (buildFrame c n ctr payload).length = (match n with | .two => c.size2 | .four => c.size4 + 1)

/-- R153, R160, R161, R163, R164: EMIT.2 and EMIT.4 send the frame of their payload once, with the
counter before the increase, and advance the counter whatever TRANSPORT answers; when it answers ok
they complete with OK and nothing else changes. -/
def Obligations.EmitSendsOneFrame : Prop :=
  ∀ (s : State) (b : Buffers) (n : BatchSize), s.session = .active b → s.cfg.legal = true →
    s.din.length = BatchSize.frames n * s.cfg.frameSize →
    ∃ t, exec (emitInstr n) s = .next t ∧
      t.ctr = s.ctr + BitVec.ofNat 16 (BatchSize.frames n) ∧
      (nextAnswer s = .ok → t.session = .active b ∧ t.fcause = s.fcause ∧
        t.resp = some ⟨.ok, 0, []⟩ ∧
        t.trace = s.trace ++ [.frame (layout s.cfg n s.ctr s.din) .ok])

/-- R166, which the spec derives from R153 and R160: frame k of a session carries the number of frames
before it, modulo 65536. First for EMITs whose writes succeed, each of which sends one frame (the
outcomes known beforehand are the model's DESIGN CHOICE, log 5), then for every command that may come
before the next SESS_START, BATCH_SEL and a last write that fails included. -/
def Obligations.CounterSequence : Prop :=
  (∀ (s : State) (b : Buffers) (batches : List (BatchSize × List Byte)) (later : List Answer),
    s.session = .active b → s.cfg.legal = true → s.ctr = 0 →
    (∀ p ∈ batches, p.2.length = BatchSize.frames p.1 * s.cfg.frameSize) →
    s.answers = List.replicate batches.length .ok ++ later →
    ∃ (t : State) (frames : List (List Byte)), runCommands (batches.map (fun p => (emitInstr p.1, p.2))) s = .next t ∧
      frames.length = batches.length ∧
      t.trace = s.trace ++ frames.map (fun fr => Event.frame fr .ok) ∧
      ∀ k fr, frames[k]? = some fr →
        carriedCounter fr = totalFrames ((batches.take k).map Prod.fst) % 65536) ∧
  (∀ (s t : State) (cmds : List (Instr × List Byte)), s.cfg.legal = true → s.ctr = 0 →
    (∀ c ∈ cmds, c.1 ≠ .sessStart) → runCommands cmds s = .next t →
    ∃ frames, sentFrames t.trace = sentFrames s.trace ++ frames ∧
      ∀ k fr, frames[k]? = some fr →
        carriedCounter fr.1 = ((frames.take k).map fun f => frameCount s.cfg f.1).sum % 65536)

/-- R230, R162: when TRANSPORT answers fail the block enters FAULTED with cause 5, raises
FATAL(TX_FAIL) after the frame's event, answers TX_FAIL, and keeps every other effect of the
command: for EMIT the buffers as they were and the advanced counter. -/
def Obligations.TransportFailureEntersFaulted : Prop :=
  ∀ (s : State) (b : Buffers) (n : BatchSize), s.session = .active b → s.cfg.legal = true →
    s.din.length = BatchSize.frames n * s.cfg.frameSize → nextAnswer s = .fail →
    ∃ t, exec (emitInstr n) s = .next t ∧ t.session = .faulted b ∧ t.fcause = 5 ∧
      t.resp = some ⟨.txFail, 0, []⟩ ∧
      t.ctr = s.ctr + BitVec.ofNat 16 (BatchSize.frames n) ∧
      t.trace = s.trace ++ [.frame (layout s.cfg n s.ctr s.din) .fail, .fatal .txFail]

/-! ## The checksum (43_crc32.md) -/

/-- R181, R182: the checksum function with the default parameters is the serial procedure of R182,
for every byte sequence. The parameters come from general knowledge (G1, PRESUMED, log 10). -/
def Obligations.DefaultChecksumIsSerialProcedure : Prop :=
  ∀ bs : List Byte, crc32 CrcParams.iso bs = isoCrc32 bs

/-- R184: CRC32 answers the checksum of its data in every session state and changes nothing. The
default parameters come from general knowledge (G1, PRESUMED, log 10). -/
def Obligations.Crc32AnswersChecksum : Prop :=
  ∀ s : State, ∃ v, exec (.crc32 s.din.length) s = .next (answered s ⟨.ok, v, []⟩) ∧
    v = crc32 s.cfg.crc s.din ∧ (s.cfg.crc = CrcParams.iso → v = isoCrc32 s.din)

/-- R185, R186: the checksum of no bytes and the check value, with the default parameters from general
knowledge (G1, PRESUMED, log 10). -/
def Obligations.ChecksumCheckValues : Prop :=
  crc32 CrcParams.iso [] = 0 ∧
  crc32 CrcParams.iso [0x31, 0x32, 0x33, 0x34, 0x35, 0x36, 0x37, 0x38, 0x39] = 0xCBF43926

/-! ## Session control and the fault state (44_control.md, 60_exceptions.md) -/

/-- R200, R261: a successful start gives both buffers, the counts, the counter and the cause their
start values, from IDLE in whatever state the last session left; the trace is kept. -/
def Obligations.SuccessfulStartResetsTheSession : Prop :=
  ∀ s : State, s.session = .idle → s.din = [] → nextAnswer s = .ok →
    ∃ t b, exec .sessStart s = .next t ∧ t.session = .active b ∧ t.resp = some ⟨.ok, 0, []⟩ ∧
      t.ctr = 0 ∧ t.fcause = 0 ∧ t.trace = s.trace ∧
      b.rb0.cap = s.cfg.cap0 ∧ b.rb1.cap = s.cfg.cap1 ∧
      ∀ i, (b.get i).start = 0 ∧ (b.get i).end_ = 0 ∧ (b.get i).hasData = false ∧
        (b.get i).glitch = 0

/-- R223: an initialisation failure leaves IDLE, creates no buffer, records cause 6 and raises
FATAL(INIT_FAIL); the counter is not touched. -/
def Obligations.FailedStartStaysIdle : Prop :=
  ∀ s : State, s.session = .idle → s.din = [] → nextAnswer s = .fail →
    ∃ t, exec .sessStart s = .next t ∧ t.session = .idle ∧ t.resp = some ⟨.initFail, 0, []⟩ ∧
      t.fcause = 6 ∧ t.trace = s.trace ++ [.fatal .initFail] ∧ t.ctr = s.ctr

/-- R202, R262: SESS_STOP discards both buffers, enters IDLE and leaves the counter, the cause and
the trace; without a session it answers BAD_STATE. -/
def Obligations.StopDiscardsTheBuffers : Prop :=
  ∀ s : State, s.din = [] →
    (s.session ≠ .idle →
      exec .sessStop s = .next { answered s ⟨.ok, 0, []⟩ with session := .idle }) ∧
    (s.session = .idle → exec .sessStop s = .next (answered s ⟨.badState, 0, []⟩))

/-- R36, R203: STATUS answers the status word in every session state and changes nothing. -/
def Obligations.StatusAnswersTheStatusWord : Prop :=
  ∀ s : State, s.din = [] →
    ∃ v : Word, exec .status s = .next (answered s ⟨.ok, v, []⟩) ∧
      v.extractLsb' 0 2 = (match s.session with | .idle => 0 | .active _ => 1 | .faulted _ => 2) ∧
      v.extractLsb' 2 2 = 0 ∧ v.extractLsb' 4 4 = s.fcause ∧ v.extractLsb' 8 24 = 0

/-- R204: CNT_RD answers the counter in every session state and changes nothing. -/
def Obligations.CntRdAnswersTheCounter : Prop :=
  ∀ s : State, s.din = [] →
    ∃ v : Word, exec .cntRd s = .next (answered s ⟨.ok, v, []⟩) ∧ v.toNat = s.ctr.toNat ∧
      v.toNat < 65536

/-- R231: FAULTED is left only by SESS_STOP, which enters IDLE. -/
def Obligations.FaultedIsLeftOnlyByStop : Prop :=
  ∀ (i : Instr) (s t : State) (b : Buffers), s.session = .faulted b → exec i s = .next t →
    t.sstate ≠ .faulted → i = .sessStop ∧ t.session = .idle

/-- R232, which the spec derives from R205: in FAULTED no command changes a buffer, the counter or the cause, sends a frame or raises
any event; only SESS_STOP changes the session. -/
def Obligations.NothingHappensInFaulted : Prop :=
  ∀ (i : Instr) (s t : State) (b : Buffers), s.session = .faulted b → exec i s = .next t →
    t.trace = s.trace ∧ t.fcause = s.fcause ∧ t.ctr = s.ctr ∧
    (i ≠ .sessStop → t.session = s.session)

/-- R260: after power-on reset the block is IDLE with cause 0, counter 0, no buffer and an empty
trace, whatever the configuration. -/
def Obligations.PowerOnReset : Prop :=
  ∀ c : Config, (State.resetWith c).sstate = .idle ∧ (State.resetWith c).session.buffers = none ∧
    (State.resetWith c).fcause = 0 ∧ (State.resetWith c).ctr = 0 ∧ (State.resetWith c).trace = [] ∧
    (State.resetWith c).cfg = c

/-! ## Invariants and what is observable -/

/-- R23, R24, R29 and the canonical form of the arrays hold after reset with a legal
configuration. -/
def Obligations.ResetMeetsTheInvariant : Prop :=
  (∀ c : Config, c.legal = true → (State.resetWith c).Inv) ∧ State.reset.Inv

/-- R23, R24, R29, R115: every step, whichever agent moves, keeps the invariant. -/
def Obligations.StepKeepsTheInvariant : Prop :=
  ∀ s t : State, s.Inv → step s = .next t → t.Inv

/-- R26, R37: two states that differ at most in cursor positions and stale bytes take the same
steps: the same responses and events, and they stay so. -/
def Obligations.StaleBytesAreNeverObserved : Prop :=
  ∀ s t s' : State, s.Inv → t.Inv → s.SameShown t → step s = .next s' →
    ∃ t', step t = .next t' ∧ s'.SameShown t'

/-! ## The agents (41_batch.md, 60_exceptions.md, 70_reset_and_hazards.md)

The statements of this part rest on choices of the model: one command a HOST turn (log 11), opaque
collaborators (log 12), CAPTURE's queue (log 13), WAIT_FILL's place in the order (log 15), the refusal of
an odd encoder count (log 20) and the list of instances (log 16). -/

/-- R142: with an encoder that keeps its contract, the loop of step 3 ends after at most three HOST
turns a pass, with fewer than C bytes in RB[0], the leftover ones, before BATCH_SEL. One command a HOST turn is
the model's choice (log 11). -/
def Obligations.EncodeLoopDrainsRawBuffer : Prop :=
  ∀ (col : Collaborators) (s : State) (b : Buffers), s.Inv → KeepsContract col s.cfg →
    s.session = .active b → s.host = .test →
    ∃ k t b', k ≤ 3 * (b.rb0.len / s.cfg.codeSize) + 1 ∧ runHost col k s = .next t ∧
      t.host = .batch ∧ t.session = .active b' ∧ b'.rb0.len < s.cfg.codeSize ∧
      b'.rb0.content = b.rb0.content.drop (b.rb0.len / s.cfg.codeSize * s.cfg.codeSize)

/-- R143: an encode failure is logged, nothing is written to RB[1], the C input bytes stay consumed,
and the loop goes on. One command a HOST turn is the model's choice (log 11). -/
def Obligations.EncodeFailureIsLoggedAndDropped : Prop :=
  ∀ (col : Collaborators) (s : State) (b : Buffers), s.Inv → s.session = .active b →
    s.host = .read → s.cfg.codeSize ≤ b.rb0.len →
    (col.encode (b.rb0.content.take s.cfg.codeSize)).1 ≤ 0 →
    ∃ t b', hostTurn col s = .next t ∧ t.host = .test ∧ t.hostLog = s.hostLog ++ [.encodeFailure] ∧
      t.session = .active b' ∧ b'.rb1 = b.rb1 ∧
      b'.rb0.content = b.rb0.content.drop s.cfg.codeSize

/-- R141: a positive count other than F is refused, by the HOST's turn (the model's choice, log 20). -/
def Obligations.OddEncoderCountIsRefused : Prop :=
  ∀ (col : Collaborators) (s : State) (b : Buffers), s.Inv → s.session = .active b →
    s.host = .read → s.cfg.codeSize ≤ b.rb0.len →
    0 < (col.encode (b.rb0.content.take s.cfg.codeSize)).1 →
    (col.encode (b.rb0.content.take s.cfg.codeSize)).1 ≠ s.cfg.frameSize →
    hostTurn col s = .refused .encoderContract

/-- R138, R224: after TX_FAIL the HOST halts CAPTURE, and its next turn, which is in the order from then
on, stops the session and reports the failure: for the BATCH_SEL of its per-block program, where that
turn comes before anything else of the HOST, and for a BATCH_SEL, EMIT.2 or EMIT.4 that it issues by
itself. There a SESS_STOP word of its own that is ILLEGAL, since it carries data (R77), leaves that stop
owed, and a WAIT_FILL loop of its own comes after it. The HOST's turns, CAPTURE's queue and the place
of the stop in the order are the model's choice (log 11, log 13, log 22). -/
def Obligations.HostStopsAfterTxFail : Prop :=
  ∀ (col : Collaborators) (s : State) (b : Buffers), s.Inv → s.session = .active b →
    nextAnswer s = .fail →
    (s.host = .batch → 2 * s.cfg.frameSize ≤ b.rb1.len →
      ∃ t u, hostTurn col s = .next t ∧ t.sstate = .faulted ∧ t.capture = .halted ∧
        t.captured = [] ∧ t.turns = s.turns ++ [.host] ∧
        hostBusy t = true ∧ hostTurn col t = .next u ∧ u.session = .idle ∧ u.fcause = 5 ∧
        u.host = .idle ∧ u.hostLog = s.hostLog ++ [.sessionFailed]) ∧
    (∀ tx : Transaction,
      (tx = ⟨encode .batchSel, []⟩ ∧ 2 * s.cfg.frameSize ≤ b.rb1.len ∨
        ∃ n, tx.word = encode (emitInstr n) ∧
          tx.din.length = BatchSize.frames n * s.cfg.frameSize) →
      s.host.inCallback = false →
      ∃ t u, takeCommand .host tx s = .next t ∧ t.host = .owesStop ∧ t.sstate = .faulted ∧ t.capture = .halted ∧
        t.captured = [] ∧ t.turns = s.turns ++ [.host] ∧
        hostTurn col t = .next u ∧ u.session = .idle ∧ u.fcause = 5 ∧ u.host = .idle ∧
        u.hostLog = s.hostLog ++ [.sessionFailed] ∧
        (∀ d : List Byte, d ≠ [] → ∃ v, takeCommand .host ⟨encode .sessStop, d⟩ t = .next v ∧
          v.resp = some ⟨.illegal, 0, []⟩ ∧ v.session = t.session ∧ v.turns = t.turns ∧
          v.host = t.host ∧ v.hostLog = t.hostLog) ∧
        ∀ i k, ∃ v, takeTurn col (.waitFill .host i k) t = .next v ∧ v.session = .idle ∧
          v.host = .idle ∧ v.hostLog = s.hostLog ++ [.sessionFailed] ∧
          v.turns = yieldPoll .host (.waitFill .host i k) t.turns)

/-- R138, R263: the HOST's session start starts CAPTURE only when SESS_START answered OK. A block that
CAPTURE delivers in IDLE meets BAD_STATE on its RB_WRITE and is lost, in the turn that delivers it or,
after the callbacks before its own, in the HOST turn that begins its callback; each has the rest of its
program after it. CAPTURE's mode and queue, and these turns, are the model's choice (log 11, log 13). -/
def Obligations.CaptureStartsOnlyAfterOk : Prop :=
  (∀ s : State, s.session = .idle → s.capture ≠ .started →
    ∃ t, hostStart s = .next t ∧
      (nextAnswer s = .ok → t.sstate = .active ∧ t.capture = .started) ∧
      (nextAnswer s = .fail → t.sstate = .idle ∧ t.capture = .unstarted ∧
        t.resp = some ⟨.initFail, 0, []⟩)) ∧
  (∀ (col : Collaborators) (s : State) (blk : CaptureBlock), s.session = .idle →
    (capturePcm col s.cfg blk).1.length ≤ maxLen →
    (s.capture ≠ .halted → s.host = .idle → s.captured = [] →
      ∃ t, deliver col blk s = .next t ∧ t.resp = some ⟨.badState, 0, []⟩ ∧ t.host = .test ∧
        t.captured = [] ∧ t.session = .idle ∧ t.trace = s.trace) ∧
    (∀ later, s.host = .idle → s.captured = blk :: later →
      ∃ t, hostTurn col s = .next t ∧ t.resp = some ⟨.badState, 0, []⟩ ∧ t.host = .test ∧
        t.captured = later ∧ t.session = .idle ∧ t.trace = s.trace)) ∧
  (∀ (col : Collaborators) (s : State) (blk : CaptureBlock), s.capture ≠ .halted →
    s.host ≠ .idle ∨ s.captured ≠ [] →
    deliver col blk s = .next { s with captured := s.captured ++ [blk] })

/-- R60, R67, R82: one poll of WAIT_FILL changes no buffer. From k on the loop is over. Below k the agent
yields, and polls again before every later entry of its own; nothing else of the order changes. And
every step, polls included, brings the next entry of each other agent, CAPTURE included, nearer to the
head of the order: weak fairness (D35), so no loop keeps another agent waiting. The poll's place among
the others' entries is the model's choice (log 15). -/
def Obligations.WaitFillPollsAndYields : Prop :=
  (∀ (s : State) (b : Buffers) (a : Agent) (i : RbSel) (k : Nat), s.Inv →
    s.session.buffers = some b →
    ∃ t, waitFill a i k s = .next t ∧ t.session = s.session ∧ t.trace = s.trace ∧
      ((b.get i).len < k →
        t.turns.filter (Turn.movedBy a) = .waitFill a i k :: s.turns.filter (Turn.movedBy a) ∧
        (t.turns.filter fun x => !x.movedBy a) = (s.turns.filter fun x => !x.movedBy a)) ∧
      (k ≤ (b.get i).len → t.turns = s.turns)) ∧
  (∀ (s t : State) (x : Turn) (rest : List Turn) (m : Option Agent), s.turns = x :: rest →
    x.mover ≠ m → (∃ y ∈ rest, y.mover = m) → step s = .next t →
    (∃ y ∈ t.turns, y.mover = m) ∧
    (t.turns.takeWhile fun y => y.mover ≠ m).length < (s.turns.takeWhile fun y => y.mover ≠ m).length)

/-- R6, R57, R264: a turn of a disciplined OBSERVER, and any poll of WAIT_FILL, leaves the block as it
was. An entry of the HOST that waits for the HOST's own program is no poll yet (log 11, log 22). The
list of turns is the model's choice (log 3). -/
def Obligations.DisciplinedObserversKeepTheBlock : Prop :=
  ∀ (s t : State) (turn : Turn) (rest : List Turn), s.turns = turn :: rest → turn.disciplined = true →
    (∃ n tx, turn = .command (.observer n) tx) ∨ (∃ a i k, turn = .waitFill a i k ∧ turn.waits s = false) →
    step s = .next t → s.SameBlock t

/-- R62, R237: a step of one instance of a system changes no other instance, and the instances keep
their own numbers, so that none comes to draw another's outcomes. The list of instances and their
numbers are DEDUCED (log 16). -/
def Obligations.InstancesShareNothing : Prop :=
  (∀ (k : Nat) (sys sys' : System), System.stepAt k sys = .next sys' →
    sys'.length = sys.length ∧ (∀ j, j ≠ k → sys'[j]? = sys[j]?) ∧
    (∀ s, sys[k]? = some s → ∃ t, sys'[k]? = some t ∧ step s = .next t) ∧
    (sys.Wf → sys'.Wf)) ∧
  (∀ cs : List Config, (System.reset cs).Wf)
end

