-- ==== Sys2Proof/Laws/State.lean ====
section
/-! SUPPORT. What each update of State leaves in each field, one lemma per field and update, so that
no later proof unfolds a record update. -/

namespace Sys2Proof.Machine

@[simp] theorem respond_cfg (s : State) (r : RStat) (v : Word) (d : List Byte) : (respond s r v d).cfg = s.cfg := rfl
@[simp] theorem respond_session (s : State) (r : RStat) (v : Word) (d : List Byte) : (respond s r v d).session = s.session := rfl
@[simp] theorem respond_fcause (s : State) (r : RStat) (v : Word) (d : List Byte) : (respond s r v d).fcause = s.fcause := rfl
@[simp] theorem respond_ctr (s : State) (r : RStat) (v : Word) (d : List Byte) : (respond s r v d).ctr = s.ctr := rfl
@[simp] theorem respond_trace (s : State) (r : RStat) (v : Word) (d : List Byte) : (respond s r v d).trace = s.trace := rfl
@[simp] theorem respond_issuer (s : State) (r : RStat) (v : Word) (d : List Byte) : (respond s r v d).issuer = s.issuer := rfl
@[simp] theorem respond_din (s : State) (r : RStat) (v : Word) (d : List Byte) : (respond s r v d).din = [] := rfl
@[simp] theorem respond_resp (s : State) (r : RStat) (v : Word) (d : List Byte) : (respond s r v d).resp = some ⟨r, v, d⟩ := rfl
@[simp] theorem respond_turns (s : State) (r : RStat) (v : Word) (d : List Byte) : (respond s r v d).turns = s.turns := rfl
@[simp] theorem respond_host (s : State) (r : RStat) (v : Word) (d : List Byte) : (respond s r v d).host = s.host := rfl
@[simp] theorem respond_capture (s : State) (r : RStat) (v : Word) (d : List Byte) : (respond s r v d).capture = s.capture := rfl
@[simp] theorem respond_captured (s : State) (r : RStat) (v : Word) (d : List Byte) : (respond s r v d).captured = s.captured := rfl
@[simp] theorem respond_hostLog (s : State) (r : RStat) (v : Word) (d : List Byte) : (respond s r v d).hostLog = s.hostLog := rfl
@[simp] theorem respond_answers (s : State) (r : RStat) (v : Word) (d : List Byte) : (respond s r v d).answers = s.answers := rfl
@[simp] theorem respond_draws (s : State) (r : RStat) (v : Word) (d : List Byte) : (respond s r v d).draws = s.draws := rfl

@[simp] theorem emitEvent_cfg (s : State) (e : Event) : (emitEvent s e).cfg = s.cfg := rfl
@[simp] theorem emitEvent_session (s : State) (e : Event) : (emitEvent s e).session = s.session := rfl
@[simp] theorem emitEvent_fcause (s : State) (e : Event) : (emitEvent s e).fcause = s.fcause := rfl
@[simp] theorem emitEvent_ctr (s : State) (e : Event) : (emitEvent s e).ctr = s.ctr := rfl
@[simp] theorem emitEvent_trace (s : State) (e : Event) : (emitEvent s e).trace = s.trace ++ [e] := rfl
@[simp] theorem emitEvent_issuer (s : State) (e : Event) : (emitEvent s e).issuer = s.issuer := rfl
@[simp] theorem emitEvent_din (s : State) (e : Event) : (emitEvent s e).din = s.din := rfl
@[simp] theorem emitEvent_resp (s : State) (e : Event) : (emitEvent s e).resp = s.resp := rfl
@[simp] theorem emitEvent_turns (s : State) (e : Event) : (emitEvent s e).turns = s.turns := rfl
@[simp] theorem emitEvent_host (s : State) (e : Event) : (emitEvent s e).host = s.host := rfl
@[simp] theorem emitEvent_capture (s : State) (e : Event) : (emitEvent s e).capture = s.capture := rfl
@[simp] theorem emitEvent_captured (s : State) (e : Event) : (emitEvent s e).captured = s.captured := rfl
@[simp] theorem emitEvent_hostLog (s : State) (e : Event) : (emitEvent s e).hostLog = s.hostLog := rfl
@[simp] theorem emitEvent_answers (s : State) (e : Event) : (emitEvent s e).answers = s.answers := rfl
@[simp] theorem emitEvent_draws (s : State) (e : Event) : (emitEvent s e).draws = s.draws := rfl

@[simp] theorem setBuffers_cfg (s : State) (b : Buffers) : (setBuffers s b).cfg = s.cfg := rfl
@[simp] theorem setBuffers_session (s : State) (b : Buffers) : (setBuffers s b).session = .active b := rfl
@[simp] theorem setBuffers_fcause (s : State) (b : Buffers) : (setBuffers s b).fcause = s.fcause := rfl
@[simp] theorem setBuffers_ctr (s : State) (b : Buffers) : (setBuffers s b).ctr = s.ctr := rfl
@[simp] theorem setBuffers_trace (s : State) (b : Buffers) : (setBuffers s b).trace = s.trace := rfl
@[simp] theorem setBuffers_issuer (s : State) (b : Buffers) : (setBuffers s b).issuer = s.issuer := rfl
@[simp] theorem setBuffers_din (s : State) (b : Buffers) : (setBuffers s b).din = s.din := rfl
@[simp] theorem setBuffers_resp (s : State) (b : Buffers) : (setBuffers s b).resp = s.resp := rfl
@[simp] theorem setBuffers_turns (s : State) (b : Buffers) : (setBuffers s b).turns = s.turns := rfl
@[simp] theorem setBuffers_host (s : State) (b : Buffers) : (setBuffers s b).host = s.host := rfl
@[simp] theorem setBuffers_capture (s : State) (b : Buffers) : (setBuffers s b).capture = s.capture := rfl
@[simp] theorem setBuffers_captured (s : State) (b : Buffers) : (setBuffers s b).captured = s.captured := rfl
@[simp] theorem setBuffers_hostLog (s : State) (b : Buffers) : (setBuffers s b).hostLog = s.hostLog := rfl
@[simp] theorem setBuffers_answers (s : State) (b : Buffers) : (setBuffers s b).answers = s.answers := rfl
@[simp] theorem setBuffers_draws (s : State) (b : Buffers) : (setBuffers s b).draws = s.draws := rfl

@[simp] theorem recordFatal_cfg (s : State) (r : RStat) : (recordFatal s r).cfg = s.cfg := rfl
@[simp] theorem recordFatal_session (s : State) (r : RStat) : (recordFatal s r).session = s.session := rfl
@[simp] theorem recordFatal_fcause (s : State) (r : RStat) : (recordFatal s r).fcause = r.code := rfl
@[simp] theorem recordFatal_ctr (s : State) (r : RStat) : (recordFatal s r).ctr = s.ctr := rfl
@[simp] theorem recordFatal_trace (s : State) (r : RStat) : (recordFatal s r).trace = s.trace ++ [.fatal r] := rfl
@[simp] theorem recordFatal_issuer (s : State) (r : RStat) : (recordFatal s r).issuer = s.issuer := rfl
@[simp] theorem recordFatal_din (s : State) (r : RStat) : (recordFatal s r).din = s.din := rfl
@[simp] theorem recordFatal_resp (s : State) (r : RStat) : (recordFatal s r).resp = s.resp := rfl
@[simp] theorem recordFatal_turns (s : State) (r : RStat) : (recordFatal s r).turns = s.turns := rfl
@[simp] theorem recordFatal_host (s : State) (r : RStat) : (recordFatal s r).host = s.host := rfl
@[simp] theorem recordFatal_capture (s : State) (r : RStat) : (recordFatal s r).capture = s.capture := rfl
@[simp] theorem recordFatal_captured (s : State) (r : RStat) : (recordFatal s r).captured = s.captured := rfl
@[simp] theorem recordFatal_hostLog (s : State) (r : RStat) : (recordFatal s r).hostLog = s.hostLog := rfl
@[simp] theorem recordFatal_answers (s : State) (r : RStat) : (recordFatal s r).answers = s.answers := rfl
@[simp] theorem recordFatal_draws (s : State) (r : RStat) : (recordFatal s r).draws = s.draws := rfl

@[simp] theorem enterFaulted_cfg (s : State) : (enterFaulted s).cfg = s.cfg := rfl
@[simp] theorem enterFaulted_session (s : State) : (enterFaulted s).session = s.session.toFaulted := rfl
@[simp] theorem enterFaulted_fcause (s : State) : (enterFaulted s).fcause = RStat.code .txFail := rfl
@[simp] theorem enterFaulted_ctr (s : State) : (enterFaulted s).ctr = s.ctr := rfl
@[simp] theorem enterFaulted_trace (s : State) : (enterFaulted s).trace = s.trace ++ [.fatal .txFail] := rfl
@[simp] theorem enterFaulted_issuer (s : State) : (enterFaulted s).issuer = s.issuer := rfl
@[simp] theorem enterFaulted_din (s : State) : (enterFaulted s).din = s.din := rfl
@[simp] theorem enterFaulted_resp (s : State) : (enterFaulted s).resp = s.resp := rfl
@[simp] theorem enterFaulted_turns (s : State) : (enterFaulted s).turns = s.turns := rfl
@[simp] theorem enterFaulted_host (s : State) : (enterFaulted s).host = s.host := rfl
@[simp] theorem enterFaulted_capture (s : State) : (enterFaulted s).capture = s.capture := rfl
@[simp] theorem enterFaulted_captured (s : State) : (enterFaulted s).captured = s.captured := rfl
@[simp] theorem enterFaulted_hostLog (s : State) : (enterFaulted s).hostLog = s.hostLog := rfl
@[simp] theorem enterFaulted_answers (s : State) : (enterFaulted s).answers = s.answers := rfl
@[simp] theorem enterFaulted_draws (s : State) : (enterFaulted s).draws = s.draws := rfl

@[simp] theorem endSession_cfg (s : State) : (endSession s).cfg = s.cfg := rfl
@[simp] theorem endSession_session (s : State) : (endSession s).session = .idle := rfl
@[simp] theorem endSession_fcause (s : State) : (endSession s).fcause = s.fcause := rfl
@[simp] theorem endSession_ctr (s : State) : (endSession s).ctr = s.ctr := rfl
@[simp] theorem endSession_trace (s : State) : (endSession s).trace = s.trace := rfl
@[simp] theorem endSession_issuer (s : State) : (endSession s).issuer = s.issuer := rfl
@[simp] theorem endSession_din (s : State) : (endSession s).din = s.din := rfl
@[simp] theorem endSession_resp (s : State) : (endSession s).resp = s.resp := rfl
@[simp] theorem endSession_turns (s : State) : (endSession s).turns = s.turns := rfl
@[simp] theorem endSession_host (s : State) : (endSession s).host = s.host := rfl
@[simp] theorem endSession_capture (s : State) : (endSession s).capture = s.capture := rfl
@[simp] theorem endSession_captured (s : State) : (endSession s).captured = s.captured := rfl
@[simp] theorem endSession_hostLog (s : State) : (endSession s).hostLog = s.hostLog := rfl
@[simp] theorem endSession_answers (s : State) : (endSession s).answers = s.answers := rfl
@[simp] theorem endSession_draws (s : State) : (endSession s).draws = s.draws := rfl

@[simp] theorem beginSession_cfg (s : State) : (beginSession s).cfg = s.cfg := rfl
@[simp] theorem beginSession_session (s : State) : (beginSession s).session = .active ⟨RingBuffer.create s.cfg.cap0, RingBuffer.create s.cfg.cap1⟩ := rfl
@[simp] theorem beginSession_fcause (s : State) : (beginSession s).fcause = 0 := rfl
@[simp] theorem beginSession_ctr (s : State) : (beginSession s).ctr = 0 := rfl
@[simp] theorem beginSession_trace (s : State) : (beginSession s).trace = s.trace := rfl
@[simp] theorem beginSession_issuer (s : State) : (beginSession s).issuer = s.issuer := rfl
@[simp] theorem beginSession_din (s : State) : (beginSession s).din = s.din := rfl
@[simp] theorem beginSession_resp (s : State) : (beginSession s).resp = s.resp := rfl
@[simp] theorem beginSession_turns (s : State) : (beginSession s).turns = s.turns := rfl
@[simp] theorem beginSession_host (s : State) : (beginSession s).host = s.host := rfl
@[simp] theorem beginSession_capture (s : State) : (beginSession s).capture = s.capture := rfl
@[simp] theorem beginSession_captured (s : State) : (beginSession s).captured = s.captured := rfl
@[simp] theorem beginSession_hostLog (s : State) : (beginSession s).hostLog = s.hostLog := rfl
@[simp] theorem beginSession_answers (s : State) : (beginSession s).answers = s.answers := rfl
@[simp] theorem beginSession_draws (s : State) : (beginSession s).draws = s.draws := rfl

@[simp] theorem note_cfg (s : State) (ns : List HostNote) : (note s ns).cfg = s.cfg := rfl
@[simp] theorem note_session (s : State) (ns : List HostNote) : (note s ns).session = s.session := rfl
@[simp] theorem note_fcause (s : State) (ns : List HostNote) : (note s ns).fcause = s.fcause := rfl
@[simp] theorem note_ctr (s : State) (ns : List HostNote) : (note s ns).ctr = s.ctr := rfl
@[simp] theorem note_trace (s : State) (ns : List HostNote) : (note s ns).trace = s.trace := rfl
@[simp] theorem note_issuer (s : State) (ns : List HostNote) : (note s ns).issuer = s.issuer := rfl
@[simp] theorem note_din (s : State) (ns : List HostNote) : (note s ns).din = s.din := rfl
@[simp] theorem note_resp (s : State) (ns : List HostNote) : (note s ns).resp = s.resp := rfl
@[simp] theorem note_turns (s : State) (ns : List HostNote) : (note s ns).turns = s.turns := rfl
@[simp] theorem note_host (s : State) (ns : List HostNote) : (note s ns).host = s.host := rfl
@[simp] theorem note_capture (s : State) (ns : List HostNote) : (note s ns).capture = s.capture := rfl
@[simp] theorem note_captured (s : State) (ns : List HostNote) : (note s ns).captured = s.captured := rfl
@[simp] theorem note_hostLog (s : State) (ns : List HostNote) : (note s ns).hostLog = s.hostLog ++ ns := rfl
@[simp] theorem note_answers (s : State) (ns : List HostNote) : (note s ns).answers = s.answers := rfl
@[simp] theorem note_draws (s : State) (ns : List HostNote) : (note s ns).draws = s.draws := rfl

@[simp] theorem setHost_cfg (s : State) (h : HostPhase) : (setHost s h).cfg = s.cfg := rfl
@[simp] theorem setHost_session (s : State) (h : HostPhase) : (setHost s h).session = s.session := rfl
@[simp] theorem setHost_fcause (s : State) (h : HostPhase) : (setHost s h).fcause = s.fcause := rfl
@[simp] theorem setHost_ctr (s : State) (h : HostPhase) : (setHost s h).ctr = s.ctr := rfl
@[simp] theorem setHost_trace (s : State) (h : HostPhase) : (setHost s h).trace = s.trace := rfl
@[simp] theorem setHost_issuer (s : State) (h : HostPhase) : (setHost s h).issuer = s.issuer := rfl
@[simp] theorem setHost_din (s : State) (h : HostPhase) : (setHost s h).din = s.din := rfl
@[simp] theorem setHost_resp (s : State) (h : HostPhase) : (setHost s h).resp = s.resp := rfl
@[simp] theorem setHost_turns (s : State) (h : HostPhase) : (setHost s h).turns = s.turns := rfl
@[simp] theorem setHost_host (s : State) (h : HostPhase) : (setHost s h).host = h := rfl
@[simp] theorem setHost_capture (s : State) (h : HostPhase) : (setHost s h).capture = s.capture := rfl
@[simp] theorem setHost_captured (s : State) (h : HostPhase) : (setHost s h).captured = s.captured := rfl
@[simp] theorem setHost_hostLog (s : State) (h : HostPhase) : (setHost s h).hostLog = s.hostLog := rfl
@[simp] theorem setHost_answers (s : State) (h : HostPhase) : (setHost s h).answers = s.answers := rfl
@[simp] theorem setHost_draws (s : State) (h : HostPhase) : (setHost s h).draws = s.draws := rfl

@[simp] theorem haltCapture_cfg (s : State) : (haltCapture s).cfg = s.cfg := rfl
@[simp] theorem haltCapture_session (s : State) : (haltCapture s).session = s.session := rfl
@[simp] theorem haltCapture_fcause (s : State) : (haltCapture s).fcause = s.fcause := rfl
@[simp] theorem haltCapture_ctr (s : State) : (haltCapture s).ctr = s.ctr := rfl
@[simp] theorem haltCapture_trace (s : State) : (haltCapture s).trace = s.trace := rfl
@[simp] theorem haltCapture_issuer (s : State) : (haltCapture s).issuer = s.issuer := rfl
@[simp] theorem haltCapture_din (s : State) : (haltCapture s).din = s.din := rfl
@[simp] theorem haltCapture_resp (s : State) : (haltCapture s).resp = s.resp := rfl
@[simp] theorem haltCapture_turns (s : State) : (haltCapture s).turns = s.turns := rfl
@[simp] theorem haltCapture_host (s : State) : (haltCapture s).host = s.host := rfl
@[simp] theorem haltCapture_capture (s : State) : (haltCapture s).capture = .halted := rfl
@[simp] theorem haltCapture_captured (s : State) : (haltCapture s).captured = [] := rfl
@[simp] theorem haltCapture_hostLog (s : State) : (haltCapture s).hostLog = s.hostLog := rfl
@[simp] theorem haltCapture_answers (s : State) : (haltCapture s).answers = s.answers := rfl
@[simp] theorem haltCapture_draws (s : State) : (haltCapture s).draws = s.draws := rfl

@[simp] theorem stopAfterFailure_cfg (s : State) : (stopAfterFailure s).cfg = s.cfg := rfl
@[simp] theorem stopAfterFailure_session (s : State) : (stopAfterFailure s).session = s.session := rfl
@[simp] theorem stopAfterFailure_fcause (s : State) : (stopAfterFailure s).fcause = s.fcause := rfl
@[simp] theorem stopAfterFailure_ctr (s : State) : (stopAfterFailure s).ctr = s.ctr := rfl
@[simp] theorem stopAfterFailure_trace (s : State) : (stopAfterFailure s).trace = s.trace := rfl
@[simp] theorem stopAfterFailure_issuer (s : State) : (stopAfterFailure s).issuer = s.issuer := rfl
@[simp] theorem stopAfterFailure_din (s : State) : (stopAfterFailure s).din = s.din := rfl
@[simp] theorem stopAfterFailure_resp (s : State) : (stopAfterFailure s).resp = s.resp := rfl
@[simp] theorem stopAfterFailure_turns (s : State) : (stopAfterFailure s).turns = s.turns ++ [.host] := rfl
@[simp] theorem stopAfterFailure_host (s : State) : (stopAfterFailure s).host = (if s.host.inCallback then .stop else .owesStop) := rfl
@[simp] theorem stopAfterFailure_capture (s : State) : (stopAfterFailure s).capture = .halted := rfl
@[simp] theorem stopAfterFailure_captured (s : State) : (stopAfterFailure s).captured = [] := rfl
@[simp] theorem stopAfterFailure_hostLog (s : State) : (stopAfterFailure s).hostLog = s.hostLog := rfl
@[simp] theorem stopAfterFailure_answers (s : State) : (stopAfterFailure s).answers = s.answers := rfl
@[simp] theorem stopAfterFailure_draws (s : State) : (stopAfterFailure s).draws = s.draws := rfl

@[simp] theorem respondIllegal_eq (s : State) : respondIllegal s = respond s .illegal 0 [] := rfl
@[simp] theorem respondBadState_eq (s : State) : respondBadState s = respond s .badState 0 [] := rfl

@[simp] theorem draw_cfg (s : State) : (draw s).2.cfg = s.cfg := by
  unfold draw; split <;> rfl
@[simp] theorem draw_session (s : State) : (draw s).2.session = s.session := by
  unfold draw; split <;> rfl
@[simp] theorem draw_fcause (s : State) : (draw s).2.fcause = s.fcause := by
  unfold draw; split <;> rfl
@[simp] theorem draw_ctr (s : State) : (draw s).2.ctr = s.ctr := by
  unfold draw; split <;> rfl
@[simp] theorem draw_trace (s : State) : (draw s).2.trace = s.trace := by
  unfold draw; split <;> rfl
@[simp] theorem draw_issuer (s : State) : (draw s).2.issuer = s.issuer := by
  unfold draw; split <;> rfl
@[simp] theorem draw_din (s : State) : (draw s).2.din = s.din := by
  unfold draw; split <;> rfl
@[simp] theorem draw_resp (s : State) : (draw s).2.resp = s.resp := by
  unfold draw; split <;> rfl
@[simp] theorem draw_turns (s : State) : (draw s).2.turns = s.turns := by
  unfold draw; split <;> rfl
@[simp] theorem draw_host (s : State) : (draw s).2.host = s.host := by
  unfold draw; split <;> rfl
@[simp] theorem draw_capture (s : State) : (draw s).2.capture = s.capture := by
  unfold draw; split <;> rfl
@[simp] theorem draw_captured (s : State) : (draw s).2.captured = s.captured := by
  unfold draw; split <;> rfl
@[simp] theorem draw_hostLog (s : State) : (draw s).2.hostLog = s.hostLog := by
  unfold draw; split <;> rfl

/-- A known answer is used up. -/
@[simp] theorem draw_cons (s : State) (a : Answer) (rest : List Answer) (h : s.answers = a :: rest) :
    draw s = (a, { s with answers := rest }) := by
  simp [draw, h]

/-- With no known answer the draw is a free value. -/
theorem draw_nil (s : State) (h : s.answers = []) :
    draw s = (Config.freeAnswer s.cfg.unit s.draws, { s with draws := s.draws + 1 }) := by
  simp [draw, h]

@[simp] theorem sstate_idle : Session.sstate .idle = .idle := rfl
@[simp] theorem sstate_active (b : Buffers) : Session.sstate (.active b) = .active := rfl
@[simp] theorem sstate_faulted (b : Buffers) : Session.sstate (.faulted b) = .faulted := rfl
@[simp] theorem toFaulted_idle : Session.toFaulted .idle = .idle := rfl
@[simp] theorem toFaulted_active (b : Buffers) : Session.toFaulted (.active b) = .faulted b := rfl
@[simp] theorem toFaulted_faulted (b : Buffers) : Session.toFaulted (.faulted b) = .faulted b := rfl

@[simp] theorem get_set_same (b : Buffers) (i : RbSel) (rb : RingBuffer) : (b.set i rb).get i = rb := by
  cases i <;> rfl

theorem get_set_other (b : Buffers) (i j : RbSel) (rb : RingBuffer) (h : j ≠ i) :
    (b.set i rb).get j = b.get j := by
  cases i <;> cases j <;> first | rfl | exact absurd rfl h

end Sys2Proof.Machine
end

