-- ==== Sys2Proof/Laws/Checks.lean ====
section
/-! SUPPORT. The checks every command passes (60_exceptions.md R229), and what an emission can do
(42_emitter.md R150, 60_exceptions.md R230): one lemma for each shared operation. -/

namespace Sys2Proof.Machine

variable {s : State}

theorem checkDin_ok {need : Nat} (h : s.din.length = need) (run : State) : checkDin need s run = run := by
  simp [checkDin, h]

theorem checkDin_bad {need : Nat} (h : s.din.length ≠ need) (run : State) :
    checkDin need s run = respond s .illegal 0 [] := by
  simp [checkDin, h]

theorem inActive_active {b : Buffers} (h : s.session = .active b) (run : Buffers → State) :
    inActive s run = run b := by
  simp [inActive, h]

theorem inActive_other (h : s.sstate ≠ .active) (run : Buffers → State) :
    inActive s run = respond s .badState 0 [] := by
  unfold State.sstate at h
  unfold inActive
  cases hs : s.session <;> simp_all

theorem inSession_some {b : Buffers} (h : s.session.buffers = some b) (run : Buffers → State) :
    inSession s run = run b := by
  unfold inSession
  cases hs : s.session <;> simp_all [Session.buffers]

theorem inSession_idle (h : s.session = .idle) (run : Buffers → State) :
    inSession s run = respond s .badState 0 [] := by
  simp [inSession, h]

theorem inIdle_idle (h : s.session = .idle) (run : State) : inIdle s run = run := by
  simp [inIdle, h]

theorem inIdle_other (h : s.session ≠ .idle) (run : State) :
    inIdle s run = respond s .badState 0 [] := by
  unfold inIdle
  cases hs : s.session <;> simp_all

/-- What `transmit` leaves when the write succeeds. -/
theorem transmit_ok (n : BatchSize) (fr : List Byte) (h : nextAnswer s = .ok) :
    ∃ t, transmit n fr s = (.ok, t) ∧ t.session = s.session ∧ t.fcause = s.fcause ∧
      t.ctr = s.ctr + BitVec.ofNat 16 (BatchSize.frames n) ∧ t.trace = s.trace ++ [.frame fr .ok] := by
  have hd : (draw { s with ctr := s.ctr + BitVec.ofNat 16 (BatchSize.frames n) }).1 = .ok := by
    rw [← h]; simp only [nextAnswer, draw]; cases s.answers <;> rfl
  simp only [transmit, hd]
  exact ⟨_, rfl, by simp⟩

/-- What `transmit` leaves when the write fails: FAULTED, cause 5, and the two events in order. -/
theorem transmit_fail (n : BatchSize) (fr : List Byte) (h : nextAnswer s = .fail) :
    ∃ t, transmit n fr s = (.fail, t) ∧ t.session = s.session.toFaulted ∧
      t.fcause = RStat.code .txFail ∧
      t.ctr = s.ctr + BitVec.ofNat 16 (BatchSize.frames n) ∧
      t.trace = s.trace ++ [.frame fr .fail, .fatal .txFail] := by
  have hd : (draw { s with ctr := s.ctr + BitVec.ofNat 16 (BatchSize.frames n) }).1 = .fail := by
    rw [← h]; simp only [nextAnswer, draw]; cases s.answers <;> rfl
  simp only [transmit, hd]
  exact ⟨_, rfl, by simp⟩

/-- Whatever TRANSPORT answers, an emission keeps what lies outside the block. -/
theorem transmit_environment (n : BatchSize) (fr : List Byte) (s : State) :
    (transmit n fr s).2.cfg = s.cfg ∧ (transmit n fr s).2.issuer = s.issuer ∧
    (transmit n fr s).2.turns = s.turns ∧ (transmit n fr s).2.host = s.host ∧
    (transmit n fr s).2.capture = s.capture ∧ (transmit n fr s).2.captured = s.captured ∧
    (transmit n fr s).2.hostLog = s.hostLog := by
  unfold transmit
  dsimp only
  split <;> simp

@[simp] theorem nextAnswer_emitEvent (s : State) (e : Event) : nextAnswer (emitEvent s e) = nextAnswer s := by
  simp only [nextAnswer, draw, emitEvent_answers, emitEvent_draws]
  cases s.answers <;> rfl

@[simp] theorem nextAnswer_setBuffers (s : State) (b : Buffers) :
    nextAnswer (setBuffers s b) = nextAnswer s := by
  simp only [nextAnswer, draw, setBuffers_answers, setBuffers_draws]
  cases s.answers <;> rfl

/-- Both outcomes of a draw. -/
theorem nextAnswer_cases (s : State) : nextAnswer s = .ok ∨ nextAnswer s = .fail := by
  cases nextAnswer s <;> simp

end Sys2Proof.Machine
end

