-- ==== Sys2Proof/Laws/Decode.lean ====
section
/-! SUPPORT. The fields of a packed word (30_encoding.md R71): packing and reading off are inverse. -/

namespace Sys2Proof

/-- A packed word as a number (R71). -/
theorem toNat_packWord (op sel : BitVec 4) (len : Nat) :
    (packWord op sel len).toNat = op.toNat * 2^28 + (sel.toNat * 2^24 + len % 2^24) := by
  have h1 := op.isLt; have h2 := sel.isLt
  have h3 : len % 2^24 < 2^24 := Nat.mod_lt _ (by decide)
  have e : (packWord op sel len).toNat
      = op.toNat <<< 28 ||| (sel.toNat <<< 24 ||| len % 2^24) := by
    simp only [packWord, BitVec.toNat_or, BitVec.toNat_shiftLeft, BitVec.toNat_setWidth, BitVec.toNat_ofNat,
      Nat.or_assoc, Nat.shiftLeft_eq]
    congr 1
    · omega
    · congr 1 <;> omega
  rw [e, ← Nat.shiftLeft_add_eq_or_of_lt h3, ← Nat.shiftLeft_add_eq_or_of_lt]
  · simp [Nat.shiftLeft_eq]
  · simp [Nat.shiftLeft_eq]; omega

theorem toNat_opField (w : Word) : (opField w).toNat = w.toNat / 2^28 := by
  have := w.isLt
  simp [opField, Nat.shiftRight_eq_div_pow]; omega

theorem toNat_selField (w : Word) : (selField w).toNat = w.toNat / 2^24 % 2^4 := by
  simp [selField, Nat.shiftRight_eq_div_pow]

theorem lenField_eq (w : Word) : lenField w = w.toNat % 2^24 := by
  simp [lenField]

@[simp] theorem opField_packWord (op sel : BitVec 4) (len : Nat) :
    opField (packWord op sel len) = op := by
  apply BitVec.eq_of_toNat_eq; have := sel.isLt
  rw [toNat_opField, toNat_packWord]; omega

@[simp] theorem selField_packWord (op sel : BitVec 4) (len : Nat) :
    selField (packWord op sel len) = sel := by
  apply BitVec.eq_of_toNat_eq; have := sel.isLt
  rw [toNat_selField, toNat_packWord]; omega

@[simp] theorem lenField_packWord (op sel : BitVec 4) (len : Nat) :
    lenField (packWord op sel len) = len % 2^24 := by
  have := sel.isLt
  rw [lenField_eq, toNat_packWord]; omega

/-- A word is packed from its own fields. -/
theorem packWord_fields (w : Word) : packWord (opField w) (selField w) (lenField w) = w := by
  apply BitVec.eq_of_toNat_eq
  have := w.isLt
  rw [toNat_packWord, toNat_opField, toNat_selField, lenField_eq]; omega

/-- LEN is a 24-bit count (R72). -/
theorem lenField_lt (w : Word) : lenField w < 2 ^ 24 := by rw [lenField_eq]; omega

end Sys2Proof
end

