-- ==== Sys2Proof/Laws/Memory.lean ====
section
/-! SUPPORT. The backing array: read after write, and every operation keeps the canonical form. -/

namespace Sys2Proof.Machine

/-- An index below every listed one reads as unlisted. -/
theorem Memory.read_below (m : Memory) (a : Nat) (h : ∀ x ∈ m, a < x.1) :
    m.read a = Memory.unlisted := by
  induction m with
  | nil => rfl
  | cons c m ih =>
    have hc := h c (by simp)
    simp only [Memory.read]
    rw [if_neg (by omega)]
    exact ih fun x hx => h x (by simp [hx])

/-- A store is listed only at the index written or where it was listed before. -/
theorem Memory.mem_write {m : Memory} {a : Nat} {b : Byte} {x : Host.Cell}
    (h : x ∈ m.write a b) : x = (a, b) ∧ b ≠ Memory.unlisted ∨ x ∈ m := by
  induction m with
  | nil =>
    simp only [Memory.write] at h
    split at h <;> simp_all
  | cons c m ih =>
    simp only [Memory.write] at h
    split at h
    · split at h <;> simp_all
    · split at h
      · split at h
        · exact .inr (by simp [h])
        · rcases List.mem_cons.1 h with h | h
          · exact .inl ⟨h, by assumption⟩
          · exact .inr (by simp [h])
      · rcases List.mem_cons.1 h with h | h
        · exact .inr (by simp [h])
        · rcases ih h with h | h
          · exact .inl h
          · exact .inr (by simp [h])

/-- A write keeps the canonical form. -/
theorem Memory.write_wf {m : Memory} (a : Nat) (b : Byte) (h : m.wf) : (m.write a b).wf := by
  refine ⟨?_, fun x hx => ?_⟩
  · induction m with
    | nil => simp only [Memory.write]; split <;> simp
    | cons c m ih =>
      obtain ⟨hp, hn⟩ := h
      obtain ⟨hc, hp⟩ := List.pairwise_cons.1 hp
      have ih := ih ⟨hp, fun x hx => hn x (by simp [hx])⟩
      simp only [Memory.write]
      split
      · split
        · exact List.pairwise_cons.2 ⟨hc, hp⟩
        · refine List.pairwise_cons.2 ⟨fun x hx => ?_, List.pairwise_cons.2 ⟨hc, hp⟩⟩
          rcases List.mem_cons.1 hx with rfl | hx
          · assumption
          · have := hc x hx
            simp only; omega
      · split
        · split
          · exact hp
          · refine List.pairwise_cons.2 ⟨fun x hx => ?_, hp⟩
            have := hc x hx
            simp only; omega
        · refine List.pairwise_cons.2 ⟨fun x hx => ?_, ih⟩
          rcases Memory.mem_write hx with ⟨rfl, _⟩ | hx
          · simp only; omega
          · exact hc x hx
  · rcases Memory.mem_write hx with ⟨rfl, hb⟩ | hx
    · exact hb
    · exact h.2 x hx

/-- Reading after a write (any memory in canonical form): the written index gives the byte, every
other index is as before. -/
theorem Memory.read_write {m : Memory} (h : m.wf) (a j : Nat) (b : Byte) :
    (m.write a b).read j = if j = a then b else m.read j := by
  induction m with
  | nil =>
    simp only [Memory.write]
    split <;> by_cases hj : j = a <;> simp_all [Memory.read, eq_comm]
  | cons c m ih =>
    obtain ⟨hp, hn⟩ := h
    obtain ⟨hc, hp⟩ := List.pairwise_cons.1 hp
    have ih := ih ⟨hp, fun x hx => hn x (by simp [hx])⟩
    have below : ∀ k, k ≤ c.1 → Memory.read m k = Memory.unlisted := fun k hk =>
      Memory.read_below m k fun x hx => by have := hc x hx; omega
    simp only [Memory.write]
    split
    · split
      · by_cases hj : j = a
        · subst hj
          simp only [Memory.read]
          rw [if_neg (by omega), below j (by omega)]
          simp_all
        · simp [hj]
      · by_cases hj : j = a
        · simp [hj, Memory.read]
        · rw [if_neg hj]
          conv_lhs => rw [Memory.read]
          rw [if_neg (by omega)]
    · split
      · rename_i hac
        split
        · by_cases hj : j = a
          · rw [if_pos hj, below j (by omega)]
            simp_all
          · simp only [Memory.read]
            rw [if_neg hj, if_neg (by omega)]
        · by_cases hj : j = a
          · simp [hj, Memory.read]
          · simp only [Memory.read]
            rw [if_neg (by omega), if_neg hj, if_neg (by omega)]
      · simp only [Memory.read]
        rw [ih]
        by_cases hj : c.1 = j
        · simp [hj, show ¬ j = a by omega]
        · simp [hj]

theorem Memory.store_wf {m : Memory} (cap pos : Nat) (s : List Byte) (h : m.wf) :
    (m.store cap pos s).wf := by
  induction s generalizing m pos with
  | nil => exact h
  | cons b s ih => exact ih (pos + 1) (Memory.write_wf _ _ h)

/-- A store lists no index beyond the capacity. -/
theorem Memory.store_below {m : Memory} {cap : Nat} (pos : Nat) (s : List Byte) (hc : 0 < cap)
    (h : ∀ x ∈ m, x.1 < cap) : ∀ x ∈ m.store cap pos s, x.1 < cap := by
  induction s generalizing m pos with
  | nil => exact h
  | cons b s ih =>
    refine ih (pos + 1) fun x hx => ?_
    rcases Memory.mem_write hx with ⟨rfl, _⟩ | hx
    · exact Nat.mod_lt _ hc
    · exact h x hx

/-- A store byte by byte, the last byte last. -/
theorem Memory.store_append (m : Memory) (cap pos : Nat) (s t : List Byte) :
    m.store cap pos (s ++ t) = (m.store cap pos s).store cap (pos + s.length) t := by
  induction s generalizing m pos with
  | nil => rfl
  | cons b s ih =>
    simp only [List.cons_append, Memory.store, ih, List.length_cons]
    congr 1
    omega

/-- An index the store does not reach is as before. -/
theorem Memory.read_store_other {m : Memory} (h : m.wf) (cap pos j : Nat) (s : List Byte)
    (hj : ∀ k, k < s.length → (pos + k) % cap ≠ j) : (m.store cap pos s).read j = m.read j := by
  induction s generalizing m pos with
  | nil => rfl
  | cons b s ih =>
    rw [Memory.store, ih (Memory.write_wf _ _ h), Memory.read_write h, if_neg]
    · exact fun e => hj 0 (by simp) (by simpa using e.symm)
    · intro k hk
      have := hj (k + 1) (by simpa using hk)
      rwa [show pos + 1 + k = pos + (k + 1) by omega]

/-- The indices of two positions less than a capacity apart differ. -/
theorem mod_ne_of_lt {cap a b : Nat} (h : a < b) (hb : b < a + cap) : a % cap ≠ b % cap := by
  intro e
  have hd : (b - a) % cap = 0 := Nat.sub_mod_eq_zero_of_mod_eq e.symm
  rw [Nat.mod_eq_of_lt (by omega)] at hd
  omega

/-- Each of the last `cap` bytes stored is read back at its index. -/
theorem Memory.read_store {m : Memory} (h : m.wf) (cap pos k : Nat) (s : List Byte)
    (hk : k < s.length) (hl : s.length ≤ k + cap) :
    (m.store cap pos s).read ((pos + k) % cap) = s[k] := by
  induction s using List.reverseRecOn with
  | nil => simp at hk
  | append_singleton s b ih =>
    simp only [List.length_append, List.length_singleton] at hk hl
    rw [Memory.store_append, Memory.store, Memory.store, Memory.read_write (Memory.store_wf _ _ _ h)]
    by_cases he : k = s.length
    · subst he; simp
    · rw [if_neg (mod_ne_of_lt (by omega) (by omega)), ih (by omega) (by omega)]
      simp [List.getElem_append_left (show k < s.length by omega)]

end Sys2Proof.Machine
end

