-- ==== Sys2Proof/Laws/RingBuffer.lean ====
section
/-! SUPPORT. What a ring buffer's operations do to its fill level and its content (10_state.md R25,
R26, 40_ringbuffer.md R102, R105, R114, R115). -/

namespace Sys2Proof.Machine

variable {cap : Nat} {rb : RingBuffer}

@[simp] theorem RingBuffer.write_cap (rb : RingBuffer) (s : List Byte) : (rb.write s).cap = rb.cap := rfl
@[simp] theorem RingBuffer.write_glitch (rb : RingBuffer) (s : List Byte) :
    (rb.write s).glitch = rb.glitch := rfl
@[simp] theorem RingBuffer.take_cap (rb : RingBuffer) (k : Nat) : (rb.take k).cap = rb.cap := rfl
@[simp] theorem RingBuffer.take_mem (rb : RingBuffer) (k : Nat) : (rb.take k).mem = rb.mem := rfl
@[simp] theorem RingBuffer.take_end (rb : RingBuffer) (k : Nat) : (rb.take k).end_ = rb.end_ := rfl
@[simp] theorem RingBuffer.take_glitch (rb : RingBuffer) (k : Nat) :
    (rb.take k).glitch = rb.glitch := rfl
@[simp] theorem RingBuffer.countUnderrun_len (rb : RingBuffer) :
    rb.countUnderrun.len = rb.len := rfl
@[simp] theorem RingBuffer.countUnderrun_content (rb : RingBuffer) :
    rb.countUnderrun.content = rb.content := rfl
@[simp] theorem RingBuffer.countUnderrun_glitch (rb : RingBuffer) :
    rb.countUnderrun.glitch = rb.glitch + 1 := rfl

/-- `|content(i)| = len(i)` (R26). -/
@[simp] theorem RingBuffer.length_content (rb : RingBuffer) : rb.content.length = rb.len := by
  simp [RingBuffer.content]

theorem RingBuffer.getElem_content (rb : RingBuffer) (k : Nat) (h : k < rb.content.length) :
    rb.content[k] = rb.mem.read ((rb.start + k) % rb.cap) := by
  simp [RingBuffer.content, RingBuffer.byteAt]

/-- `0 ≤ len(i) ≤ cap` (R25). -/
theorem RingBuffer.len_le (h : rb.Wf cap) : rb.len ≤ cap := by
  obtain ⟨hc, h0, -⟩ := h
  have := Nat.mod_lt (rb.end_ + rb.cap - rb.start) (hc ▸ h0)
  unfold RingBuffer.len
  split
  · split <;> omega
  · omega

/-- The write cursor is the fill level past the read cursor. -/
theorem RingBuffer.end_eq (h : rb.Wf cap) : rb.end_ = (rb.start + rb.len) % cap := by
  obtain ⟨rfl, h0, hs, he, hd, -⟩ := h
  unfold RingBuffer.len
  split
  · split
    · rename_i e; rw [Nat.add_mod_right, Nat.mod_eq_of_lt hs, e]
    · rw [Nat.add_mod_mod, show rb.start + (rb.end_ + rb.cap - rb.start) = rb.end_ + rb.cap by omega,
        Nat.add_mod_right, Nat.mod_eq_of_lt he]
  · rw [Nat.add_zero, Nat.mod_eq_of_lt hs]; exact (hd (by simp_all)).symm

/-- The flag of a buffer that is well formed says whether it holds a byte (R24, R35). -/
theorem RingBuffer.hasData_iff (h : rb.Wf cap) : rb.hasData = true ↔ 0 < rb.len := by
  obtain ⟨rfl, h0, hs, he, -⟩ := h
  unfold RingBuffer.len
  constructor
  · intro hd
    rw [if_pos hd]
    split
    · exact h0
    · rename_i hne
      by_cases hlt : rb.start < rb.end_
      · rw [show rb.end_ + rb.cap - rb.start = (rb.end_ - rb.start) + rb.cap by omega,
          Nat.add_mod_right, Nat.mod_eq_of_lt (by omega)]; omega
      · rw [Nat.mod_eq_of_lt (by omega)]; omega
  · intro hl
    by_contra hd
    simp [hd] at hl

/-- The fill level read off from the cursors of a buffer whose flag is set: the one number above 0
and not above the capacity that leads from `start` to `end`. -/
theorem RingBuffer.len_unique {L : Nat} (h0 : 0 < L) (hL : L ≤ rb.cap) (hs : rb.start < rb.cap)
    (he : rb.end_ = (rb.start + L) % rb.cap) (hd : rb.hasData = true) : rb.len = L := by
  unfold RingBuffer.len
  rw [if_pos hd]
  rcases Nat.lt_or_eq_of_le hL with hL | rfl
  · have hne : rb.start ≠ rb.end_ := by
      rw [he]
      have := mod_ne_of_lt (cap := rb.cap) (a := rb.start) (b := rb.start + L) (by omega) (by omega)
      rwa [Nat.mod_eq_of_lt hs] at this
    rw [if_neg hne, he]
    by_cases hw : rb.start + L < rb.cap
    · rw [Nat.mod_eq_of_lt hw, show rb.start + L + rb.cap - rb.start = L + rb.cap by omega,
        Nat.add_mod_right, Nat.mod_eq_of_lt hL]
    · rw [Nat.mod_eq_sub_mod (show rb.start + L ≥ rb.cap by omega),
        Nat.mod_eq_of_lt (show rb.start + L - rb.cap < rb.cap by omega), show rb.start + L - rb.cap + rb.cap - rb.start = L by omega, Nat.mod_eq_of_lt hL]
  · rw [if_pos]
    rw [he, Nat.add_mod_right, Nat.mod_eq_of_lt hs]

/-- A write of at least one byte: the fill level is the sum, up to the capacity (R102, R114). -/
theorem RingBuffer.len_write (h : rb.Wf cap) {s : List Byte} (hs : s ≠ []) :
    (rb.write s).len = min cap (rb.len + s.length) := by
  have hl := RingBuffer.len_le h
  have he := RingBuffer.end_eq h
  obtain ⟨rfl, h0, hst, -⟩ := h
  have hn : 0 < s.length := List.length_pos_iff.2 hs
  refine RingBuffer.len_unique (by omega) (Nat.min_le_left _ _) (Nat.mod_lt _ h0) ?_ ?_
  · simp only [RingBuffer.write, RingBuffer.overflow]
    rw [he, Nat.mod_add_mod, Nat.mod_add_mod]
    rcases Nat.le_total rb.cap (rb.len + s.length) with hle | hle
    · rw [show rb.start + (rb.len + s.length - rb.cap) + min rb.cap (rb.len + s.length)
        = rb.start + rb.len + s.length by omega]
    · rw [show rb.start + (rb.len + s.length - rb.cap) + min rb.cap (rb.len + s.length)
        = rb.start + rb.len + s.length by omega]
  · simp [RingBuffer.write, hasDataAfterWrite, Nat.pos_iff_ne_zero.1 hn]

/-- A write of at least one byte: the content is the last `cap` bytes of the old content followed by
the new bytes (R102). -/
theorem RingBuffer.content_write (h : rb.Wf cap) {s : List Byte} (hs : s ≠ []) :
    (rb.write s).content = lastBytes cap (rb.content ++ s) := by
  have hlen := RingBuffer.len_write h hs
  have hl := RingBuffer.len_le h
  have he := RingBuffer.end_eq h
  obtain ⟨rfl, h0, hst, -, -, hm, -⟩ := h
  apply List.ext_getElem
  · simp [lastBytes, hlen]; omega
  · intro k h1 h2
    rw [RingBuffer.getElem_content]
    simp only [RingBuffer.length_content, hlen] at h1
    simp only [lastBytes, List.getElem_drop, List.length_append, RingBuffer.length_content,
      RingBuffer.write, RingBuffer.overflow, Nat.mod_add_mod]
    by_cases hk : rb.len + s.length - rb.cap + k < rb.len
    · rw [List.getElem_append_left (by simpa using hk), RingBuffer.getElem_content,
        Memory.read_store_other hm, Nat.add_assoc]
      intro m hm'
      rw [he, Nat.mod_add_mod]
      exact (mod_ne_of_lt (by omega) (by omega)).symm
    · rw [List.getElem_append_right (by simpa using hk)]
      have := Memory.read_store hm rb.cap rb.end_ (rb.len + s.length - rb.cap + k - rb.len) s
        (by omega) (by omega)
      simp only [RingBuffer.length_content]
      rw [← this, he, Nat.mod_add_mod]
      congr 2
      omega

/-- A write keeps a buffer well formed (R115). -/
theorem RingBuffer.write_wf (h : rb.Wf cap) {s : List Byte} (hs : s ≠ []) : (rb.write s).Wf cap := by
  obtain ⟨rfl, h0, -, -, -, hm, hb⟩ := h
  refine ⟨rfl, h0, Nat.mod_lt _ h0, Nat.mod_lt _ h0, fun e => ?_, Memory.store_wf _ _ _ hm,
    Memory.store_below _ _ h0 hb⟩
  simp [RingBuffer.write, hasDataAfterWrite, hs] at e

/-- Taking `k` held bytes lowers the fill level by `k` (R114). -/
theorem RingBuffer.len_take (h : rb.Wf cap) {k : Nat} (hk : k ≤ rb.len) :
    (rb.take k).len = rb.len - k := by
  have hl := RingBuffer.len_le h
  have he := RingBuffer.end_eq h
  have hd := RingBuffer.hasData_iff h
  obtain ⟨rfl, h0, hst, -⟩ := h
  by_cases hkl : k = rb.len
  · subst hkl
    simp [RingBuffer.len, RingBuffer.take, hasDataAfterTake]
  · refine RingBuffer.len_unique (by omega) (by simp; omega) (Nat.mod_lt _ h0) ?_ ?_
    · simp only [RingBuffer.take, Nat.mod_add_mod]
      rw [he]; congr 1; omega
    · simp [RingBuffer.take, hasDataAfterTake, hkl]
      exact hd.2 (by omega)

/-- Taking `k` held bytes leaves the content without its `k` oldest bytes (R105, R133). -/
theorem RingBuffer.content_take (h : rb.Wf cap) {k : Nat} (hk : k ≤ rb.len) :
    (rb.take k).content = rb.content.drop k := by
  have hlen := RingBuffer.len_take h hk
  apply List.ext_getElem
  · simp [hlen]
  · intro j h1 h2
    rw [RingBuffer.getElem_content, List.getElem_drop, RingBuffer.getElem_content]
    simp only [RingBuffer.take, Nat.mod_add_mod, Nat.add_assoc]

/-- Taking held bytes keeps a buffer well formed (R115). -/
theorem RingBuffer.take_wf (h : rb.Wf cap) {k : Nat} (hk : k ≤ rb.len) : (rb.take k).Wf cap := by
  have he := RingBuffer.end_eq h
  obtain ⟨rfl, h0, hst, hen, hd, hm, hb⟩ := h
  refine ⟨rfl, h0, Nat.mod_lt _ h0, hen, fun e => ?_, hm, hb⟩
  simp only [RingBuffer.take, hasDataAfterTake] at e ⊢
  by_cases hkl : k = rb.len
  · rw [he, hkl]
  · simp only [hkl, if_false] at e
    have : rb.len = 0 := by simp [RingBuffer.len, e]
    omega

theorem RingBuffer.countUnderrun_wf (h : rb.Wf cap) : rb.countUnderrun.Wf cap :=
  ⟨h.1, h.2, h.3, h.4, h.5, h.6, h.7⟩

/-- A new ring buffer is empty (R200). -/
@[simp] theorem RingBuffer.create_len (cap : Nat) : (RingBuffer.create cap).len = 0 := rfl
@[simp] theorem RingBuffer.create_content (cap : Nat) : (RingBuffer.create cap).content = [] := rfl

theorem RingBuffer.create_wf (h : 0 < cap) : (RingBuffer.create cap).Wf cap :=
  ⟨rfl, h, h, h, fun _ => rfl, ⟨List.Pairwise.nil, by simp [RingBuffer.create]⟩,
    by simp [RingBuffer.create]⟩

/-- What a read returns has the length asked for (R78). -/
theorem RingBuffer.length_readOut (rb : RingBuffer) (n : Nat) : (rb.readOut n).length = n := by
  simp [RingBuffer.readOut, zeros]; omega

end Sys2Proof.Machine
end

