-- ==== Sys2Proof/Laws/Step.lean ====
section
/-! SUPPORT. What one step can do to the block: nothing, or what one command does (00_scope.md R6).
Every invariant of the block follows from its commands through this one lemma. -/

namespace Sys2Proof.Machine

theorem State.SameBlock.refl (s : State) : s.SameBlock s := ⟨rfl, rfl, rfl, rfl, rfl⟩

/-- If there is a next state after `andThen`, there was one before. -/
theorem andThen_next {o : Host.Outcome State Fault Refusal}
    {k : State → Host.Outcome State Fault Refusal} {t : State} (h : andThen o k = .next t) :
    ∃ v, o = .next v ∧ k v = .next t := by
  cases o with
  | next v => exact ⟨v, rfl, h⟩
  | fault f => nomatch h
  | refused r => nomatch h

/-- What a turn can do to the block: nothing, or one command. -/
def ActsOnce (s t : State) : Prop :=
  s.SameBlock t ∨ ∃ i u v, exec i u = .next v ∧ s.SameBlock u ∧ v.SameBlock t

/-- Issuing a transaction runs one command, or nothing for an illegal word. -/
theorem issue_actsOnce {a : Agent} {tx : Transaction} {s t : State} (h : issue a tx s = .next t) :
    ActsOnce s t := by
  unfold issue at h
  split at h
  · exact .inr ⟨_, _, t, h, ⟨rfl, rfl, rfl, rfl, rfl⟩, .refl t⟩
  · cases h; exact .inl ⟨rfl, rfl, rfl, rfl, rfl⟩

theorem ActsOnce.trans_left {s s' t : State} (h : s.SameBlock s') (g : ActsOnce s' t) :
    ActsOnce s t := by
  obtain ⟨h1, h2, h3, h4, h5⟩ := h
  rcases g with ⟨g1, g2, g3, g4, g5⟩ | ⟨i, u, v, e, ⟨g1, g2, g3, g4, g5⟩, g⟩
  · exact .inl ⟨g1.trans h1, g2.trans h2, g3.trans h3, g4.trans h4, g5.trans h5⟩
  · exact .inr ⟨i, u, v, e, ⟨g1.trans h1, g2.trans h2, g3.trans h3, g4.trans h4, g5.trans h5⟩, g⟩

theorem ActsOnce.trans_right {s t' t : State} (g : ActsOnce s t') (h : t'.SameBlock t) :
    ActsOnce s t := by
  obtain ⟨h1, h2, h3, h4, h5⟩ := h
  rcases g with ⟨g1, g2, g3, g4, g5⟩ | ⟨i, u, v, e, g, ⟨g1, g2, g3, g4, g5⟩⟩
  · exact .inl ⟨h1.trans g1, h2.trans g2, h3.trans g3, h4.trans g4, h5.trans g5⟩
  · exact .inr ⟨i, u, v, e, g, ⟨h1.trans g1, h2.trans g2, h3.trans g3, h4.trans g4, h5.trans g5⟩⟩

/-- A command and then a change outside the block. -/
theorem issue_then_actsOnce {a : Agent} {tx : Transaction} {s t : State}
    {k : State → Host.Outcome State Fault Refusal} (h : andThen (issue a tx s) k = .next t)
    (hk : ∀ v, k v = .next t → v.SameBlock t) : ActsOnce s t := by
  obtain ⟨v, h1, h2⟩ := andThen_next h
  exact (issue_actsOnce h1).trans_right (hk v h2)

/-- The HOST's reaction to a response changes nothing of the block. -/
theorem hostReact_sameBlock (tx : Transaction) (t : State) : t.SameBlock (hostReact tx t) := by
  unfold hostReact afterStart afterStop
  repeat' split
  all_goals exact ⟨rfl, rfl, rfl, rfl, rfl⟩

/-- Halting CAPTURE changes nothing of the block. -/
theorem hostPrepare_sameBlock (tx : Transaction) (s : State) : s.SameBlock (hostPrepare tx s) := by
  unfold hostPrepare
  split <;> exact ⟨rfl, rfl, rfl, rfl, rfl⟩

/-- A command of the HOST, its reaction included, acts at most once on the block. -/
theorem hostCommand_actsOnce {tx : Transaction} {s t : State} (h : hostCommand tx s = .next t) :
    ActsOnce s t :=
  .trans_left (hostPrepare_sameBlock tx s) <|
    issue_then_actsOnce h fun v hv => by cases hv; exact hostReact_sameBlock tx v

theorem hostWritePcm_actsOnce {col : Collaborators} {blk : CaptureBlock} {s t : State}
    (h : hostWritePcm col blk s = .next t) : ActsOnce s t := by
  unfold hostWritePcm at h
  refine .trans_left (s' := note s (capturePcm col s.cfg blk).2) ⟨rfl, rfl, rfl, rfl, rfl⟩
    (issue_then_actsOnce h fun v hv => ?_)
  cases hv
  exact ⟨rfl, rfl, rfl, rfl, rfl⟩

theorem takeCommand_actsOnce {a : Agent} {tx : Transaction} {s t : State}
    (h : takeCommand a tx s = .next t) : ActsOnce s t := by
  cases a with
  | host => exact hostCommand_actsOnce h
  | observer n => exact issue_actsOnce h

theorem hostTurn_actsOnce {col : Collaborators} {s t : State} (h : hostTurn col s = .next t) :
    ActsOnce s t := by
  unfold hostTurn at h
  split at h
  · unfold hostBegin at h
    split at h
    · cases h; exact .inl (.refl s)
    · rename_i rest _
      exact .trans_left (s' := { s with captured := rest }) ⟨rfl, rfl, rfl, rfl, rfl⟩
        (hostWritePcm_actsOnce h)
  · exact issue_then_actsOnce h fun v hv => by cases hv; exact ⟨rfl, rfl, rfl, rfl, rfl⟩
  · refine issue_then_actsOnce h fun v hv => ?_
    unfold hostEncode at hv
    dsimp only at hv
    split at hv
    · cases hv; exact ⟨rfl, rfl, rfl, rfl, rfl⟩
    · split at hv
      · cases hv; exact ⟨rfl, rfl, rfl, rfl, rfl⟩
      · nomatch hv
  · exact issue_then_actsOnce h fun v hv => by cases hv; exact ⟨rfl, rfl, rfl, rfl, rfl⟩
  · obtain ⟨v, h1, h2⟩ := andThen_next h
    refine (hostCommand_actsOnce h1).trans_right ?_
    cases h2
    split <;> exact ⟨rfl, rfl, rfl, rfl, rfl⟩
  · exact hostCommand_actsOnce h
  · exact hostCommand_actsOnce h

theorem deliver_actsOnce {col : Collaborators} {blk : CaptureBlock} {s t : State}
    (h : deliver col blk s = .next t) : ActsOnce s t := by
  unfold deliver at h
  split at h
  · cases h; exact .inl (.refl s)
  · split at h
    · exact hostWritePcm_actsOnce h
    · cases h; exact .inl ⟨rfl, rfl, rfl, rfl, rfl⟩

theorem takeEntry_actsOnce {col : Collaborators} {x : Turn} {s t : State}
    (h : takeEntry col x s = .next t) : ActsOnce s t := by
  cases x with
  | command a tx => exact takeCommand_actsOnce h
  | waitFill a i k =>
    refine issue_then_actsOnce h fun v hv => ?_
    cases hv
    split <;> exact ⟨rfl, rfl, rfl, rfl, rfl⟩
  | capture blk => exact deliver_actsOnce h
  | host => exact hostTurn_actsOnce h
  | start => exact hostCommand_actsOnce (tx := AsmLine.sessStart.assemble) h
  | stop => exact hostCommand_actsOnce (tx := AsmLine.sessStop.assemble) h
  | captureStart => cases h; exact .inl ⟨rfl, rfl, rfl, rfl, rfl⟩
  | captureHalt => cases h; exact .inl ⟨rfl, rfl, rfl, rfl, rfl⟩

theorem takeTurn_actsOnce {col : Collaborators} {x : Turn} {s t : State}
    (h : takeTurn col x s = .next t) : ActsOnce s t := by
  unfold takeTurn at h
  split at h
  · obtain ⟨v, h1, h2⟩ := andThen_next h
    refine (hostTurn_actsOnce h1).trans_right ?_
    cases h2
    exact ⟨rfl, rfl, rfl, rfl, rfl⟩
  · exact takeEntry_actsOnce h

/-- One step of the machine changes nothing of the block, or does what one command does. -/
theorem step_actsOnce {s t : State} (h : step s = .next t) : ActsOnce s t := by
  unfold step stepWith at h
  split at h
  · split at h
    · cases h; exact .inl (.refl s)
    · refine ActsOnce.trans_left ?_ (takeTurn_actsOnce h)
      exact ⟨rfl, rfl, rfl, rfl, rfl⟩
  · nomatch h

end Sys2Proof.Machine
end

