-- ==== Sys2Proof/Laws/Agents.lean ====
section
/-! SUPPORT. The commands the HOST issues decode to themselves, and what each turn of its per-block
program can do (41_batch.md R138 to R143). -/

namespace Sys2Proof.Machine

/-! ## The words of the commands an agent issues -/

@[simp] theorem decode_encode_rbLen (i : RbSel) : decode (encode (.rbLen i)) = .ok (.rbLen i) := by
  cases i <;> rfl

theorem decode_encode_rbRead (i : RbSel) {n : Nat} (h : n < 2 ^ 24) :
    decode (encode (.rbRead i n)) = .ok (.rbRead i n) := by
  cases i <;>
    simp [encode, decode, decodeRb, RbSel.code, Nat.mod_eq_of_lt (show n < 16777216 by omega)]

/-- A count above the LEN field is cut to its low 24 bits (R11). -/
theorem decode_encode_rbWrite (i : RbSel) (n : Nat) :
    decode (encode (.rbWrite i n)) = .ok (.rbWrite i (n % 2 ^ 24)) := by
  cases i <;> simp [encode, decode, decodeRb, RbSel.code]

@[simp] theorem decode_encode_batchSel : decode (encode .batchSel) = .ok .batchSel := rfl
@[simp] theorem decode_encode_sessStart : decode (encode .sessStart) = .ok .sessStart := rfl
@[simp] theorem decode_encode_sessStop : decode (encode .sessStop) = .ok .sessStop := rfl

/-- Issuing a word that decodes runs its command on the issuer's data. -/
theorem issue_of_decode {a : Agent} {tx : Transaction} {i : Instr} (h : decode tx.word = .ok i)
    (s : State) : issue a tx s = exec i { s with issuer := a, din := tx.din } := by
  simp only [issue, h]

/-! ## Draws -/

/-- The next answer depends only on the instance and what is known of its draws. -/
theorem nextAnswer_congr {s t : State} (hc : s.cfg = t.cfg) (ha : s.answers = t.answers)
    (hd : s.draws = t.draws) : nextAnswer s = nextAnswer t := by
  unfold nextAnswer draw
  rw [hc, ha, hd]
  cases t.answers <;> rfl

@[simp] theorem nextAnswer_issued (s : State) (a : Agent) (d : List Byte) :
    nextAnswer { s with issuer := a, din := d } = nextAnswer s := nextAnswer_congr rfl rfl rfl

/-! ## The order after a poll has yielded (R60, R82) -/

/-- The two parts of a split are the whole order. -/
theorem roundOf_append (seen : List (Option Agent)) (rest : List Turn) :
    (roundOf seen rest).1 ++ (roundOf seen rest).2 = rest := by
  induction rest generalizing seen with
  | nil => rfl
  | cons x xs ih =>
    unfold roundOf
    split
    · rfl
    · simp [ih]

/-- Everyone with an entry in the second part has moved in the first, or was in `seen`. -/
theorem roundOf_covers (seen : List (Option Agent)) (rest : List Turn) :
    ∀ y ∈ (roundOf seen rest).2, y.mover ∈ seen ∨ ∃ x ∈ (roundOf seen rest).1, x.mover = y.mover := by
  induction rest generalizing seen with
  | nil => intro y hy; nomatch hy
  | cons x xs ih =>
    intro y hy
    unfold roundOf at hy ⊢
    split at hy
    · rename_i h
      left
      simpa using List.all_eq_true.1 h y hy
    · rename_i h
      rw [if_neg h]
      rcases ih (x.mover :: seen) y hy with h1 | ⟨z, hz, he⟩
      · rcases List.mem_cons.1 h1 with h1 | h1
        · exact .inr ⟨x, by simp, h1.symm⟩
        · exact .inl h1
      · exact .inr ⟨z, by simp [hz], he⟩

/-- The polling agent's own entries keep their order behind the poll. -/
theorem yieldPoll_own {a : Agent} {poll : Turn} (hp : poll.movedBy a = true) (rest : List Turn) :
    (yieldPoll a poll rest).filter (Turn.movedBy a) = poll :: rest.filter (Turn.movedBy a) := by
  conv_rhs => rw [← roundOf_append [some a] rest]
  simp [yieldPoll, hp, List.filter_append, List.filter_filter]

/-- The entries of the others keep their order. -/
theorem yieldPoll_others {a : Agent} {poll : Turn} (hp : poll.movedBy a = true) (rest : List Turn) :
    ((yieldPoll a poll rest).filter fun x => !x.movedBy a) = rest.filter fun x => !x.movedBy a := by
  conv_rhs => rw [← roundOf_append [some a] rest]
  simp [yieldPoll, hp, List.filter_append, List.filter_filter]

/-- Taking entries up to one of another mover and dropping one's own commute. -/
theorem takeWhile_filter_movedBy {a : Agent} {m : Option Agent} (hm : m ≠ some a) (ts : List Turn) :
    ((ts.filter fun x => !x.movedBy a).takeWhile fun x => x.mover ≠ m) =
      (ts.takeWhile fun x => x.mover ≠ m).filter fun x => !x.movedBy a := by
  induction ts with
  | nil => rfl
  | cons x xs ih =>
    by_cases hx : x.mover = m
    · have : x.movedBy a = false := by simp [Turn.movedBy, hx, hm]
      simp [hx, this]
    · by_cases hy : x.movedBy a = true <;> simp_all

/-- Entries after the first one of a mover do not matter to what stands before it. -/
theorem takeWhile_append_of_mem {m : Option Agent} {ts : List Turn} (h : ∃ x ∈ ts, x.mover = m)
    (us : List Turn) : ((ts ++ us).takeWhile fun x => x.mover ≠ m) = ts.takeWhile fun x => x.mover ≠ m := by
  induction ts with
  | nil => obtain ⟨x, hx, -⟩ := h; nomatch hx
  | cons x xs ih =>
    by_cases hx : x.mover = m
    · simp [hx]
    · have : ∃ y ∈ xs, y.mover = m := by
        obtain ⟨y, hy, he⟩ := h
        rcases List.mem_cons.1 hy with rfl | hy
        · exact absurd he hx
        · exact ⟨y, hy, he⟩
      simpa [hx] using ih this

/-- Before the next entry of another mover nothing is put, and the polling agent's own entries are
taken away. -/
theorem yieldPoll_next {a : Agent} {m : Option Agent} (poll : Turn) {rest : List Turn}
    (hm : m ≠ some a) (h : ∃ x ∈ rest, x.mover = m) :
    (∃ x ∈ yieldPoll a poll rest, x.mover = m) ∧
    ((yieldPoll a poll rest).takeWhile fun x => x.mover ≠ m) =
      (rest.takeWhile fun x => x.mover ≠ m).filter fun x => !x.movedBy a := by
  have hr : ∃ x ∈ (roundOf [some a] rest).1, x.mover = m := by
    obtain ⟨x, hx, rfl⟩ := h
    rw [← roundOf_append [some a] rest] at hx
    rcases List.mem_append.1 hx with hx | hx
    · exact ⟨x, hx, rfl⟩
    · rcases roundOf_covers _ _ x hx with h1 | h1
      · exact absurd (by simpa using h1) hm
      · exact h1
  have hf : ∃ x ∈ (roundOf [some a] rest).1.filter (fun x => !x.movedBy a), x.mover = m := by
    obtain ⟨x, hx, rfl⟩ := hr
    exact ⟨x, List.mem_filter.2 ⟨hx, by simp [Turn.movedBy, hm]⟩, rfl⟩
  refine ⟨?_, ?_⟩
  · obtain ⟨x, hx, he⟩ := hf
    exact ⟨x, List.mem_append_left _ hx, he⟩
  · conv_rhs => rw [← roundOf_append [some a] rest]
    unfold yieldPoll
    rw [takeWhile_append_of_mem hf, takeWhile_append_of_mem hr, takeWhile_filter_movedBy hm]

/-! ## The HOST's reaction to a response (R224) -/

theorem hostReact_of_txFail {tx : Transaction} {t : State} (h : lastRstat t = some .txFail) :
    hostReact tx t = stopAfterFailure t := by simp [hostReact, h]

/-- A response other than TX_FAIL to a command other than session control calls for nothing. -/
theorem hostReact_of_other {tx : Transaction} {t : State} (h : lastRstat t ≠ some .txFail)
    (h1 : tx.word ≠ encode .sessStart) (h2 : tx.word ≠ encode .sessStop) : hostReact tx t = t := by
  unfold hostReact
  rw [if_neg h, if_neg h1, if_neg h2]

/-- The SESS_STOP that the HOST owes, when it answers OK, is reported and leaves no callback. -/
theorem hostReact_of_stopped {d : List Byte} {t : State} (h : lastRstat t = some .ok)
    (ho : t.host.owes = true) :
    hostReact ⟨encode .sessStop, d⟩ t = setHost (note t [.sessionFailed]) .idle := by
  simp [hostReact, afterStop, h, ho, show encode Instr.sessStop ≠ encode .sessStart by decide]

/-- Only SESS_STOP has CAPTURE halted first. -/
theorem hostPrepare_of_other {tx : Transaction} {s : State} (h : tx.word ≠ encode .sessStop) :
    hostPrepare tx s = s := if_neg fun c => h c.1

/-- A CAPTURE that was started is halted before SESS_STOP. -/
theorem hostPrepare_of_started {tx : Transaction} {s : State} (h : tx.word = encode .sessStop)
    (hc : s.capture = .started) : hostPrepare tx s = haltCapture s := if_pos ⟨h, hc⟩

/-! ## The invariant, taken apart -/

theorem State.Inv.constraints {s : State} (h : s.Inv) : s.cfg.Constraints := of_decide_eq_true h.legal

theorem State.Inv.wf {s : State} (h : s.Inv) {b : Buffers} (hb : s.session.buffers = some b) :
    b.Wf s.cfg := by
  have := h.buffers
  unfold Session.buffers at hb
  split at hb <;> simp_all [Session.Wf]

theorem State.Inv.of_active {s : State} {b : Buffers} (hl : s.cfg.legal = true)
    (hs : s.session = .active b) (hw : b.Wf s.cfg) (hf : s.fcause = 0) : s.Inv :=
  ⟨hl, by rw [hs]; exact hw, by simp [State.sstate, hs, causeLegal, hf]⟩

/-! ## Turns of the per-block program -/

/-- The loop test goes on to a read while RB[0] holds C bytes (R142). -/
theorem hostTest_next {s : State} {b : Buffers} (hi : s.Inv) (hs : s.session = .active b) :
    ∃ t, hostTest s = .next t ∧ t.session = s.session ∧ t.cfg = s.cfg ∧ t.fcause = s.fcause ∧
      t.host = (if s.cfg.codeSize ≤ b.rb0.len then .read else .batch) := by
  have hw := hi.wf (b := b) (by rw [hs]; rfl)
  have hl := RingBuffer.len_le hw.rb0
  have hc := hi.constraints.1.2
  simp only [hostTest, issue, AsmLine.assemble, AsmLine.instr, AsmLine.din, decode_encode_rbLen,
    exec, execRbLen, checkDin, inSession, hs, andThen]
  refine ⟨_, rfl, rfl, rfl, rfl, ?_⟩
  simp [lastRval, Buffers.get]
  rw [Nat.mod_eq_of_lt (by omega)]

/-- A read takes the C oldest bytes of RB[0] and gives them to the encoder (R141, R142). -/
theorem hostRead_encode {col : Collaborators} {s : State} {b : Buffers} (hi : s.Inv)
    (hs : s.session = .active b) (hC : s.cfg.codeSize ≤ b.rb0.len) :
    ∃ t, hostRead col s = hostEncode col t ∧ t.cfg = s.cfg ∧ t.fcause = s.fcause ∧
      t.hostLog = s.hostLog ∧ t.session = .active (b.set .rb0 (b.rb0.take s.cfg.codeSize)) ∧
      lastDout t = b.rb0.content.take s.cfg.codeSize := by
  have hc := hi.constraints.2.2.2.1
  simp only [hostRead, issue, AsmLine.assemble, AsmLine.instr, AsmLine.din,
    decode_encode_rbRead .rb0 (show s.cfg.codeSize < 2 ^ 24 by omega), exec, execRbRead, checkDin,
    inActive, hs, andThen, rbRead, Buffers.get, List.length_nil, if_true]
  rw [if_neg (by omega), if_neg (by omega), Nat.min_eq_right hC]
  exact ⟨_, rfl, rfl, rfl, rfl, rfl, by
    simp [lastDout, RingBuffer.readOut, zeros, Nat.sub_eq_zero_of_le hC]⟩

/-- Appending an output block leaves RB[0] alone and goes back to the loop test (R142). -/
theorem hostAppend_next {s : State} {b : Buffers} {out : List Byte} (hi : s.Inv)
    (hs : s.session = .active b) :
    ∃ t b', hostAppend out s = .next t ∧ t.cfg = s.cfg ∧ t.fcause = s.fcause ∧ t.host = .test ∧
      t.session = .active b' ∧ b'.rb0 = b.rb0 ∧ b'.rb1.Wf s.cfg.cap1 := by
  have hw := hi.wf (b := b) (by rw [hs]; rfl)
  simp only [hostAppend, issue, AsmLine.assemble, AsmLine.instr, AsmLine.din,
    decode_encode_rbWrite, exec, execRbWrite, checkDin, inActive, hs, andThen]
  split
  · unfold rbWrite
    split
    · exact ⟨_, b, rfl, rfl, rfl, rfl, rfl, rfl, hw.rb1⟩
    · refine ⟨_, _, rfl, rfl, rfl, rfl, rfl, rfl, RingBuffer.write_wf hw.rb1 ?_⟩
      rintro rfl
      simp_all
  · exact ⟨_, b, rfl, rfl, rfl, rfl, rfl, rfl, hw.rb1⟩

/-- Turns in a row are taken one part after the other. -/
theorem runHost_add (col : Collaborators) (j k : Nat) (s t : State)
    (h : runHost col j s = .next t) : runHost col (j + k) s = runHost col k t := by
  induction j generalizing s with
  | zero => cases h; simp
  | succ j ih =>
    rw [show j + 1 + k = (j + k) + 1 by omega]
    simp only [runHost] at h ⊢
    obtain ⟨v, h1, h2⟩ := andThen_next h
    rw [h1]
    exact ih v h2

end Sys2Proof.Machine
end

