-- ==== Sys2Proof/Laws/Frame.lean ====
section
/-! SUPPORT. Writing bytes into a frame (42_emitter.md R150): each phase of the sequencer replaces
its own bytes and no others. -/

namespace Sys2Proof.Machine

@[simp] theorem length_putBytes (fr : List Byte) (off : Nat) (bs : List Byte) :
    (putBytes fr off bs).length = fr.length := by
  induction bs generalizing fr off with
  | nil => rfl
  | cons b bs ih => simp [putBytes, ih]

/-- A phase that writes `bs` after the bytes `pre` replaces the next `|bs|` bytes. -/
theorem putBytes_append (pre mid post bs : List Byte) (off : Nat) (ho : off = pre.length)
    (hm : mid.length = bs.length) : putBytes (pre ++ mid ++ post) off bs = pre ++ bs ++ post := by
  induction bs generalizing pre mid off with
  | nil => simp [putBytes, List.length_eq_zero_iff.1 hm]
  | cons b bs ih =>
    cases mid with
    | nil => simp at hm
    | cons m mid =>
      subst ho
      have := ih (pre ++ [b]) mid (pre.length + 1) (by simp) (by simpa using hm)
      simpa [putBytes] using this

end Sys2Proof.Machine
end

