-- ==== Sys2Proof/Laws/PerInstr.lean ====
section
/-! SUPPORT. Statements about each command as syntax, one lemma for each constructor. -/

namespace Sys2Proof.Laws.RowMatch

/-- The encoder's word of a command selects a row of the opcode map, and every row it selects bears
the command's mnemonic (30_encoding.md R74). -/
def Statement (i : Instr) : Prop :=
  (∃ r ∈ opcodeMap, r.Selects (encode i)) ∧
  ∀ r ∈ opcodeMap, r.Selects (encode i) → r.mnemonic = i.mnemonic

/-- A mask without LEN bits makes a word's LEN irrelevant. -/
theorem and_packWord (op sel : BitVec 4) (len : Nat) (mask : Word) (h : mask.extractLsb' 0 24 = 0) :
    packWord op sel len &&& mask = packWord op sel 0 &&& mask := by
  apply BitVec.eq_of_getLsbD_eq
  intro k _
  have hm : k < 24 → mask.getLsbD k = false := fun hk => by
    have := congrArg (fun v : BitVec 24 => v.getLsbD k) h
    simpa [BitVec.getLsbD_extractLsb', hk] using this
  by_cases hk : k < 24
  · simp [hm hk]
  · have h0 : (BitVec.ofNat 24 len).getLsbD k = false := BitVec.getLsbD_of_ge _ _ (by omega)
    simp [packWord, BitVec.getLsbD_setWidth, hk, h0]

/-- A row selects only words of its own OP. -/
theorem opField_of_selects {r : OpcodeRow} (hr : r ∈ opcodeMap) {w : Word} (h : r.Selects w) :
    opField w = opField r.pattern := by
  have hm : r.mask.extractLsb' 28 4 = BitVec.allOnes 4 := by clear h; revert r; decide
  rw [← show w &&& r.mask = r.pattern from h, opField, opField, BitVec.extractLsb'_and, hm,
    BitVec.and_allOnes]

/-- A command whose OP one row alone has: a word that this row selects is enough. -/
theorem of_op {i : Instr} (op sel : BitVec 4) (len : Nat) (he : encode i = packWord op sel len)
    {m : String} (hi : i.mnemonic = m)
    (hm : ∀ r ∈ opcodeMap, opField r.pattern = op → r.mnemonic = m)
    (hs : ∃ r ∈ opcodeMap, r.mask.extractLsb' 0 24 = 0 ∧ packWord op sel 0 &&& r.mask = r.pattern) :
    Statement i := by
  obtain ⟨r, hr, h0, hp⟩ := hs
  refine ⟨⟨r, hr, ?_⟩, fun q hq h => (hm q hq ?_).trans hi.symm⟩
  · rw [OpcodeRow.Selects, he, and_packWord op sel len r.mask h0, hp]
  · rw [← opField_of_selects hq h, he, opField_packWord]

theorem sessStart : Statement .sessStart := by unfold Statement; decide
theorem sessStop : Statement .sessStop := by unfold Statement; decide
theorem rbWrite (i : RbSel) (len : Nat) : Statement (.rbWrite i len) := by
  cases i <;> exact of_op 0x3 _ len rfl (m := "RB_WRITE") rfl (by decide) (by decide)
theorem rbRead (i : RbSel) (len : Nat) : Statement (.rbRead i len) := by
  cases i <;> exact of_op 0x4 _ len rfl (m := "RB_READ") rfl (by decide) (by decide)
theorem rbLen (i : RbSel) : Statement (.rbLen i) := by cases i <;> (unfold Statement; decide)
theorem rbGlitch (i : RbSel) : Statement (.rbGlitch i) := by cases i <;> (unfold Statement; decide)
theorem batchSel : Statement .batchSel := by unfold Statement; decide
theorem emit2 : Statement .emit2 := by unfold Statement; decide
theorem emit4 : Statement .emit4 := by unfold Statement; decide
theorem crc32 (len : Nat) : Statement (.crc32 len) := 
  of_op 0x9 0 len rfl (m := "CRC32") rfl (by decide) (by decide)
theorem status : Statement .status := by unfold Statement; decide
theorem cntRd : Statement .cntRd := by unfold Statement; decide

end Sys2Proof.Laws.RowMatch
end

