-- ==== Sys2Proof/Tests/Slice0.lean ====
section
/-! SUPPORT. Tests: ill-formed terms refused, words of every command, single steps with the expected
results of spec/95_test_vectors.md (its ids stand in the docstrings), and for each obligation with
hypotheses a state and operands that meet them. -/

namespace Sys2Proof.Tests

open Sys2Proof Sys2Proof.Machine

/-! ## Small states -/

/-- Consecutive byte values from `lo` on. -/
def bytes (lo n : Nat) : List Byte := (List.range n).map fun k => BitVec.ofNat 8 (lo + k)

/-- A buffer whose cursors stood at `pos` when `bs` was written into it. -/
def filled (cap pos : Nat) (bs : List Byte) : RingBuffer :=
  { RingBuffer.create cap with start := pos, end_ := pos }.write bs

/-- TC with CAP0 = 8 (95_test_vectors.md 2.1). -/
def tc8 : Config := { Config.test with cap0 := 8 }

/-- An ACTIVE session with these buffers. -/
def active (c : Config) (rb0 rb1 : RingBuffer) : State :=
  { State.resetWith c with session := .active ⟨rb0, rb1⟩ }

/-- ACTIVE with RB[0] of capacity 8 in this state. -/
def ring (rb0 : RingBuffer) : State := active tc8 rb0 (RingBuffer.create 32)

/-- ACTIVE under TC with these bytes in RB[1] and these answers to come. -/
def encoded (bs : List Byte) (as : List Answer) : State :=
  { active Config.test (RingBuffer.create 32) (filled 32 0 bs) with answers := as }

/-- ACTIVE under TC with a counter and an answer to come. -/
def counting (ctr : BitVec 16) (a : Answer) : State :=
  { encoded [] [a] with ctr := ctr }

/-- FAULTED under TC8 after TX_FAIL. -/
def faulted : State :=
  { State.resetWith tc8 with
    session := .faulted ⟨filled 8 0 [0x05, 0x06, 0x07], RingBuffer.create 32⟩
    fcause := 5 }

/-- The state after a command on these data. -/
def after (i : Instr) (d : List Byte) (s : State) : Option State :=
  match exec i { s with din := d } with
  | .next t => some t
  | .fault _ | .refused _ => none

/-- The response to a command on these data. -/
def answer (i : Instr) (d : List Byte) (s : State) : Option Response := (after i d s).bind State.resp

/-- The line of a buffer in a vector. -/
structure Line where
  s       : Nat
  e       : Nat
  h       : Bool
  len     : Nat
  g       : BitVec 32
  content : List Byte
deriving DecidableEq, Repr

/-- The line of a buffer. -/
def line (i : RbSel) (s : State) : Option Line :=
  s.session.buffers.map fun b =>
    let rb := b.get i
    ⟨rb.start, rb.end_, rb.hasData, rb.len, rb.glitch, rb.content⟩

/-! ## WellFormed refuses ill-formed terms -/

/-- R72: LEN has 24 bits. -/
theorem test_wf_len : (Instr.rbWrite .rb0 (2 ^ 24)).wf = false ∧ (Instr.rbRead .rb1 (2 ^ 24)).wf = false ∧
    (Instr.crc32 (2 ^ 24)).wf = false ∧ (Instr.rbRead .rb0 (2 ^ 24 - 1)).wf = true := by decide

/-- R77, FE2, FE3, CV12: another data length is ill-formed. -/
theorem test_wf_din : Instr.dinWf .test .emit2 (bytes 0 7) = false ∧
    Instr.dinWf .test .emit4 (bytes 0 15) = false ∧
    Instr.dinWf .test (.crc32 2) [0] = false ∧ Instr.dinWf .test (.rbWrite .rb0 2) [0] = false ∧
    Instr.dinWf .test (.rbRead .rb0 2) [0] = false ∧ Instr.dinWf .test .emit4 (bytes 0 16) = true := by
  decide

/-- R8, R88: each constraint on a configuration, broken alone, is refused. -/
theorem test_wf_config : Config.test.legal = true ∧
    { Config.test with cap0 := 0 }.legal = false ∧ { Config.test with cap1 := 0 }.legal = false ∧
    { Config.test with cap0 := 2 ^ 32 }.legal = false ∧
    { Config.test with cap1 := 2 ^ 32 }.legal = false ∧
    { Config.test with frameSize := 0 }.legal = false ∧
    { Config.test with codeSize := 0 }.legal = false ∧
    { Config.test with codeSize := 2 ^ 24 }.legal = false ∧
    { Config.test with size2 := 17 }.legal = false ∧ { Config.test with size4 := 25 }.legal = false ∧
    { Config.test with rc4 := 1 }.legal = false := by decide

/-! ## Words written out from the map of R74 -/

theorem test_decode_session : decode 0b00010000000000000000000000000000 = .ok .sessStart ∧
    decode 0b00100000000000000000000000000000 = .ok .sessStop := ⟨rfl, rfl⟩

theorem test_decode_write : decode 0b00110000000000000000000000010100 = .ok (.rbWrite .rb0 20) ∧
    decode 0b00110001000000000000000000010000 = .ok (.rbWrite .rb1 16) := ⟨rfl, rfl⟩

theorem test_decode_read : decode 0b01000000000000000000000000011110 = .ok (.rbRead .rb0 30) ∧
    decode 0b01000001111111111111111111111111 = .ok (.rbRead .rb1 0xFFFFFF) := ⟨rfl, rfl⟩

theorem test_decode_query : decode 0b01010000000000000000000000000000 = .ok (.rbLen .rb0) ∧
    decode 0b01010001000000000000000000000000 = .ok (.rbLen .rb1) ∧
    decode 0b01100000000000000000000000000000 = .ok (.rbGlitch .rb0) ∧
    decode 0b01100001000000000000000000000000 = .ok (.rbGlitch .rb1) := ⟨rfl, rfl, rfl, rfl⟩

theorem test_decode_emission : decode 0b01110000000000000000000000000000 = .ok .batchSel ∧
    decode 0b10000000000000000000000000000010 = .ok .emit2 ∧
    decode 0b10000000000000000000000000000100 = .ok .emit4 := ⟨rfl, rfl, rfl⟩

theorem test_decode_status : decode 0b10010000000000000000000000101011 = .ok (.crc32 43) ∧
    decode 0b10100000000000000000000000000000 = .ok .status ∧
    decode 0b10110000000000000000000000000000 = .ok .cntRd := ⟨rfl, rfl, rfl⟩

/-- EV1, EV2: the reserved opcodes. -/
theorem test_decode_reserved : decode 0x00000000 = .error .reservedOpcode ∧
    decode 0xC0000000 = .error .reservedOpcode ∧
    decode 0xD0000000 = .error .reservedOpcode ∧
    decode 0xE0000000 = .error .reservedOpcode ∧
    decode 0xF0000000 = .error .reservedOpcode :=
  ⟨rfl, rfl, rfl, rfl, rfl⟩

/-- EV3, EV5, EV8, EV14, FE4: a LEN that the row does not allow. -/
theorem test_decode_len : decode 0x10000001 = .error .illegalLen ∧
    decode 0x80000003 = .error .illegalLen ∧
    decode 0x80000000 = .error .illegalLen ∧
    decode 0x51000001 = .error .illegalLen ∧
    decode 0x70000001 = .error .illegalLen :=
  ⟨rfl, rfl, rfl, rfl, rfl⟩

/-- EV4, EV15, CV11: a SEL that the row does not allow. -/
theorem test_decode_sel : decode 0x32000001 = .error .illegalSel ∧
    decode 0xA1000000 = .error .illegalSel ∧
    decode 0x91000000 = .error .illegalSel ∧
    decode 0x81000002 = .error .illegalSel ∧
    decode 0x42000000 = .error .illegalSel :=
  ⟨rfl, rfl, rfl, rfl, rfl⟩

/-- Programs P3, P5 and vector CV9: the words of commands. -/
theorem test_encode : encode (.rbWrite .rb1 12) = 0x3100000C ∧ encode (.rbRead .rb0 30) = 0x4000001E ∧
    encode .emit4 = 0x80000004 ∧ encode (.crc32 43) = 0x9000002B ∧ encode (.rbLen .rb1) = 0x51000000 := by
  decide

/-- R54: the word of P3 as little-endian bytes, and fewer than four bytes. -/
theorem test_decode_bytes : decodeBytes [0x0C, 0x00, 0x00, 0x31, 0xAA] = .ok (.rbWrite .rb1 12, [0xAA]) ∧
    decodeBytes [0x0C, 0x00, 0x00] = .error .truncated := ⟨rfl, rfl⟩

/-! ## One step of each command -/

/-- V5: a single write longer than the capacity keeps its last 8 bytes. -/
theorem test_write_overflow : ((after (.rbWrite .rb0 11) (bytes 0xC0 11) (ring (.create 8))).bind (line .rb0)) =
    some ⟨3, 3, true, 8, 0, bytes 0xC3 8⟩ := by decide +kernel

/-- V11, third command: a write that wraps, so that end < start. -/
theorem test_write_wraps : ((after (.rbWrite .rb0 5) (bytes 0xE0 5)
      (ring ((filled 8 0 (bytes 1 6)).take 4))).bind (line .rb0)) =
    some ⟨4, 3, true, 7, 0, [0x05, 0x06, 0xE0, 0xE1, 0xE2, 0xE3, 0xE4]⟩ := by decide +kernel

/-- V7: an underrun with data. -/
theorem test_read_underrun : ((after (.rbRead .rb0 8) [] (ring (filled 8 0 (bytes 1 5)))).map
      fun t => (t.resp, line .rb0 t, t.trace)) =
    some (some ⟨.underrun, 5, [1, 2, 3, 4, 5, 0, 0, 0]⟩, some ⟨5, 5, false, 0, 1, []⟩, [.underrun .rb0]) := by
  decide +kernel

/-- V6: a partial read. -/
theorem test_read_part : ((after (.rbRead .rb0 3) [] (ring (filled 8 0 (bytes 1 6)))).map
      fun t => (t.resp, line .rb0 t, t.trace)) =
    some (some ⟨.ok, 3, [1, 2, 3]⟩, some ⟨3, 6, true, 3, 0, [4, 5, 6]⟩, []) := by decide +kernel

/-- V19 and EV11: the fill level of each buffer, in FAULTED too. -/
theorem test_len : answer (.rbLen .rb1) [] (encoded (bytes 1 5) []) = some ⟨.ok, 5, []⟩ ∧
    answer (.rbLen .rb0) [] faulted = some ⟨.ok, 3, []⟩ := by decide +kernel

/-- V17 and V18: the underrun count is answered, and wraps. -/
theorem test_glitch : answer (.rbGlitch .rb0) [] (ring { RingBuffer.create 8 with glitch := 2 }) =
      some ⟨.ok, 2, []⟩ ∧
    ((after (.rbRead .rb0 1) [] (ring { RingBuffer.create 8 with glitch := 0xFFFFFFFF })).bind (line .rb0)) =
      some ⟨0, 0, false, 0, 0, []⟩ := by decide +kernel

/-- The frame of BV3 and BV4. -/
def frameBV3 : List Byte :=
  [0x01, 0x11, 0x22, 0x00, 0x00, 0x33] ++ bytes 0x10 8 ++ [0xDA, 0x22, 0xAE, 0x20]

/-- BV4: 3 frames held, 2 sent, 1 left. -/
theorem test_batch_ok : ((after .batchSel [] (encoded (bytes 0x10 12) [.ok])).map
      fun t => (t.resp, t.trace, (line .rb1 t).map Line.content, t.ctr)) =
    some (some ⟨.ok, 2, []⟩, [.notify .two, .frame frameBV3 .ok], some (bytes 0x18 4), 2) := by
  decide +kernel

/-- BV10: TRANSPORT answers fail. -/
theorem test_batch_fail : ((after .batchSel [] (encoded (bytes 0x10 8) [.fail])).map
      fun t => (t.resp, t.trace, t.sstate, t.fcause, t.ctr)) =
    some (some ⟨.txFail, 2, []⟩, [.notify .two, .frame frameBV3 .fail, .fatal .txFail], .faulted, 5, 2) := by
  decide +kernel

/-- FV3: the counter wraps. -/
theorem test_emit2 : ((after .emit2 (List.replicate 8 0xFF) (counting 0xFFFF .ok)).map fun t => (t.trace, t.ctr)) =
    some ([.frame ([0x01, 0x11, 0x22, 0xFF, 0xFF, 0x33] ++ List.replicate 8 0xFF ++
      [0xC1, 0x1F, 0x25, 0x11]) .ok], 0x0001) := by decide +kernel

/-- FE1: the write fails. -/
theorem test_emit2_fail : ((after .emit2 (bytes 0xC0 8) (counting 0 .fail)).map
      fun t => (t.resp, t.trace, t.ctr, t.sstate, t.fcause)) =
    some (some ⟨.txFail, 0, []⟩, [.frame ([0x01, 0x11, 0x22, 0x00, 0x00, 0x33] ++ bytes 0xC0 8 ++
      [0x97, 0xAF, 0x8D, 0xBA]) .fail, .fatal .txFail], 2, .faulted, 5) := by decide +kernel

/-- FV4: the counter bytes little-endian, padding covered by the checksum, the device id last. -/
theorem test_emit4 : ((after .emit4 (bytes 0x10 16) (counting 0x1234 .ok)).map fun t => (t.trace, t.ctr)) =
    some ([.frame ([0x02, 0x11, 0x22, 0x34, 0x12, 0x33] ++ bytes 0x10 16 ++
      [0x00, 0x00, 0x2C, 0xD3, 0x67, 0x3C, 0x44]) .ok], 0x1238) := by decide +kernel

/-- FE5: refused in FAULTED. -/
theorem test_emit4_faulted : ((after .emit4 (bytes 0 16) faulted).map fun t => (t.resp, t.trace, t.ctr)) =
    some (some ⟨.badState, 0, []⟩, [], 0) := by decide +kernel

/-- CV2: the check value. -/
theorem test_crc_check : answer (.crc32 9) (bytes 0x31 9) .reset = some ⟨.ok, 0xCBF43926, []⟩ := by
  decide +kernel

/-- CV10: the checksum of the FV1 coverage. -/
theorem test_crc_frame :
    answer (.crc32 15) ([0xA2, 0x01, 0x11, 0x22, 0x00, 0x00, 0x33] ++ bytes 0 8) .reset =
      some ⟨.ok, 0x43B7ECFC, []⟩ := by decide +kernel

/-- SV10: a start after a fault resets the counter and the cause. -/
theorem test_start_ok : ((after .sessStart [] { State.reset with ctr := 6, fcause := 5, answers := [.ok] }).map
      fun t => (t.resp, t.sstate, t.ctr, t.fcause, line .rb0 t)) =
    some (some ⟨.ok, 0, []⟩, .active, 0, 0, some ⟨0, 0, false, 0, 0, []⟩) := by decide +kernel

/-- SV5: InitDraw fails. -/
theorem test_start_fail : ((after .sessStart [] { State.reset with answers := [.fail] }).map
      fun t => (t.resp, t.sstate, t.fcause, t.trace)) =
    some (some ⟨.initFail, 0, []⟩, .idle, 6, [.fatal .initFail]) := by decide +kernel

/-- SV8: stopping in FAULTED keeps the cause. -/
theorem test_stop : ((after .sessStop [] faulted).map fun t => (t.resp, t.sstate, t.fcause, line .rb0 t)) =
    some (some ⟨.ok, 0, []⟩, .idle, 5, none) := by decide +kernel

/-- SV11: no session to stop. -/
theorem test_stop_idle : answer .sessStop [] .reset = some ⟨.badState, 0, []⟩ := by decide +kernel

/-- SV7 and SV6: the status word in FAULTED and after an initialisation failure. -/
theorem test_status : answer .status [] faulted = some ⟨.ok, 0x52, []⟩ ∧
    answer .status [] { State.reset with fcause := 6 } = some ⟨.ok, 0x60, []⟩ := by decide +kernel

/-- SV12: the counter. -/
theorem test_counter : answer .cntRd [] (counting 0x1238 .ok) = some ⟨.ok, 0x1238, []⟩ := by
  decide +kernel

/-- EV9: the data length is checked before the state. -/
theorem test_length_before_state : answer (.rbWrite .rb0 2) [0] .reset = some ⟨.illegal, 0, []⟩ := by
  decide +kernel

/-- EV12 by way of the word: the fetch helpers and the step agree on the first command after reset. -/
theorem test_fetch : decodeTableWord 32 0x20000000 = some .sessStop ∧
    step (State.reset.withFetchWord 32 0x20000000) =
      .next { State.reset with resp := some ⟨.badState, 0, []⟩ } := ⟨rfl, rfl⟩

/-! ## The HOST's program (P6) -/

/-- ENC_T of P4: 8 bytes give the 4 sums of neighbours; a first byte 0xEE gives count 0. -/
def encT : List Byte → Int × List Byte
  | [a, b, c, d, e, f, g, h] => if a = 0xEE then (0, []) else (4, [a + b, c + d, e + f, g + h])
  | _ => (0, [])

/-- Collaborators with ENC_T and PCM given directly. -/
def colT : Collaborators := ⟨fun x _ _ => (x, x.length), id, encT⟩

/-- P6 before step 3: the HOST is about to read, RB[0] holds the first block's bytes. -/
def hostReading (bs : List Byte) : State :=
  { active Config.test (filled 32 0 bs) (RingBuffer.create 32) with host := .read }

/-- The outcome's state. -/
def nextOf (o : Host.Outcome State Fault Refusal) : Option State :=
  match o with
  | .next t => some t
  | .fault _ | .refused _ => none

/-- P6, step 3: count 0 is logged and nothing is written. -/
theorem test_host_encode_failure :
    ((nextOf (hostTurn colT (hostReading (0xEE :: bytes 1 7)))).map fun t => (t.host, t.hostLog)) =
      some (.test, [.encodeFailure]) := by decide +kernel

/-- P6, step 4: [10..17] gives [21 25 29 2D]. -/
theorem test_host_encode :
    ((nextOf (hostTurn colT (hostReading (bytes 0x10 8)))).map fun t => (t.host, t.hostLog)) =
      some (.append [0x21, 0x25, 0x29, 0x2D], []) := by decide +kernel

/-! ## Witnesses: states and operands that meet the hypotheses of each obligation -/

/-- A concrete buffer is well formed by evaluation. -/
theorem wf_of {cap : Nat} {rb : RingBuffer} (h : rb.cap = cap ∧ 0 < cap ∧ rb.start < cap ∧ rb.end_ < cap ∧
    (rb.hasData = false → rb.start = rb.end_) ∧ Memory.wf rb.mem ∧ ∀ x ∈ rb.mem, x.1 < cap) :
    rb.Wf cap := ⟨h.1, h.2.1, h.2.2.1, h.2.2.2.1, h.2.2.2.2.1, h.2.2.2.2.2.1, h.2.2.2.2.2.2⟩

theorem new_wf : (RingBuffer.create 32).Wf 32 := wf_of (by decide)

/-- The buffers of `ring` for a buffer of capacity 8. -/
theorem ring_wf {rb : RingBuffer} (h : rb.Wf 8) : Buffers.Wf tc8 ⟨rb, RingBuffer.create 32⟩ :=
  ⟨h, new_wf⟩

/-- The buffers of `encoded` for some bytes. -/
def payload (bs : List Byte) : Buffers := ⟨RingBuffer.create 32, filled 32 0 bs⟩

theorem payload_wf {bs : List Byte} (h : (filled 32 0 bs).Wf 32) : (payload bs).Wf Config.test :=
  ⟨new_wf, h⟩

/-- A state between sessions, with answers to come. -/
def idle (as : List Answer) : State := { State.reset with answers := as }

theorem witness_DecodeOfEncode : (Instr.rbWrite .rb1 (2 ^ 24 - 1)).wf = true ∧ Instr.emit4.wf = true := by
  decide

theorem witness_EncodeOfDecode : decode 0x41FFFFFF = .ok (.rbRead .rb1 0xFFFFFF) := rfl

/-- A word that selects a row, and one that selects none. -/
theorem witness_DecodesExactlyTheMapRows : (∃ r ∈ opcodeMap, r.Selects 0x90FFFFFF) ∧
    ∀ r ∈ opcodeMap, ¬ r.Selects 0x91000000 := by decide

theorem witness_NoTwoRowsMatchOneWord : ∃ r q : OpcodeRow, r ∈ opcodeMap ∧ q ∈ opcodeMap ∧
    r.Selects 0x80000004 ∧ q.Selects 0x80000004 :=
  ⟨⟨"EMIT.4", 0x80000004, 0xFFFFFFFF⟩, ⟨"EMIT.4", 0x80000004, 0xFFFFFFFF⟩, by decide⟩

theorem witness_StepRunsDecodedCommand :
    (∃ (s : State) (a : Agent) (tx : Transaction) (rest : List Turn) (i : Instr),
      s.cfg.legal = true ∧ s.turns = .command a tx :: rest ∧ decode tx.word = .ok i ∧ a ≠ .host) ∧
    (∃ (s : State) (tx : Transaction) (rest : List Turn) (i : Instr), s.cfg.legal = true ∧
      s.turns = .command .host tx :: rest ∧ decode tx.word = .ok i ∧ hostBusy s = false) ∧
    ∃ (s : State) (x : Turn) (rest : List Turn), s.cfg.legal = true ∧ s.turns = x :: rest ∧
      x.mover = some .host ∧ x ≠ .host ∧ hostBusy s = true :=
  ⟨⟨{ State.reset with turns := [.command (.observer 1) ⟨0x90000001, [0]⟩, .host] }, .observer 1,
      ⟨0x90000001, [0]⟩, [.host], .crc32 1, by decide, rfl, rfl, by decide⟩,
    ⟨{ State.reset with turns := [.command .host ⟨0x90000001, [0]⟩] }, ⟨0x90000001, [0]⟩, [],
      .crc32 1, by decide, rfl, rfl, rfl⟩,
    ⟨{ State.reset with turns := [.start], host := .test }, .start, [], by decide, rfl, rfl, by decide,
      rfl⟩⟩

theorem witness_IllegalWordHasNoEffect :
    ∃ (s : State) (a : Agent) (tx : Transaction) (rest : List Turn) (e : DecodeError),
      s.cfg.legal = true ∧ s.turns = .command a tx :: rest ∧ decode tx.word = .error e ∧
        ¬ (a = .host ∧ hostBusy s = true) :=
  ⟨{ State.reset with turns := [.command .host ⟨0xC0000000, [7]⟩] }, .host, ⟨0xC0000000, [7]⟩, [],
    .reservedOpcode, by decide, rfl, rfl, by decide⟩

/-- One byte too few and one too many. -/
theorem witness_WrongDataLengthIsIllegal :
    { counting 0 .ok with din := bytes 0 7 }.din.length ≠ Instr.emit2.dinLen Config.test ∧
    { counting 0 .ok with din := [0] }.din.length ≠ Instr.status.dinLen Config.test := by decide

/-- A rejected and an accepted command. -/
theorem witness_SessionStateAcceptsAsTabled :
    (State.reset.din.length = (Instr.rbLen .rb0).dinLen State.reset.cfg ∧
      accepts (.rbLen .rb0) State.reset.sstate = false) ∧
    faulted.din.length = (Instr.rbLen .rb0).dinLen faulted.cfg ∧
      accepts (.rbLen .rb0) faulted.sstate = true := by decide

/-- Each code of R79 is answered by some command. -/
theorem witness_OnlyTheListedRstats :
    (answer (.rbRead .rb0 1) [] (ring (.create 8))).map Response.rstat = some .underrun ∧
    (answer .batchSel [] (encoded [] [])).map Response.rstat = some .noBatch ∧
    (answer .emit2 (bytes 0 8) (counting 0 .fail)).map Response.rstat = some .txFail ∧
    (answer .sessStart [] (idle [.fail])).map Response.rstat = some .initFail := by decide +kernel

theorem witness_EveryCommandResponds :
    (answer (.rbRead .rb0 2) [] (ring (filled 8 0 [7]))).map Response.dout = some [7, 0] := by
  decide +kernel

theorem witness_IdlesBetweenCommands : State.reset.cfg.legal = true ∧ State.reset.turns = [] := by
  decide

/-- Each of the three ways, at the boundary. -/
theorem witness_BrokenFrameConfigIsRefused :
    (State.resetWith { Config.test with size2 := 17 }).cfg.size2 < 10 + 2 * 4 ∧
    (State.resetWith { Config.test with size4 := 25 }).cfg.size4 < 10 + 4 * 4 ∧
    (State.resetWith { Config.test with rc4 := 1 }).cfg.rc2 =
      (State.resetWith { Config.test with rc4 := 1 }).cfg.rc4 := by decide

/-- A step with a next state, in a session and after an illegal word. -/
theorem witness_StepKeepsConfiguration :
    ∃ s t, step s = .next t ∧ s.turns ≠ [] :=
  ⟨{ faulted with turns := [.command .host ⟨0xA0000000, []⟩] },
    answered faulted ⟨.ok, 0x52, []⟩, rfl, by decide⟩

theorem witness_StepOnlyAppendsToTrace :
    ∃ s t, step s = .next t ∧ t.trace ≠ s.trace :=
  ⟨{ ring (.create 8) with turns := [.command .host ⟨0x40000001, []⟩] }, _, rfl, by decide +kernel⟩

theorem witness_CommandsKeepTheEnvironment : ∃ t, exec .sessStop faulted = .next t := ⟨_, rfl⟩

theorem witness_QueriesHaveNoEffect : isQuery (.crc32 3) = true ∧ isQuery (.rbLen .rb1) = true := by
  decide

/-- Below, at and above a full buffer, and a write longer than the capacity. -/
theorem witness_WriteKeepsTheMostRecentBytes :
    ∃ s₁ s₂ s₃ s₄ : State, ∃ b : Buffers,
      (∀ s ∈ [s₁, s₂, s₃, s₄], s.session = .active b ∧ s.cfg = tc8) ∧ b.Wf tc8 ∧
      s₁.din = [] ∧ (b.get .rb0).len + s₂.din.length = (b.get .rb0).cap ∧
      (b.get .rb0).cap < (b.get .rb0).len + s₃.din.length ∧ s₃.din.length = (b.get .rb0).cap ∧
      (b.get .rb0).cap < s₄.din.length := by
  let s := ring (filled 8 5 (bytes 1 6))
  refine ⟨s, { s with din := [1, 2] }, { s with din := bytes 0 8 }, { s with din := bytes 0 9 },
    ⟨filled 8 5 (bytes 1 6), RingBuffer.create 32⟩, ?_, ring_wf (wf_of (by decide)), ?_⟩
  · intro u hu
    fin_cases hu <;> exact ⟨rfl, rfl⟩
  · decide

theorem witness_WriteFrame : ∃ (s : State) (b : Buffers), s.session = .active b ∧ b.Wf s.cfg ∧
    0 < s.din.length ∧ s.din.length ≤ (b.get .rb0).cap :=
  ⟨{ ring (filled 8 7 [1, 2]) with din := [3, 4, 5] }, ⟨filled 8 7 [1, 2], RingBuffer.create 32⟩, rfl,
    ring_wf (wf_of (by decide)), by decide⟩

/-- A buffer of 3 bytes: the reads of 3 and of 4 are the two sides of the boundary. -/
theorem witness_ReadRemovesOldestBytes : ∃ (s : State) (b : Buffers), s.session = .active b ∧ b.Wf s.cfg ∧
    s.cfg.legal = true ∧ s.din = [] ∧ (b.get .rb0).len = 3 :=
  ⟨ring (filled 8 6 [1, 2, 3]), ⟨filled 8 6 [1, 2, 3], RingBuffer.create 32⟩, rfl,
    ring_wf (wf_of (by decide)), by decide⟩

theorem witness_UnderrunZeroFills : ∃ (s : State) (b : Buffers), s.session = .active b ∧ b.Wf s.cfg ∧
    s.cfg.legal = true ∧ s.din = [] ∧ (b.get .rb0).len < 4 :=
  ⟨ring (filled 8 6 [1, 2, 3]), ⟨filled 8 6 [1, 2, 3], RingBuffer.create 32⟩, rfl,
    ring_wf (wf_of (by decide)), by decide⟩

/-- An underrunning read, one that is not, and the start of a session. -/
theorem witness_GlitchCountsUnderruns :
    (∃ (s t : State) (b b' : Buffers), exec (.rbRead .rb0 4) s = .next t ∧ s.session.buffers = some b ∧
      t.session.buffers = some b' ∧ s.session = .active b ∧ s.din = [] ∧ (b.get .rb0).len < 4) ∧
    (∃ (s t : State) (b b' : Buffers), exec (.rbRead .rb0 3) s = .next t ∧ s.session.buffers = some b ∧
      t.session.buffers = some b' ∧ ¬ (b.get .rb0).len < 3) ∧
    ∃ (s t : State) (b' : Buffers), exec .sessStart s = .next t ∧ s.session = .idle ∧
      t.session.buffers = some b' :=
  ⟨⟨ring (filled 8 6 [1, 2, 3]), _, ⟨filled 8 6 [1, 2, 3], RingBuffer.create 32⟩, _, rfl, rfl, rfl,
      rfl, rfl, by decide⟩,
    ⟨ring (filled 8 6 [1, 2, 3]), _, ⟨filled 8 6 [1, 2, 3], RingBuffer.create 32⟩, _, rfl, rfl, rfl,
      by decide⟩,
    ⟨idle [.ok], _, _, rfl, rfl, rfl⟩⟩

/-- Buffers with and without data. -/
theorem witness_DrainingReadClearsHasData : ∃ (s : State) (b : Buffers), s.session = .active b ∧
    b.Wf s.cfg ∧ s.din = [] ∧ min (b.get .rb0).len 2 ≠ (b.get .rb0).len ∧
    min (b.get .rb0).len 3 = (b.get .rb0).len :=
  ⟨ring (filled 8 6 [1, 2, 3]), ⟨filled 8 6 [1, 2, 3], RingBuffer.create 32⟩, rfl,
    ring_wf (wf_of (by decide)), by decide⟩

theorem witness_ZeroLengthTransfersAreNoOps : ∃ (s : State) (b : Buffers), s.session = .active b ∧
    s.din = [] ∧ (b.get .rb0).len = 0 :=
  ⟨ring (.create 8), ⟨.create 8, .create 32⟩, rfl, rfl, rfl⟩

theorem witness_ReadFrame : ∃ (s : State) (b : Buffers), s.session = .active b ∧ s.din = [] :=
  ⟨ring (filled 8 6 [1, 2, 3]), ⟨filled 8 6 [1, 2, 3], RingBuffer.create 32⟩, rfl, rfl⟩

/-- IDLE; an empty and a full buffer with equal cursors; FAULTED. -/
theorem witness_RbLenAnswersFillLevel : State.reset.session = .idle ∧
    (∃ b, (ring (.create 8)).session.buffers = some b ∧ b.Wf tc8 ∧ (b.get .rb0).hasData = false) ∧
    (∃ b, (ring (filled 8 3 (bytes 0 8))).session.buffers = some b ∧ b.Wf tc8 ∧
      (b.get .rb0).hasData = true ∧ (b.get .rb0).start = (b.get .rb0).end_) ∧
    ∃ b, faulted.session.buffers = some b ∧ b.Wf faulted.cfg ∧ faulted.cfg.legal = true ∧
      faulted.din = [] :=
  ⟨rfl, ⟨_, rfl, ring_wf (wf_of (by decide)), by decide⟩, ⟨_, rfl, ring_wf (wf_of (by decide)), by decide⟩,
    ⟨_, rfl, ring_wf (wf_of (by decide)), by decide⟩⟩

theorem witness_RbGlitchAnswersCount : State.reset.session = .idle ∧ State.reset.din = [] ∧
    faulted.din = [] ∧ ∃ b, faulted.session.buffers = some b := ⟨rfl, rfl, rfl, _, rfl⟩

/-- Three pieces that fill the buffer exactly, from a cursor in the middle. -/
theorem witness_RoundTripThroughRingBuffer :
    ∃ (s : State) (b : Buffers) (chunks : List (List Byte)), s.session = .active b ∧ b.Wf s.cfg ∧
      s.cfg.legal = true ∧ (b.get .rb0).len = 0 ∧ chunks.flatten.length = (b.get .rb0).cap :=
  ⟨ring (filled 8 5 []), ⟨filled 8 5 [], RingBuffer.create 32⟩, [[1, 2], [], bytes 3 6], rfl,
    ring_wf (wf_of (by decide)), by decide⟩

/-- One byte more than fits. -/
theorem witness_OverwriteOldest :
    ∃ (s : State) (b : Buffers) (chunks : List (List Byte)), s.session = .active b ∧ b.Wf s.cfg ∧
      s.cfg.legal = true ∧ (b.get .rb0).len = 0 ∧ (b.get .rb0).cap < chunks.flatten.length :=
  ⟨ring (filled 8 5 []), ⟨filled 8 5 [], RingBuffer.create 32⟩, [[1, 2], bytes 3 7], rfl,
    ring_wf (wf_of (by decide)), by decide⟩

theorem witness_FillLevelIsConserved : ∃ (s : State) (b : Buffers), s.session = .active b ∧ b.Wf s.cfg ∧
    s.din = [] :=
  ⟨ring (filled 8 5 (bytes 0 8)), ⟨filled 8 5 (bytes 0 8), RingBuffer.create 32⟩, rfl,
    ring_wf (wf_of (by decide)), rfl⟩

/-- Both batches at their least fill levels, and the 2-frame one at its greatest, with both answers. -/
theorem witness_BatchSelEmitsTheBatch :
    ∃ s₂ s₃ s₄ : State, s₂.session = .active (payload (bytes 0 8)) ∧ (payload (bytes 0 8)).Wf s₂.cfg ∧
      s₃.session = .active (payload (bytes 0 15)) ∧ (payload (bytes 0 15)).Wf s₃.cfg ∧
      s₄.session = .active (payload (bytes 0 16)) ∧ (payload (bytes 0 16)).Wf s₄.cfg ∧
      (∀ s ∈ [s₂, s₃, s₄], s.cfg.legal = true ∧ s.din = []) ∧
      (payload (bytes 0 8)).rb1.len = 2 * 4 ∧ (payload (bytes 0 15)).rb1.len + 1 = 4 * 4 ∧
      (payload (bytes 0 16)).rb1.len = 4 * 4 ∧ nextAnswer s₂ = .ok ∧ nextAnswer s₄ = .fail := by
  refine ⟨encoded (bytes 0 8) [.ok], encoded (bytes 0 15) [.ok], encoded (bytes 0 16) [.fail], rfl,
    payload_wf (wf_of (by decide)), rfl, payload_wf (wf_of (by decide)), rfl,
    payload_wf (wf_of (by decide)), ?_, by decide⟩
  intro u hu
  fin_cases hu <;> exact ⟨by decide, rfl⟩

theorem witness_TooFewFramesGiveNoBatch : ∃ (s : State) (b : Buffers), s.session = .active b ∧
    s.cfg.legal = true ∧ s.din = [] ∧ b.rb1.len + 1 = 2 * s.cfg.frameSize :=
  ⟨encoded (bytes 0 7) [], payload (bytes 0 7), rfl, by decide⟩

/-- The last row, 8 frames held. -/
theorem witness_BatchSelectionTable : ∃ (s : State) (b : Buffers), s.session = .active b ∧ b.Wf s.cfg ∧
    s.cfg.legal = true ∧ s.din = [] ∧ b.rb1.len = 8 * s.cfg.frameSize :=
  ⟨encoded (bytes 0 32) [], payload (bytes 0 32), rfl, payload_wf (wf_of (by decide)), by decide⟩

theorem witness_BatchSelFrame : ∃ (s : State) (b : Buffers), s.session = .active b ∧ s.din = [] :=
  ⟨encoded (bytes 0 32) [], payload (bytes 0 32), rfl, rfl⟩

theorem witness_SequencerBuildsTheLayout : Config.test.legal = true ∧
    (bytes 0 8).length = BatchSize.frames .two * Config.test.frameSize ∧
    (bytes 0 16).length = BatchSize.frames .four * Config.test.frameSize := by decide

theorem witness_EmitSendsOneFrame : ∃ (s : State) (b : Buffers), s.session = .active b ∧
    s.cfg.legal = true ∧ s.din.length = BatchSize.frames .four * s.cfg.frameSize ∧ nextAnswer s = .ok :=
  ⟨{ counting 0xFFFE .ok with din := bytes 0 16 }, payload [], rfl, by decide⟩

/-- Commands of one session: a batch of each kind, and a last write that fails. -/
theorem witness_CounterSequence_session :
    ∃ (s t : State) (cmds : List (Instr × List Byte)), s.cfg.legal = true ∧ s.ctr = 0 ∧
      (∀ c ∈ cmds, c.1 ≠ .sessStart) ∧ runCommands cmds s = .next t ∧
      (sentFrames t.trace).map Prod.snd = [.ok, .fail] :=
  ⟨encoded (bytes 0 20) [.ok, .fail], _, [(.batchSel, []), (.emit2, bytes 0 8), (.sessStop, [])],
    by decide, rfl, by decide, rfl, by decide +kernel⟩

theorem witness_CounterSequence :
    ∃ (s : State) (b : Buffers) (batches : List (BatchSize × List Byte)) (later : List Answer),
      s.session = .active b ∧ s.cfg.legal = true ∧ s.ctr = 0 ∧
      (∀ p ∈ batches, p.2.length = BatchSize.frames p.1 * s.cfg.frameSize) ∧
      s.answers = List.replicate batches.length .ok ++ later ∧ batches.length = 2 :=
  ⟨encoded [] [.ok, .ok, .fail], payload [], [(.four, bytes 0 16), (.two, bytes 0 8)], [.fail], rfl,
    by decide, rfl, by decide, rfl, rfl⟩

theorem witness_TransportFailureEntersFaulted : ∃ (s : State) (b : Buffers), s.session = .active b ∧
    s.cfg.legal = true ∧ s.din.length = BatchSize.frames .two * s.cfg.frameSize ∧
    nextAnswer s = .fail :=
  ⟨{ counting 0xFFFF .fail with din := bytes 0 8 }, payload [], rfl, by decide⟩

theorem witness_Crc32AnswersChecksum : State.reset.cfg.crc = CrcParams.iso ∧
    faulted.cfg.crc = CrcParams.iso := ⟨rfl, rfl⟩

theorem witness_SuccessfulStartResetsTheSession : (idle [.ok]).session = .idle ∧ (idle [.ok]).din = [] ∧
    nextAnswer (idle [.ok]) = .ok := ⟨rfl, rfl, rfl⟩

theorem witness_FailedStartStaysIdle : (idle [.fail]).session = .idle ∧ (idle [.fail]).din = [] ∧
    nextAnswer (idle [.fail]) = .fail := ⟨rfl, rfl, rfl⟩

/-- FAULTED, ACTIVE and IDLE. -/
theorem witness_StopDiscardsTheBuffers : (faulted.din = [] ∧ faulted.session ≠ .idle) ∧
    ((counting 6 .ok).din = [] ∧ (counting 6 .ok).session ≠ .idle) ∧
    State.reset.din = [] ∧ State.reset.session = .idle := by decide

theorem witness_StatusAnswersTheStatusWord : faulted.din = [] ∧ (ring (.create 8)).din = [] ∧
    State.reset.din = [] := ⟨rfl, rfl, rfl⟩

theorem witness_CntRdAnswersTheCounter : (counting 0xFFFF .ok).din = [] := rfl

theorem witness_FaultedIsLeftOnlyByStop : ∃ (t : State) (b : Buffers), faulted.session = .faulted b ∧
    exec .sessStop faulted = .next t ∧ t.sstate ≠ .faulted := ⟨_, _, rfl, rfl, by decide⟩

theorem witness_NothingHappensInFaulted : ∃ (t : State) (b : Buffers), faulted.session = .faulted b ∧
    exec .batchSel faulted = .next t := ⟨_, _, rfl, rfl⟩

theorem witness_ResetMeetsTheInvariant : tc8.legal = true := by decide

/-- A state with the invariant whose next step changes a buffer. -/
theorem witness_StepKeepsTheInvariant : ∃ s t : State, s.Inv ∧ step s = .next t ∧ t.session ≠ s.session :=
  ⟨{ ring (filled 8 6 [1, 2, 3]) with turns := [.command .host ⟨0x30000002, [4, 5]⟩] }, _,
    ⟨by decide, ring_wf (wf_of (by decide)), rfl⟩, rfl, by decide +kernel⟩

/-- The same content at other cursors and with other stale bytes. -/
theorem witness_StaleBytesAreNeverObserved :
    ∃ s t s' : State, s.Inv ∧ t.Inv ∧ s.SameShown t ∧ s ≠ t ∧ step s = .next s' := by
  let q : State → State := fun s => { s with turns := [.command .host ⟨0x40000002, []⟩] }
  exact ⟨q (ring (filled 8 6 [1, 2, 3])), q (ring ((filled 8 0 [9, 9, 1, 2, 3]).take 2)), _,
    ⟨by decide, ring_wf (wf_of (by decide)), rfl⟩, ⟨by decide, ring_wf (wf_of (by decide)), rfl⟩,
    ⟨by decide, rfl⟩, by decide, rfl⟩

theorem witness_EncodeLoopDrainsRawBuffer :
    ∃ (s : State) (b : Buffers), s.Inv ∧ KeepsContract colT s.cfg ∧ s.session = .active b ∧ s.host = .test ∧
      b.rb0.len = 27 := by
  refine ⟨{ hostReading (bytes 0 27) with host := .test }, _, ⟨by decide, ⟨wf_of (by decide), wf_of (by decide)⟩, rfl⟩, ?_, rfl, rfl, by decide⟩
  intro blk
  show (encT blk).1 ≤ 0 ∨ (encT blk).1 = ((4 : Nat) : Int) ∧ (encT blk).2.length = 4
  unfold encT
  split
  · split <;> simp
  · simp

theorem witness_EncodeFailureIsLoggedAndDropped :
    ∃ (s : State) (b : Buffers), s.Inv ∧ s.session = .active b ∧ s.host = .read ∧
      s.cfg.codeSize ≤ b.rb0.len ∧ (colT.encode (b.rb0.content.take s.cfg.codeSize)).1 ≤ 0 :=
  ⟨hostReading (0xEE :: bytes 1 7), _, ⟨by decide, ⟨wf_of (by decide), wf_of (by decide)⟩, rfl⟩, rfl, rfl, by decide, by decide +kernel⟩

/-- An encoder that gives one byte. -/
theorem witness_OddEncoderCountIsRefused :
    ∃ (col : Collaborators) (s : State) (b : Buffers), s.Inv ∧ s.session = .active b ∧ s.host = .read ∧
      s.cfg.codeSize ≤ b.rb0.len ∧ 0 < (col.encode (b.rb0.content.take s.cfg.codeSize)).1 ∧
      (col.encode (b.rb0.content.take s.cfg.codeSize)).1 ≠ s.cfg.frameSize :=
  ⟨{ colT with encode := fun _ => (1, [0]) }, hostReading (bytes 0 8), _,
    ⟨by decide, ⟨wf_of (by decide), wf_of (by decide)⟩, rfl⟩, rfl, rfl, by decide, by decide, by decide⟩

/-- In the per-block program, with exactly 2 frames held, and an EMIT.4 of the HOST's own. -/
theorem witness_HostStopsAfterTxFail :
    (∃ (s : State) (b : Buffers), s.Inv ∧ s.session = .active b ∧ nextAnswer s = .fail ∧
      s.host = .batch ∧ 2 * s.cfg.frameSize = b.rb1.len) ∧
    ∃ (s : State) (b : Buffers) (tx : Transaction), s.Inv ∧ s.session = .active b ∧
      nextAnswer s = .fail ∧ s.host.inCallback = false ∧ tx.word = encode (emitInstr .four) ∧
      tx.din.length = BatchSize.frames .four * s.cfg.frameSize :=
  ⟨⟨{ encoded (bytes 0 8) [.fail] with host := .batch, capture := .started }, _,
      ⟨by decide, payload_wf (wf_of (by decide)), rfl⟩, rfl, rfl, rfl, by decide⟩,
    ⟨encoded (bytes 0 8) [.fail], _, ⟨0x80000004, bytes 0 16⟩,
      ⟨by decide, payload_wf (wf_of (by decide)), rfl⟩, rfl, rfl, rfl, by decide, by decide⟩⟩

/-- Both outcomes of a start, and blocks delivered before any start, to a free and to a busy HOST. -/
theorem witness_CaptureStartsOnlyAfterOk : (idle [.ok]).session = .idle ∧
    (idle [.ok]).capture ≠ .started ∧ (idle [.ok]).capture ≠ .halted ∧ (idle [.ok]).host = .idle ∧
    (idle [.ok]).captured = [] ∧ nextAnswer (idle [.ok]) = .ok ∧ nextAnswer (idle [.fail]) = .fail ∧
    (capturePcm colT (idle []).cfg ⟨bytes 0 8, 4⟩).1.length ≤ maxLen ∧
    { idle [] with captured := [⟨bytes 0 8, 4⟩] }.captured ≠ [] ∧
    { idle [] with host := .test }.host ≠ .idle := by decide

/-- Two observers wait for a fourth byte that the HOST is about to write. -/
def twoPolls : State :=
  { ring (filled 8 6 [1, 2, 3]) with
    turns := [.waitFill (.observer 1) .rb0 4, .waitFill (.observer 2) .rb0 4,
      .command .host ⟨0x30000001, [7]⟩] }

/-- A fill level of 3, so that k = 4 yields and k = 3 is over, and two polls before a write of the
HOST. -/
theorem witness_WaitFillPollsAndYields : (∃ (s : State) (b : Buffers), s.Inv ∧ s.session.buffers = some b ∧
    (b.get .rb0).len = 3) ∧
    ∃ s t x rest, s.turns = x :: rest ∧ x.mover ≠ some .host ∧ (∃ y ∈ rest, y.mover = some .host) ∧
      step s = .next t :=
  ⟨⟨ring (filled 8 6 [1, 2, 3]), _, ⟨by decide, ring_wf (wf_of (by decide)), rfl⟩, rfl, by decide⟩,
    ⟨twoPolls, _, _, _, rfl, by decide, by decide, rfl⟩⟩

/-- An OBSERVER's query, and a poll. -/
theorem witness_DisciplinedObserversKeepTheBlock :
    (∃ s t turn rest, s.turns = turn :: rest ∧ turn.disciplined = true ∧
      (∃ n tx, turn = .command (.observer n) tx) ∧ step s = .next t) ∧
    ∃ s t turn rest, s.turns = turn :: rest ∧ turn.disciplined = true ∧
      (∃ a i k, turn = .waitFill a i k ∧ turn.waits s = false) ∧ step s = .next t :=
  ⟨⟨{ faulted with turns := [.command (.observer 2) ⟨0x50000000, []⟩] }, _, _, _, rfl, by decide,
      ⟨_, _, rfl⟩, rfl⟩,
    ⟨{ faulted with turns := [.waitFill (.observer 2) .rb0 4] }, _, _, _, rfl, by decide,
      ⟨_, _, _, rfl, rfl⟩, rfl⟩⟩

/-- A well-formed system of two instances, the second of which moves. -/
theorem witness_InstancesShareNothing :
    ∃ sys sys' : System, System.stepAt 1 sys = .next sys' ∧ sys' ≠ sys ∧ sys.Wf ∧ sys.length = 2 :=
  ⟨[faulted, { faulted with
      cfg := { tc8 with unit := 1 }
      turns := [.command (.observer 0) ⟨0xA0000000, []⟩] }], _, rfl, by decide +kernel, by decide, rfl⟩

/-! ## The order of the agents -/

/-- R67, D35: neither of two polls keeps the HOST's write waiting. -/
theorem test_two_polls_let_the_host_write :
    (((nextOf (step twoPolls)).bind fun t => nextOf (step t)).map State.turns) =
      some [.command .host ⟨0x30000001, [7]⟩, .waitFill (.observer 1) .rb0 4,
        .waitFill (.observer 2) .rb0 4] := by decide +kernel

/-- R60, R82: a HOST that waits keeps its BATCH_SEL behind its loop, while an OBSERVER moves. -/
theorem test_wait_keeps_issue_order :
    let own : Turn := .command .host ⟨0x70000000, []⟩
    let other : Turn := .command (.observer 1) ⟨0xA0000000, []⟩
    ((nextOf (waitFill .host .rb1 8 { encoded (bytes 0 7) [] with turns := [own, other, own] })).map
      State.turns) = some [other, .waitFill .host .rb1 8, own, own] := by decide +kernel

/-- R224: after the HOST's own EMIT.2 of FE1 failed, CAPTURE is halted and the stop is in the order. -/
theorem test_host_reacts_to_tx_fail :
    ((nextOf (takeCommand .host ⟨0x80000002, bytes 0xC0 8⟩
        { counting 0 .fail with capture := .started })).map fun t => (t.capture, t.host, t.turns)) =
      some (.halted, .owesStop, [.host]) := by decide +kernel

/-- R224: the SESS_STOP that the HOST owes reports the failure. -/
theorem test_host_reports_failure :
    ((nextOf (takeCommand .host ⟨0x20000000, []⟩ { faulted with host := .owesStop })).map
      fun t => (t.sstate, t.host, t.hostLog)) = some (.idle, .idle, [.sessionFailed]) := by
  decide +kernel

/-- R77, R224: a SESS_STOP with data is ILLEGAL, and the stop stays owed. -/
theorem test_illegal_stop_stays_owed :
    ((nextOf (takeCommand .host ⟨0x20000000, [0]⟩ { faulted with host := .owesStop })).map
      fun t => (t.sstate, t.host, t.hostLog)) = some (.faulted, .owesStop, []) := by
  decide +kernel

/-- R82, R224: a HOST that owes SESS_STOP issues it before it waits on. -/
theorem test_owed_stop_before_wait :
    ((nextOf (takeTurn colT (.waitFill .host .rb1 8) { faulted with host := .owesStop })).map
      fun t => (t.sstate, t.host, t.turns)) = some (.idle, .idle, [.waitFill .host .rb1 8]) := by
  decide +kernel

/-- R263: a block delivered before the bring-up is complete meets BAD_STATE. -/
theorem test_early_block :
    ((nextOf (deliver colT ⟨bytes 0 8, 4⟩ (idle [.ok]))).map fun t => (t.resp, t.host, t.captured)) =
      some (some ⟨.badState, 0, []⟩, .test, []) := by decide +kernel

/-- R138: with a second early block waiting, SESS_START comes after the callbacks: the step ends the
first callback with BATCH_SEL, and the start stays. -/
theorem test_start_waits_for_callbacks :
    ((nextOf (stepWith colT { idle [.ok] with
        host := .batch, captured := [⟨bytes 0 8, 4⟩], turns := [.start] })).map
      fun t => (t.resp, t.host, t.captured, t.turns)) =
      some (some ⟨.badState, 0, []⟩, .idle, [⟨bytes 0 8, 4⟩], [.start]) := by decide +kernel

end Sys2Proof.Tests
end

section
/-! The turns of an OBSERVER that keeps its discipline, the polls of WAIT_FILL, and the instances of a
system (00_scope.md R6, R7, R57, R62, R237, R264). -/

namespace Sys2Proof.Machine

/-! ## What passes through the checks of R229

What holds of the rejecting answer and of the command itself holds of the checked command. -/

theorem checkDin_of {P : State → Prop} {need : Nat} {s run : State}
    (hbad : P (respond s .illegal 0 [])) (hrun : P run) : P (checkDin need s run) := by
  unfold checkDin
  split
  · exact hrun
  · exact hbad

theorem inIdle_of {P : State → Prop} {s run : State}
    (hbad : P (respond s .badState 0 [])) (hrun : P run) : P (inIdle s run) := by
  unfold inIdle
  split
  · exact hrun
  · exact hbad
  · exact hbad

theorem inActive_of {P : State → Prop} {s : State} {run : Buffers → State}
    (hbad : P (respond s .badState 0 [])) (hrun : ∀ b, P (run b)) : P (inActive s run) := by
  unfold inActive
  split
  · exact hrun _
  · exact hbad
  · exact hbad

theorem inSession_of {P : State → Prop} {s : State} {run : Buffers → State}
    (hbad : P (respond s .badState 0 [])) (hrun : ∀ b, P (run b)) : P (inSession s run) := by
  unfold inSession
  split
  · exact hrun _
  · exact hrun _
  · exact hbad

/-! ## Queries (R57) -/

/-- Nothing but a response comes of a state. -/
def OnlyAnswers (s t : State) : Prop := ∃ r, t = answered s r

theorem respond_onlyAnswers (s : State) (r : RStat) (v : Word) (d : List Byte) :
    OnlyAnswers s (respond s r v d) := ⟨⟨r, v, d⟩, rfl⟩

theorem OnlyAnswers.sameBlock {s t : State} (h : OnlyAnswers s t) : s.SameBlock t := by
  obtain ⟨r, rfl⟩ := h
  exact ⟨rfl, rfl, rfl, rfl, rfl⟩

/-- Every query answers, whatever its data and the session state, and does nothing else. -/
theorem exec_query {i : Instr} (hq : isQuery i = true) (s : State) :
    ∃ t, exec i s = .next t ∧ OnlyAnswers s t := by
  have illegal := respond_onlyAnswers s .illegal 0 []
  have badState := respond_onlyAnswers s .badState 0 []
  cases i with
  | rbLen j =>
    exact ⟨_, rfl, checkDin_of illegal (inSession_of badState fun _ => respond_onlyAnswers ..)⟩
  | rbGlitch j =>
    exact ⟨_, rfl, checkDin_of illegal (inSession_of badState fun _ => respond_onlyAnswers ..)⟩
  | crc32 n => exact ⟨_, rfl, checkDin_of illegal (respond_onlyAnswers ..)⟩
  | status => exact ⟨_, rfl, checkDin_of illegal (respond_onlyAnswers ..)⟩
  | cntRd => exact ⟨_, rfl, checkDin_of illegal (respond_onlyAnswers ..)⟩
  | sessStart | sessStop | rbWrite | rbRead | batchSel | emit2 | emit4 => nomatch hq

/-- A transaction with a query or an illegal word (R76) does not touch the block. -/
theorem issue_sameBlock_of_query {a : Agent} {tx : Transaction} {s t : State}
    (hq : ∀ i, decode tx.word = .ok i → isQuery i = true) (h : issue a tx s = .next t) :
    s.SameBlock t := by
  unfold issue at h
  split at h
  next i hd =>
    obtain ⟨u, hu, ha⟩ := exec_query (hq i hd) { s with issuer := a, din := tx.din }
    obtain rfl : u = t := by simpa [hu] using h
    obtain ⟨hcfg, hsession, hfcause, hctr, htrace⟩ := ha.sameBlock
    exact ⟨hcfg, hsession, hfcause, hctr, htrace⟩
  next => cases h; exact ⟨rfl, rfl, rfl, rfl, rfl⟩

/-- A poll is a query (R82). The agent that yields changes only the order. -/
theorem waitFill_sameBlock {a : Agent} {j : RbSel} {k : Nat} {s t : State}
    (h : waitFill a j k s = .next t) : s.SameBlock t := by
  obtain ⟨u, hu, ht⟩ := andThen_next h
  have hq : ∀ i, decode (AsmLine.rbLen j).assemble.word = .ok i → isQuery i = true := by
    simp [AsmLine.assemble, AsmLine.instr, isQuery]
  obtain ⟨hcfg, hsession, hfcause, hctr, htrace⟩ := issue_sameBlock_of_query hq hu
  cases ht
  split <;> exact ⟨hcfg, hsession, hfcause, hctr, htrace⟩

/-- The words that an OBSERVER issues under R264: queries and illegal words. -/
theorem isQuery_of_disciplined {n : Nat} {tx : Transaction} {i : Instr}
    (h : (Turn.command (.observer n) tx).disciplined = true) (hd : decode tx.word = .ok i) :
    isQuery i = true := by
  simpa [Turn.disciplined, hd] using h

/-! ## Taking the first entry of the order -/

@[simp] theorem waits_dropTurns (x : Turn) (s : State) (rest : List Turn) :
    x.waits { s with turns := rest } = x.waits s := by
  cases x <;> rfl

/-- An entry that does not wait is taken by itself. -/
theorem step_takesEntry {s t : State} {x : Turn} {rest : List Turn} (hs : s.turns = x :: rest)
    (hw : x.waits s = false) (h : step s = .next t) :
    takeEntry (Config.collaborators s.cfg) x { s with turns := rest } = .next t := by
  unfold step stepWith at h
  split at h
  · simpa [hs, takeTurn, hw] using h
  · nomatch h

/-- Settles O59: a disciplined OBSERVER issues a query or an illegal word, and a poll is a query. -/
theorem disciplinedObserversKeepTheBlock : Obligations.DisciplinedObserversKeepTheBlock := by
  unfold Obligations.DisciplinedObserversKeepTheBlock
  intro s t turn rest hs hdisc hturn hstep
  have hblock : State.SameBlock { s with turns := rest } t := by
    rcases hturn with ⟨n, tx, rfl⟩ | ⟨a, i, k, rfl, hw⟩
    · exact issue_sameBlock_of_query (fun _ => isQuery_of_disciplined hdisc)
        (step_takesEntry hs rfl hstep)
    · exact waitFill_sameBlock (step_takesEntry hs hw hstep)
  obtain ⟨hcfg, hsession, hfcause, hctr, htrace⟩ := hblock
  exact ⟨hcfg, hsession, hfcause, hctr, htrace⟩

/-! ## The configuration (R32) -/

@[simp] theorem respondEmission_cfg (v : Word) (r : Answer × State) :
    (respondEmission v r).cfg = r.2.cfg := by
  unfold respondEmission
  split <;> rfl

@[simp] theorem emitFrame_cfg (n : BatchSize) (payload : List Byte) (s : State) :
    (emitFrame n payload s).2.cfg = s.cfg := (transmit_environment n _ s).1

@[simp] theorem sessStart_cfg (s : State) : (sessStart s).cfg = s.cfg := by
  unfold sessStart
  dsimp only
  split <;> simp

@[simp] theorem rbWrite_cfg (i : RbSel) (n : Nat) (s : State) (b : Buffers) :
    (rbWrite i n s b).cfg = s.cfg := by
  unfold rbWrite
  split <;> rfl

@[simp] theorem rbRead_cfg (i : RbSel) (n : Nat) (s : State) (b : Buffers) :
    (rbRead i n s b).cfg = s.cfg := by
  unfold rbRead
  dsimp only
  split
  · rfl
  · split <;> rfl

@[simp] theorem batchSel_cfg (s : State) (b : Buffers) : (batchSel s b).cfg = s.cfg := by
  unfold batchSel emitBatch
  split <;> simp

/-- No command writes the configuration (R10, R32). -/
theorem exec_cfg {i : Instr} {s t : State} (h : exec i s = .next t) : t.cfg = s.cfg := by
  have checked {need : Nat} {run : State} (hr : run.cfg = s.cfg) : (checkDin need s run).cfg = s.cfg :=
    checkDin_of (P := fun u => u.cfg = s.cfg) rfl hr
  have whenActive {run : Buffers → State} (hr : ∀ b, (run b).cfg = s.cfg) :
      (inActive s run).cfg = s.cfg := inActive_of (P := fun u => u.cfg = s.cfg) rfl hr
  have whenSession {run : Buffers → State} (hr : ∀ b, (run b).cfg = s.cfg) :
      (inSession s run).cfg = s.cfg := inSession_of (P := fun u => u.cfg = s.cfg) rfl hr
  cases i <;> cases h
  case sessStart => exact checked (inIdle_of (P := fun u => u.cfg = s.cfg) rfl (sessStart_cfg s))
  case sessStop => exact checked (whenSession fun _ => rfl)
  case rbWrite j n => exact checked (whenActive (rbWrite_cfg j n s))
  case rbRead j n => exact checked (whenActive (rbRead_cfg j n s))
  case rbLen => exact checked (whenSession fun _ => rfl)
  case rbGlitch => exact checked (whenSession fun _ => rfl)
  case batchSel => exact checked (whenActive (batchSel_cfg s))
  case emit2 => exact checked (whenActive fun _ => by simp)
  case emit4 => exact checked (whenActive fun _ => by simp)
  case crc32 => exact checked rfl
  case status => exact checked rfl
  case cntRd => exact checked rfl

/-- No step of any agent writes the configuration (R32, R273). -/
theorem step_cfg {s t : State} (h : step s = .next t) : t.cfg = s.cfg := by
  rcases step_actsOnce h with same | ⟨i, u, v, hexec, before, after⟩
  · exact same.cfg
  · calc t.cfg = v.cfg := after.cfg
      _ = u.cfg := exec_cfg hexec
      _ = s.cfg := before.cfg

/-! ## Systems of several instances (R7, R62, R237) -/

/-- What a step of block `k` can do to a system: nothing when there is no such block, else the
machine's step in its place. -/
theorem stepAt_next {k : Nat} {sys sys' : System} (h : System.stepAt k sys = .next sys') :
    (sys[k]? = none ∧ sys' = sys) ∨
    ∃ s t, sys[k]? = some s ∧ step s = .next t ∧ sys' = sys.set k t := by
  unfold System.stepAt at h
  split at h
  next hk => cases h; exact .inl ⟨hk, rfl⟩
  next s hk =>
    split at h
    next t ht => cases h; exact .inr ⟨s, t, hk, ht, rfl⟩
    next => nomatch h
    next => nomatch h

/-- Putting a block with the same number in the place of another keeps the numbers distinct. -/
theorem System.Wf.set {k : Nat} {sys : System} {s t : State} (hwf : sys.Wf) (hk : sys[k]? = some s)
    (hu : t.cfg.unit = s.cfg.unit) : System.Wf (sys.set k t) := by
  obtain ⟨hlt, rfl⟩ := List.getElem?_eq_some_iff.1 hk
  have hunits : (sys.set k t).map (fun x => x.cfg.unit) = sys.map fun x => x.cfg.unit := by
    rw [List.map_set, hu, ← List.getElem_map (fun x : State => x.cfg.unit) (h := by simpa using hlt),
      List.set_getElem_self]
  rw [System.Wf, hunits]
  exact hwf

/-- After reset the instances are numbered in order. -/
theorem units_reset (cs : List Config) :
    (System.reset cs).map (fun x => x.cfg.unit) = List.range cs.length := by
  apply List.ext_getElem <;> simp [System.reset, State.resetWith]

/-- Settles O60: a step replaces the one block by its next state, which keeps its configuration and
so its number. -/
theorem instancesShareNothing : Obligations.InstancesShareNothing := by
  unfold Obligations.InstancesShareNothing
  refine ⟨fun k sys sys' h => ?_, fun cs => ?_⟩
  · rcases stepAt_next h with ⟨hk, rfl⟩ | ⟨s, t, hk, hstep, rfl⟩
    · exact ⟨rfl, fun _ _ => rfl, fun s hs => (by simp [hk] at hs), id⟩
    · have hlt : k < sys.length := (List.getElem?_eq_some_iff.1 hk).1
      refine ⟨List.length_set, fun j hj => List.getElem?_set_ne hj.symm, fun s' hs' => ?_,
        fun hwf => hwf.set hk (congrArg Config.unit (step_cfg hstep))⟩
      obtain rfl : s = s' := Option.some.inj (hk.symm.trans hs')
      exact ⟨t, List.getElem?_set_self hlt, hstep⟩
  · rw [System.Wf, units_reset]
    exact List.nodup_range

end Sys2Proof.Machine
end

section
/-! The state of one block: what a command can do to it, what every step keeps, and that cursor
positions and stale bytes are never observed (10_state.md R23 to R39). -/

namespace Sys2Proof.Machine

/-! ## Ring buffers, whatever is written or taken -/

/-- A write of no byte changes nothing (R104). -/
theorem RingBuffer.write_nil {cap : Nat} {rb : RingBuffer} (h : rb.Wf cap) : rb.write [] = rb := by
  have hl := RingBuffer.len_le h
  obtain ⟨rfl, -, hs, he, -⟩ := h
  simp [RingBuffer.write, RingBuffer.overflow, Memory.store, hasDataAfterWrite,
    Nat.sub_eq_zero_of_le hl, Nat.mod_eq_of_lt hs, Nat.mod_eq_of_lt he]

/-- A write of any number of bytes keeps a buffer well formed (R115). -/
theorem RingBuffer.Wf.write {cap : Nat} {rb : RingBuffer} (h : rb.Wf cap) (bs : List Byte) :
    (rb.write bs).Wf cap := by
  cases bs with
  | nil => rwa [RingBuffer.write_nil h]
  | cons b bs => exact RingBuffer.write_wf h (List.cons_ne_nil b bs)

theorem Buffers.wf_iff {c : Config} {b : Buffers} : b.Wf c ↔ ∀ i, (b.get i).Wf (Config.capOf c i) :=
  ⟨fun h i => match i with | .rb0 => h.rb0 | .rb1 => h.rb1, fun h => ⟨h .rb0, h .rb1⟩⟩

/-- Replacing one buffer by a well-formed one. -/
theorem Buffers.Wf.set {c : Config} {b : Buffers} (h : b.Wf c) {i : RbSel} {rb : RingBuffer}
    (hrb : rb.Wf (Config.capOf c i)) : (b.set i rb).Wf c := by
  refine Buffers.wf_iff.2 fun j => ?_
  by_cases hj : j = i
  · subst hj; rwa [get_set_same]
  · rw [get_set_other b i j rb hj]; exact Buffers.wf_iff.1 h j

/-- BATCH_SEL selects no more frames than are held (R132). -/
theorem frames_le_of_selectBatch {nf : Nat} {n : BatchSize} (h : selectBatch nf = some n) :
    BatchSize.frames n ≤ nf := by
  unfold selectBatch at h
  split at h
  · cases h; assumption
  · split at h
    · cases h; assumption
    · nomatch h

/-- BATCH_SEL pops only held bytes (R133). -/
theorem payloadLen_le_of_selectBatch {c : Config} {b : Buffers} {n : BatchSize}
    (h : selectBatch (framesHeld c b) = some n) : payloadLen c n ≤ b.rb1.len :=
  Nat.mul_le_of_le_div _ _ _ (frames_le_of_selectBatch h)

/-! ## What a command can do (R74) -/

/-- What one command can make of a state: one constructor for each way to change the block. -/
inductive Effect (s : State) : State → Prop
  /-- A rejected command, a query, a transfer of no byte, or BATCH_SEL with no batch. -/
  | answer (r : RStat) (v : Word) (d : List Byte) : Effect s (respond s r v d)
  /-- SESS_START, with either outcome of the draw. -/
  | start (h : s.session = .idle) : Effect s (sessStart s)
  /-- SESS_STOP. -/
  | stop {b : Buffers} (h : s.session.buffers = some b) : Effect s (respond (endSession s) .ok 0 [])
  /-- RB_WRITE. -/
  | write {b : Buffers} (h : s.session = .active b) (i : RbSel) :
      Effect s (respond (setBuffers s (b.set i ((b.get i).write s.din))) .ok 0 [])
  /-- RB_READ of held bytes. -/
  | read {b : Buffers} (h : s.session = .active b) (i : RbSel) {k : Nat} (hk : k ≤ (b.get i).len)
      (v : Word) (d : List Byte) :
      Effect s (respond (setBuffers s (b.set i ((b.get i).take k))) .ok v d)
  /-- RB_READ of more than the held bytes. -/
  | underrun {b : Buffers} (h : s.session = .active b) (i : RbSel) {k : Nat} (hk : k ≤ (b.get i).len)
      (v : Word) (d : List Byte) :
      Effect s (respond (emitEvent (setBuffers s (b.set i ((b.get i).take k).countUnderrun))
        (.underrun i)) .underrun v d)
  /-- BATCH_SEL with a batch, whatever TRANSPORT answers. -/
  | batch {b : Buffers} (h : s.session = .active b) (n : BatchSize) {k : Nat} (hk : k ≤ b.rb1.len)
      (fr : List Byte) (v : Word) :
      Effect s (respondEmission v (transmit n fr
        (emitEvent (setBuffers s (b.set .rb1 (b.rb1.take k))) (.notify n))))
  /-- EMIT.2 and EMIT.4, whatever TRANSPORT answers. -/
  | emit {b : Buffers} (h : s.session = .active b) (n : BatchSize) (fr : List Byte) (v : Word) :
      Effect s (respondEmission v (transmit n fr s))

section
variable {s : State}

theorem Effect.checkDin {need : Nat} {run : State} (h : Effect s run) :
    Effect s (checkDin need s run) := checkDin_of (.answer _ _ _) h

theorem Effect.inIdle {run : State} (h : s.session = .idle → Effect s run) :
    Effect s (inIdle s run) := by
  by_cases hs : s.session = .idle
  · rw [inIdle_idle hs]; exact h hs
  · rw [inIdle_other hs]; exact .answer _ _ _

theorem Effect.inActive {run : Buffers → State} (h : ∀ b, s.session = .active b → Effect s (run b)) :
    Effect s (inActive s run) := by
  unfold Machine.inActive
  split
  next b hs => exact h b hs
  next => exact .answer _ _ _
  next => exact .answer _ _ _

theorem Effect.inSession {run : Buffers → State}
    (h : ∀ b, s.session.buffers = some b → Effect s (run b)) : Effect s (inSession s run) := by
  unfold Machine.inSession
  split
  next b hs => exact h b (by rw [hs]; rfl)
  next b hs => exact h b (by rw [hs]; rfl)
  next => exact .answer _ _ _

theorem rbWrite_effect {b : Buffers} (h : s.session = .active b) (i : RbSel) (n : Nat) :
    Effect s (rbWrite i n s b) := by
  unfold rbWrite
  split
  · exact .answer _ _ _
  · exact .write h i

theorem rbRead_effect {b : Buffers} (h : s.session = .active b) (i : RbSel) (n : Nat) :
    Effect s (rbRead i n s b) := by
  have hk := Nat.min_le_left (b.get i).len n
  unfold rbRead
  dsimp only
  split
  · exact .answer _ _ _
  · split
    · exact .underrun h i hk _ _
    · exact .read h i hk _ _

theorem batchSel_effect {b : Buffers} (h : s.session = .active b) : Effect s (batchSel s b) := by
  unfold batchSel
  split
  next n hn => exact .batch h n (payloadLen_le_of_selectBatch hn) _ _
  next => exact .answer _ _ _

/-- The effect of every command. -/
theorem exec_effect {i : Instr} {t : State} (h : exec i s = .next t) : Effect s t := by
  cases i <;> cases h
  case sessStart => exact .checkDin (.inIdle .start)
  case sessStop => exact .checkDin (.inSession fun _ => .stop)
  case rbWrite j n => exact .checkDin (.inActive fun _ hb => rbWrite_effect hb j n)
  case rbRead j n => exact .checkDin (.inActive fun _ hb => rbRead_effect hb j n)
  case rbLen => exact .checkDin (.inSession fun _ _ => .answer _ _ _)
  case rbGlitch => exact .checkDin (.inSession fun _ _ => .answer _ _ _)
  case batchSel => exact .checkDin (.inActive fun _ => batchSel_effect)
  case emit2 => exact .checkDin (.inActive fun _ hb => .emit hb _ _ _)
  case emit4 => exact .checkDin (.inActive fun _ hb => .emit hb _ _ _)
  case crc32 => exact .checkDin (.answer _ _ _)
  case status => exact .checkDin (.answer _ _ _)
  case cntRd => exact .checkDin (.answer _ _ _)

end

/-- An emission ends in a response, whatever TRANSPORT answers. -/
theorem respondEmission_eq_respond (v : Word) (r : Answer × State) :
    ∃ st, respondEmission v r = respond r.2 st v [] := by
  unfold respondEmission
  split <;> exact ⟨_, rfl⟩

/-- The two ends of SESS_START (R200, R223). -/
theorem sessStart_cases (s : State) :
    sessStart s = respond (beginSession (draw s).2) .ok 0 [] ∨
    sessStart s = respond (recordFatal (draw s).2 .initFail) .initFail 0 [] := by
  unfold sessStart
  dsimp only
  split
  · exact .inl rfl
  · exact .inr rfl

/-! ## The environment (R32) -/

/-- What no command writes: the configuration, and the model's fields for the agents around the
block. -/
def State.environment (s : State) :
    Config × Agent × List Turn × HostPhase × CaptureMode × List CaptureBlock × List HostNote :=
  (s.cfg, s.issuer, s.turns, s.host, s.capture, s.captured, s.hostLog)

theorem environment_eq_iff {s t : State} : t.environment = s.environment ↔
    t.cfg = s.cfg ∧ t.issuer = s.issuer ∧ t.turns = s.turns ∧ t.host = s.host ∧
    t.capture = s.capture ∧ t.captured = s.captured ∧ t.hostLog = s.hostLog := by
  simp [State.environment]

theorem transmit_keepsEnvironment (n : BatchSize) (fr : List Byte) (s : State) :
    (transmit n fr s).2.environment = s.environment :=
  environment_eq_iff.2 (transmit_environment n fr s)

theorem respondEmission_environment (v : Word) (r : Answer × State) :
    (respondEmission v r).environment = r.2.environment := by
  obtain ⟨st, hr⟩ := respondEmission_eq_respond v r
  rw [hr]; rfl

theorem sessStart_environment (s : State) : (sessStart s).environment = s.environment := by
  have hdraw : (draw s).2.environment = s.environment := by simp [State.environment]
  rcases sessStart_cases s with h | h <;> rw [h] <;> exact hdraw

theorem Effect.environment {s t : State} (h : Effect s t) : t.environment = s.environment := by
  cases h with
  | start => exact sessStart_environment s
  | batch => rw [respondEmission_environment, transmit_keepsEnvironment]; rfl
  | emit => rw [respondEmission_environment, transmit_keepsEnvironment]
  | answer | stop | write | read | underrun => rfl

/-- Settles O16: none of the effects of a command touches the environment. -/
theorem commandsKeepTheEnvironment : Obligations.CommandsKeepTheEnvironment := by
  unfold Obligations.CommandsKeepTheEnvironment
  intro i s t h
  exact environment_eq_iff.1 (exec_effect h).environment

/-- Settles O14: no command writes it, and what a step does to the block, one command does. -/
theorem stepKeepsConfiguration : Obligations.StepKeepsConfiguration := by
  unfold Obligations.StepKeepsConfiguration
  exact fun _ _ => step_cfg

/-! ## The trace (R39, R228) -/

theorem transmit_trace (n : BatchSize) (fr : List Byte) (s : State) :
    s.trace <+: (transmit n fr s).2.trace := by
  rcases nextAnswer_cases s with h | h
  · obtain ⟨u, hu, -, -, -, htrace⟩ := transmit_ok n fr h
    rw [hu, htrace]; exact List.prefix_append _ _
  · obtain ⟨u, hu, -, -, -, htrace⟩ := transmit_fail n fr h
    rw [hu, htrace]; exact List.prefix_append _ _

theorem respondEmission_trace (v : Word) (r : Answer × State) :
    (respondEmission v r).trace = r.2.trace := by
  obtain ⟨st, hr⟩ := respondEmission_eq_respond v r
  rw [hr]; rfl

theorem Effect.trace_prefix {s t : State} (h : Effect s t) : s.trace <+: t.trace := by
  cases h with
  | start => rcases sessStart_cases s with h | h <;> simp [h]
  | underrun => exact List.prefix_append _ _
  | batch =>
    rw [respondEmission_trace]
    refine List.IsPrefix.trans ?_ (transmit_trace _ _ _)
    exact List.prefix_append _ _
  | emit => rw [respondEmission_trace]; exact transmit_trace _ _ _
  | answer | stop | write | read => exact List.prefix_rfl

/-- Settles O15: every effect of a command only appends, and a step has the effect of one. -/
theorem stepOnlyAppendsToTrace : Obligations.StepOnlyAppendsToTrace := by
  unfold Obligations.StepOnlyAppendsToTrace
  intro s t h
  rcases step_actsOnce h with same | ⟨i, u, v, hexec, before, after⟩
  · exact ⟨[], by rw [same.trace, List.append_nil]⟩
  · obtain ⟨es, hes⟩ := (exec_effect hexec).trace_prefix
    exact ⟨es, by rw [after.trace, ← hes, before.trace]⟩

/-! ## The invariant (R23, R24, R29, R115) -/

section
variable {s t : State}

/-- The invariant speaks of the configuration, the session and the cause alone. -/
theorem State.Inv.congr (h : s.Inv) (hcfg : t.cfg = s.cfg) (hsession : t.session = s.session)
    (hfcause : t.fcause = s.fcause) : t.Inv := by
  obtain ⟨hlegal, hbuffers, hcause⟩ := h
  unfold State.sstate at hcause
  exact ⟨by rwa [hcfg], by rwa [hcfg, hsession], by rwa [State.sstate, hsession, hfcause]⟩

theorem State.Inv.of_sameBlock (h : s.Inv) (hb : s.SameBlock t) : t.Inv :=
  h.congr hb.cfg hb.session hb.fcause

theorem State.Inv.fcause_of_active (h : s.Inv) {b : Buffers} (hs : s.session = .active b) :
    s.fcause = 0 := by
  simpa [State.sstate, hs, causeLegal] using h.cause

/-- In ACTIVE a buffer may be replaced by any well-formed one. -/
theorem State.Inv.setBuffers (h : s.Inv) {b : Buffers} (hs : s.session = .active b) {i : RbSel}
    {rb : RingBuffer} (hrb : (b.get i).Wf (Config.capOf s.cfg i) → rb.Wf (Config.capOf s.cfg i)) :
    (setBuffers s (b.set i rb)).Inv := by
  have hw : b.Wf s.cfg := h.wf (by rw [hs]; rfl)
  exact .of_active h.legal rfl (hw.set (hrb (Buffers.wf_iff.1 hw i))) (h.fcause_of_active hs)

/-- Outside a session any cause of R29 goes. -/
theorem State.Inv.of_idle (hlegal : s.cfg.legal = true) (hs : s.session = .idle)
    (hcause : causeLegal .idle s.fcause) : s.Inv :=
  ⟨hlegal, by rw [hs]; exact trivial, by rwa [State.sstate, hs]⟩

/-- Leaving a session keeps the cause, which goes with IDLE as well (R262). -/
theorem endSession_inv (h : s.Inv) : (endSession s).Inv := by
  refine .of_idle h.legal rfl ?_
  have hcause := h.cause
  unfold State.sstate at hcause
  cases hs : s.session with
  | idle => rwa [hs] at hcause
  | active b => rw [hs] at hcause; exact .inl hcause
  | faulted b => rw [hs] at hcause; exact .inr (.inl hcause)

/-- SESS_START makes empty buffers and clears the cause, or leaves IDLE with cause 6 (R200, R223). -/
theorem sessStart_inv (h : s.Inv) (hs : s.session = .idle) : (sessStart s).Inv := by
  have hcfg : (draw s).2.cfg = s.cfg := draw_cfg s
  obtain ⟨⟨h0, -⟩, ⟨h1, -⟩, -⟩ := h.constraints
  rcases sessStart_cases s with hr | hr <;> rw [hr]
  · refine .of_active (by simpa using h.legal) rfl ?_ rfl
    simp only [respond_cfg, beginSession_cfg, hcfg]
    exact ⟨RingBuffer.create_wf h0, RingBuffer.create_wf h1⟩
  · exact .of_idle (by simpa using h.legal) (by simpa using hs) (.inr (.inr rfl))

/-- A failed write enters FAULTED with cause 5, a successful one changes nothing (R162, R230). -/
theorem transmit_inv (h : s.Inv) {b : Buffers} (hs : s.session = .active b) (n : BatchSize)
    (fr : List Byte) : (transmit n fr s).2.Inv := by
  have hcfg := (transmit_environment n fr s).1
  rcases nextAnswer_cases s with ha | ha
  · obtain ⟨u, hu, hsession, hfcause, -⟩ := transmit_ok n fr ha
    rw [hu] at hcfg ⊢
    exact h.congr hcfg hsession hfcause
  · obtain ⟨u, hu, hsession, hfcause, -⟩ := transmit_fail n fr ha
    rw [hu] at hcfg ⊢
    rw [hs, toFaulted_active] at hsession
    have hw : b.Wf s.cfg := h.wf (by rw [hs]; rfl)
    exact ⟨by rw [hcfg]; exact h.legal, by rw [hsession, hcfg]; exact hw,
      by rw [State.sstate, hsession]; exact hfcause⟩

theorem respondEmission_inv {r : Answer × State} (h : r.2.Inv) (v : Word) :
    (respondEmission v r).Inv := by
  obtain ⟨st, hr⟩ := respondEmission_eq_respond v r
  rw [hr]; exact h.congr rfl rfl rfl

theorem Effect.inv (e : Effect s t) (h : s.Inv) : t.Inv := by
  cases e with
  | answer => exact h.congr rfl rfl rfl
  | start hs => exact sessStart_inv h hs
  | stop => exact (endSession_inv h).congr rfl rfl rfl
  | write hs => exact (h.setBuffers hs fun hw => hw.write _).congr rfl rfl rfl
  | read hs i hk => exact (h.setBuffers hs fun hw => RingBuffer.take_wf hw hk).congr rfl rfl rfl
  | underrun hs i hk =>
    exact (h.setBuffers hs fun hw =>
      RingBuffer.countUnderrun_wf (RingBuffer.take_wf hw hk)).congr rfl rfl rfl
  | @batch b hs n k hk =>
    have popped := h.setBuffers (i := .rb1) hs fun hw => RingBuffer.take_wf hw hk
    refine respondEmission_inv (transmit_inv ?_ rfl _ _) _
    exact popped.congr rfl rfl rfl
  | emit hs => exact respondEmission_inv (transmit_inv h hs _ _) _

end

/-- Settles O51: the invariant is about the block, and every effect of a command keeps it. -/
theorem stepKeepsTheInvariant : Obligations.StepKeepsTheInvariant := by
  unfold Obligations.StepKeepsTheInvariant
  intro s t hinv h
  rcases step_actsOnce h with same | ⟨i, u, v, hexec, before, after⟩
  · exact hinv.of_sameBlock same
  · exact ((exec_effect hexec).inv (hinv.of_sameBlock before)).of_sameBlock after

/-- Settles O50: after reset there are no buffers and no cause. -/
theorem resetMeetsTheInvariant : Obligations.ResetMeetsTheInvariant := by
  unfold Obligations.ResetMeetsTheInvariant
  have reset : ∀ c : Config, c.legal = true → (State.resetWith c).Inv :=
    fun _ hc => .of_idle hc rfl (.inl rfl)
  exact ⟨reset, reset Config.test (by decide)⟩

end Sys2Proof.Machine
end

section
/-! Cursor positions and stale bytes are never observed (10_state.md R26, R37): states that show the
same take the same steps. The commands are compared first, then the agents, who read nothing of the
buffers but the responses. -/

namespace Sys2Proof.Machine

/-! ## Ring buffers that show the same -/

/-- Two ring buffers of one capacity with the same content and underrun count. -/
structure RingBuffer.Alike (cap : Nat) (rb q : RingBuffer) : Prop where
  wf_left  : rb.Wf cap
  wf_right : q.Wf cap
  content  : rb.content = q.content
  glitch   : rb.glitch = q.glitch

namespace RingBuffer.Alike

variable {cap : Nat} {rb q : RingBuffer}

theorem shown (h : RingBuffer.Alike cap rb q) : rb.shown = q.shown := Prod.ext h.content h.glitch

theorem len (h : RingBuffer.Alike cap rb q) : rb.len = q.len := by
  simpa using congrArg List.length h.content

theorem readOut (h : RingBuffer.Alike cap rb q) (n : Nat) : rb.readOut n = q.readOut n := by
  rw [RingBuffer.readOut, RingBuffer.readOut, h.content, h.len]

theorem write (h : RingBuffer.Alike cap rb q) (bs : List Byte) :
    RingBuffer.Alike cap (rb.write bs) (q.write bs) := by
  refine ⟨h.wf_left.write bs, h.wf_right.write bs, ?_, h.glitch⟩
  cases bs with
  | nil => rw [write_nil h.wf_left, write_nil h.wf_right, h.content]
  | cons b bs =>
    rw [content_write h.wf_left (List.cons_ne_nil b bs),
      content_write h.wf_right (List.cons_ne_nil b bs), h.content]

theorem take (h : RingBuffer.Alike cap rb q) {k : Nat} (hk : k ≤ rb.len) :
    RingBuffer.Alike cap (rb.take k) (q.take k) := by
  have hk' : k ≤ q.len := h.len ▸ hk
  refine ⟨take_wf h.wf_left hk, take_wf h.wf_right hk', ?_, h.glitch⟩
  rw [content_take h.wf_left hk, content_take h.wf_right hk', h.content]

theorem countUnderrun (h : RingBuffer.Alike cap rb q) :
    RingBuffer.Alike cap rb.countUnderrun q.countUnderrun :=
  ⟨countUnderrun_wf h.wf_left, countUnderrun_wf h.wf_right, h.content, congrArg (· + 1) h.glitch⟩

end RingBuffer.Alike

/-- The buffers of two sessions that show the same. -/
def Buffers.Alike (c : Config) (b b' : Buffers) : Prop :=
  ∀ i, RingBuffer.Alike (Config.capOf c i) (b.get i) (b'.get i)

theorem Buffers.Alike.set {c : Config} {b b' : Buffers} (h : b.Alike c b') {i : RbSel}
    {rb q : RingBuffer} (hrb : RingBuffer.Alike (Config.capOf c i) rb q) :
    (b.set i rb).Alike c (b'.set i q) := by
  intro j
  by_cases hj : j = i
  · subst hj; rwa [get_set_same, get_set_same]
  · rw [get_set_other b i j rb hj, get_set_other b' i j q hj]; exact h j

theorem Buffers.Alike.of_shown {c : Config} {b b' : Buffers} (h : b.Wf c) (h' : b'.Wf c)
    (h0 : b.rb0.shown = b'.rb0.shown) (h1 : b.rb1.shown = b'.rb1.shown) : b.Alike c b'
  | .rb0 => ⟨h.rb0, h'.rb0, congrArg Prod.fst h0, congrArg Prod.snd h0⟩
  | .rb1 => ⟨h.rb1, h'.rb1, congrArg Prod.fst h1, congrArg Prod.snd h1⟩

theorem Buffers.Alike.shown_active {c : Config} {b b' : Buffers} (h : b.Alike c b') :
    (Session.active b).shown = (Session.active b').shown := by
  have h0 : b.rb0.shown = b'.rb0.shown := (h .rb0).shown
  have h1 : b.rb1.shown = b'.rb1.shown := (h .rb1).shown
  rw [Session.shown, Session.shown, h0, h1]

theorem Session.shown_toFaulted {x y : Session} (h : x.shown = y.shown) :
    x.toFaulted.shown = y.toFaulted.shown := by
  cases x <;> cases y <;> simp_all [Session.shown]

/-! ## States that show the same -/

/-- An update of the state that neither reads nor writes the session. -/
def SessionBlind (f : State → State) : Prop :=
  ∀ s x, f { s with session := x } = { f s with session := x }

theorem SessionBlind.session {f : State → State} (hf : SessionBlind f) (s : State) :
    (f s).session = s.session := by
  simpa using congrArg State.session (hf s s.session)

theorem SessionBlind.ite {p : State → Prop} [DecidablePred p] {f g : State → State}
    (hp : ∀ s x, p { s with session := x } = p s) (hf : SessionBlind f) (hg : SessionBlind g) :
    SessionBlind fun s => if p s then f s else g s := by
  intro s x
  by_cases h : p s
  · simp only [hp, h, if_true]; exact hf s x
  · simp only [hp, h, if_false]; exact hg s x

theorem draw_sessionBlind : SessionBlind fun s => (draw s).2 := by
  intro s x
  cases h : s.answers <;> simp only [draw, h]

theorem State.sameShown_iff {s t : State} :
    s.SameShown t ↔ ∃ x, s.session.shown = x.shown ∧ t = { s with session := x } := by
  constructor
  · intro h
    exact ⟨t.session, h.1, h.2.symm⟩
  · rintro ⟨x, hx, rfl⟩
    exact ⟨hx, rfl⟩

/-- Draws with the same answer that leave states that show the same. -/
def SameDraw (r q : Answer × State) : Prop := r.1 = q.1 ∧ r.2.SameShown q.2

section
variable {s t : State}

theorem State.SameShown.map {f : State → State} (h : s.SameShown t) (hf : SessionBlind f) :
    (f s).SameShown (f t) := by
  obtain ⟨x, hx, rfl⟩ := State.sameShown_iff.1 h
  exact State.sameShown_iff.2 ⟨x, by rwa [hf.session], hf s x⟩

/-- Whatever does not read the session is the same. -/
theorem State.SameShown.agree {α : Type} (h : s.SameShown t) (g : State → α)
    (hg : ∀ s x, g { s with session := x } = g s) : g t = g s := by
  obtain ⟨x, -, rfl⟩ := State.sameShown_iff.1 h
  exact hg s x

theorem State.SameShown.cfg (h : s.SameShown t) : t.cfg = s.cfg := h.agree _ fun _ _ => rfl

theorem State.SameShown.respond (h : s.SameShown t) (r : RStat) (v : Word) (d : List Byte) :
    (respond s r v d).SameShown (respond t r v d) :=
  h.map (f := fun u => Machine.respond u r v d) fun _ _ => rfl

theorem State.SameShown.emitEvent (h : s.SameShown t) (e : Event) :
    (emitEvent s e).SameShown (emitEvent t e) :=
  h.map (f := fun u => Machine.emitEvent u e) fun _ _ => rfl

theorem State.SameShown.setBuffers (h : s.SameShown t) {c : Config} {b b' : Buffers}
    (hb : b.Alike c b') : (setBuffers s b).SameShown (setBuffers t b') := by
  obtain ⟨x, -, rfl⟩ := State.sameShown_iff.1 h
  exact State.sameShown_iff.2 ⟨.active b', hb.shown_active, rfl⟩

theorem State.SameShown.enterFaulted (h : s.SameShown t) :
    (enterFaulted s).SameShown (enterFaulted t) := by
  obtain ⟨x, hx, rfl⟩ := State.sameShown_iff.1 h
  exact State.sameShown_iff.2 ⟨x.toFaulted, Session.shown_toFaulted hx, rfl⟩

theorem State.SameShown.beginSession (h : s.SameShown t) :
    (beginSession s).SameShown (beginSession t) := by
  obtain ⟨x, -, rfl⟩ := State.sameShown_iff.1 h
  exact ⟨rfl, rfl⟩

theorem State.SameShown.endSession (h : s.SameShown t) :
    (endSession s).SameShown (endSession t) := by
  obtain ⟨x, -, rfl⟩ := State.sameShown_iff.1 h
  exact ⟨rfl, rfl⟩

theorem State.SameShown.sstate (h : s.SameShown t) : t.sstate = s.sstate := by
  have hfst : ∀ x : Session, x.shown.1 = x.sstate := by rintro (_ | _ | _) <;> rfl
  rw [State.sstate, State.sstate, ← hfst, ← hfst, h.1]

theorem State.SameShown.draw (h : s.SameShown t) : SameDraw (draw s) (draw t) :=
  ⟨(nextAnswer_congr h.cfg (h.agree State.answers fun _ _ => rfl)
    (h.agree State.draws fun _ _ => rfl)).symm, h.map draw_sessionBlind⟩

theorem State.SameShown.sessStart (h : s.SameShown t) : (sessStart s).SameShown (sessStart t) := by
  obtain ⟨hanswer, hshown⟩ := h.draw
  unfold Machine.sessStart
  dsimp only
  rw [← hanswer]
  split
  · exact hshown.beginSession.respond _ _ _
  · exact (hshown.map (f := fun u => recordFatal u .initFail) fun _ _ => rfl).respond _ _ _

theorem State.SameShown.transmit (h : s.SameShown t) (n : BatchSize) (fr : List Byte) :
    SameDraw (transmit n fr s) (transmit n fr t) := by
  obtain ⟨hanswer, hshown⟩ := (h.map (f := fun u =>
    { u with ctr := u.ctr + BitVec.ofNat 16 (BatchSize.frames n) }) fun _ _ => rfl).draw
  unfold Machine.transmit
  dsimp only
  rw [← hanswer]
  have hsent := fun a => hshown.emitEvent (.frame fr a)
  split
  · exact ⟨rfl, hsent _⟩
  · exact ⟨rfl, (hsent _).enterFaulted⟩

theorem State.SameShown.emitFrame (h : s.SameShown t) (n : BatchSize) (payload : List Byte) :
    SameDraw (emitFrame n payload s) (emitFrame n payload t) := by
  have hctr : t.ctr = s.ctr := h.agree _ fun _ _ => rfl
  unfold Machine.emitFrame
  rw [h.cfg, hctr]
  exact h.transmit n _

theorem SameDraw.respondEmission {r q : Answer × State} (h : SameDraw r q) (v : Word) :
    (respondEmission v r).SameShown (respondEmission v q) := by
  obtain ⟨hanswer, hshown⟩ := h
  unfold Machine.respondEmission
  rw [← hanswer]
  split <;> exact hshown.respond _ _ _

end

/-! ## The commands -/

/-- Two states that show the same, with well-formed buffers. -/
structure State.Alike (s t : State) : Prop where
  shown    : s.SameShown t
  wf_left  : s.session.Wf s.cfg
  wf_right : t.session.Wf t.cfg

section
variable {s t : State}

theorem State.Alike.map {f : State → State} (h : s.Alike t) (hf : SessionBlind f)
    (hcfg : ∀ u, (f u).cfg = u.cfg) : (f s).Alike (f t) :=
  ⟨h.shown.map hf, by rw [hf.session, hcfg]; exact h.wf_left,
    by rw [hf.session, hcfg]; exact h.wf_right⟩

/-- The two blocks are in the same session state, and in a session with buffers that show the same. -/
theorem State.Alike.sessions (h : s.Alike t) :
    (s.session = .idle ∧ t.session = .idle) ∨
    (∃ b b', s.session = .active b ∧ t.session = .active b' ∧ b.Alike s.cfg b') ∨
    (∃ b b', s.session = .faulted b ∧ t.session = .faulted b' ∧ b.Alike s.cfg b') := by
  obtain ⟨hshown, hwf, hwf'⟩ := h
  have heq := hshown.1
  rw [hshown.cfg] at hwf'
  cases hs : s.session <;> cases ht : t.session <;> rw [hs, ht] at heq <;>
    simp only [Session.shown, Prod.mk.injEq, reduceCtorEq, false_and, List.cons.injEq, and_true,
      true_and] at heq
  case idle.idle => exact .inl ⟨rfl, rfl⟩
  case active.active b b' =>
    obtain ⟨h0, h1⟩ := heq
    rw [hs] at hwf; rw [ht] at hwf'
    exact .inr (.inl ⟨b, b', rfl, rfl, .of_shown hwf hwf' h0 h1⟩)
  case faulted.faulted b b' =>
    obtain ⟨h0, h1⟩ := heq
    rw [hs] at hwf; rw [ht] at hwf'
    exact .inr (.inr ⟨b, b', rfl, rfl, .of_shown hwf hwf' h0 h1⟩)

theorem State.SameShown.checkDin (h : s.SameShown t) {need : Nat} {run run' : State}
    (hrun : run.SameShown run') : (checkDin need s run).SameShown (checkDin need t run') := by
  have hdin : t.din = s.din := h.agree _ fun _ _ => rfl
  unfold Machine.checkDin
  rw [hdin]
  split
  · exact hrun
  · exact h.respond _ _ _

theorem State.Alike.inIdle (h : s.Alike t) {run run' : State} (hrun : run.SameShown run') :
    (inIdle s run).SameShown (inIdle t run') := by
  rcases h.sessions with ⟨hs, ht⟩ | ⟨b, b', hs, ht, -⟩ | ⟨b, b', hs, ht, -⟩ <;>
    simp only [Machine.inIdle, hs, ht]
  · exact hrun
  · exact h.shown.respond _ _ _
  · exact h.shown.respond _ _ _

theorem State.Alike.inActive (h : s.Alike t) {run run' : Buffers → State}
    (hrun : ∀ b b', b.Alike s.cfg b' → (run b).SameShown (run' b')) :
    (inActive s run).SameShown (inActive t run') := by
  rcases h.sessions with ⟨hs, ht⟩ | ⟨b, b', hs, ht, hb⟩ | ⟨b, b', hs, ht, -⟩ <;>
    simp only [Machine.inActive, hs, ht]
  · exact h.shown.respond _ _ _
  · exact hrun b b' hb
  · exact h.shown.respond _ _ _

theorem State.Alike.inSession (h : s.Alike t) {run run' : Buffers → State}
    (hrun : ∀ b b', b.Alike s.cfg b' → (run b).SameShown (run' b')) :
    (inSession s run).SameShown (inSession t run') := by
  rcases h.sessions with ⟨hs, ht⟩ | ⟨b, b', hs, ht, hb⟩ | ⟨b, b', hs, ht, hb⟩ <;>
    simp only [Machine.inSession, hs, ht]
  · exact h.shown.respond _ _ _
  · exact hrun b b' hb
  · exact hrun b b' hb

theorem State.SameShown.rbWrite (h : s.SameShown t) {b b' : Buffers} (hb : b.Alike s.cfg b')
    (i : RbSel) (n : Nat) : (rbWrite i n s b).SameShown (rbWrite i n t b') := by
  have hdin : t.din = s.din := h.agree _ fun _ _ => rfl
  unfold Machine.rbWrite
  rw [hdin]
  split
  · exact h.respond _ _ _
  · exact (h.setBuffers (hb.set ((hb i).write s.din))).respond _ _ _

theorem State.SameShown.rbRead (h : s.SameShown t) {b b' : Buffers} (hb : b.Alike s.cfg b')
    (i : RbSel) (n : Nat) : (rbRead i n s b).SameShown (rbRead i n t b') := by
  have taken := (hb i).take (Nat.min_le_left (b.get i).len n)
  unfold Machine.rbRead
  dsimp only
  rw [← (hb i).len, ← (hb i).readOut]
  split
  · exact h.respond _ _ _
  · split
    · exact ((h.setBuffers (hb.set taken.countUnderrun)).emitEvent _).respond _ _ _
    · exact (h.setBuffers (hb.set taken)).respond _ _ _

theorem State.SameShown.batchSel (h : s.SameShown t) {b b' : Buffers} (hb : b.Alike s.cfg b') :
    (batchSel s b).SameShown (batchSel t b') := by
  have hheld : framesHeld t.cfg b' = framesHeld s.cfg b := by
    rw [framesHeld, framesHeld, h.cfg, show b.rb1.len = b'.rb1.len from (hb .rb1).len]
  unfold Machine.batchSel
  rw [hheld]
  split
  next n hn =>
    have popped := (hb .rb1).take (payloadLen_le_of_selectBatch hn)
    unfold emitBatch
    dsimp only
    rw [h.cfg, ← show b.rb1.content = b'.rb1.content from (hb .rb1).content]
    exact (((h.setBuffers (hb.set popped)).emitEvent _).emitFrame _ _).respondEmission _
  next => exact h.respond _ _ _

/-- One state takes every next step that the other takes, to a state that shows the same. -/
def SameNext (o o' : Host.Outcome State Fault Refusal) : Prop :=
  ∀ u, o = .next u → ∃ v, o' = .next v ∧ u.SameShown v

theorem SameNext.next (h : s.SameShown t) : SameNext (.next s) (.next t) := by
  rintro _ ⟨⟩
  exact ⟨t, rfl, h⟩

/-- No command observes cursors or stale bytes (R26, R37). -/
theorem exec_sameNext (i : Instr) (h : s.Alike t) : SameNext (exec i s) (exec i t) := by
  have hdin : t.din = s.din := h.shown.agree _ fun _ _ => rfl
  have hctr : t.ctr = s.ctr := h.shown.agree _ fun _ _ => rfl
  have hfcause : t.fcause = s.fcause := h.shown.agree _ fun _ _ => rfl
  cases i with
  | sessStart => exact .next (h.shown.checkDin (h.inIdle h.shown.sessStart))
  | sessStop =>
    exact .next (h.shown.checkDin (h.inSession fun _ _ _ => h.shown.endSession.respond _ _ _))
  | rbWrite i n => exact .next (h.shown.checkDin (h.inActive fun _ _ hb => h.shown.rbWrite hb i n))
  | rbRead i n => exact .next (h.shown.checkDin (h.inActive fun _ _ hb => h.shown.rbRead hb i n))
  | rbLen i =>
    refine .next (h.shown.checkDin (h.inSession fun _ _ hb => ?_))
    rw [(hb i).len]; exact h.shown.respond _ _ _
  | rbGlitch i =>
    refine .next (h.shown.checkDin (h.inSession fun _ _ hb => ?_))
    rw [(hb i).glitch]; exact h.shown.respond _ _ _
  | batchSel => exact .next (h.shown.checkDin (h.inActive fun _ _ => h.shown.batchSel))
  | emit2 =>
    unfold exec execEmit2
    rw [h.shown.cfg, hdin]
    exact .next (h.shown.checkDin (h.inActive fun _ _ _ => (h.shown.emitFrame _ _).respondEmission _))
  | emit4 =>
    unfold exec execEmit4
    rw [h.shown.cfg, hdin]
    exact .next (h.shown.checkDin (h.inActive fun _ _ _ => (h.shown.emitFrame _ _).respondEmission _))
  | crc32 n =>
    unfold exec execCrc32
    rw [h.shown.cfg, hdin]
    exact .next (h.shown.checkDin (h.shown.respond _ _ _))
  | status =>
    unfold exec execStatus
    rw [h.shown.sstate, hfcause]
    exact .next (h.shown.checkDin (h.shown.respond _ _ _))
  | cntRd =>
    unfold exec execCntRd
    rw [hctr]
    exact .next (h.shown.checkDin (h.shown.respond _ _ _))

end

/-! ## The agents -/

section
variable {s t : State} {o o' : Host.Outcome State Fault Refusal}

theorem SameNext.andThen (h : SameNext o o') {k k' : State → Host.Outcome State Fault Refusal}
    (hk : ∀ u v, u.SameShown v → SameNext (k u) (k' v)) : SameNext (andThen o k) (andThen o' k') := by
  intro w hw
  obtain ⟨u, rfl, hu⟩ := andThen_next hw
  obtain ⟨v, rfl, huv⟩ := h u rfl
  exact hk u v huv w hu

theorem SameNext.andThen_blind (h : SameNext o o') {f : State → State} (hf : SessionBlind f) :
    SameNext (Machine.andThen o fun u => .next (f u)) (Machine.andThen o' fun u => .next (f u)) :=
  h.andThen fun _ _ huv => .next (huv.map hf)

theorem SameNext.ite {p q : Prop} [Decidable p] [Decidable q] (hqp : q ↔ p)
    {o₁ o₁' o₂ o₂' : Host.Outcome State Fault Refusal} (h₁ : SameNext o₁ o₁') (h₂ : SameNext o₂ o₂') :
    SameNext (if p then o₁ else o₂) (if q then o₁' else o₂') := by
  by_cases hp : p
  · rwa [if_pos hp, if_pos (hqp.2 hp)]
  · rwa [if_neg hp, if_neg (mt hqp.1 hp)]

theorem issue_sameNext (a : Agent) (tx : Transaction) (h : s.Alike t) :
    SameNext (issue a tx s) (issue a tx t) := by
  have issued := h.map (f := fun u => { u with issuer := a, din := tx.din }) (fun _ _ => rfl)
    fun _ => rfl
  unfold issue
  split
  next i _ => exact exec_sameNext i issued
  next => exact .next (issued.shown.respond _ _ _)

theorem hostReact_sessionBlind (tx : Transaction) : SessionBlind (hostReact tx) := by
  have hstart : SessionBlind afterStart :=
    .ite (fun _ _ => rfl) (fun _ _ => rfl) (.ite (fun _ _ => rfl) (fun _ _ => rfl) fun _ _ => rfl)
  have hstop : SessionBlind afterStop :=
    .ite (fun _ _ => rfl) (fun _ _ => rfl) (.ite (fun _ _ => rfl) (fun _ _ => rfl) fun _ _ => rfl)
  exact .ite (fun _ _ => rfl) (fun _ _ => rfl)
    (.ite (fun _ _ => rfl) hstart (.ite (fun _ _ => rfl) hstop fun _ _ => rfl))

theorem hostPrepare_sessionBlind (tx : Transaction) : SessionBlind (hostPrepare tx) :=
  .ite (fun _ _ => rfl) (fun _ _ => rfl) fun _ _ => rfl

theorem hostCommand_sameNext (tx : Transaction) (h : s.Alike t) :
    SameNext (hostCommand tx s) (hostCommand tx t) :=
  (issue_sameNext .host tx (h.map (hostPrepare_sessionBlind tx) fun u =>
    (hostPrepare_sameBlock tx u).cfg)).andThen_blind (hostReact_sessionBlind tx)

theorem hostWritePcm_sameNext (col : Collaborators) (blk : CaptureBlock) (h : s.Alike t) :
    SameNext (hostWritePcm col blk s) (hostWritePcm col blk t) := by
  unfold hostWritePcm
  dsimp only
  rw [h.shown.cfg]
  have noted := h.map (f := fun u => note u (capturePcm col s.cfg blk).2) (fun _ _ => rfl) fun _ => rfl
  exact (issue_sameNext _ _ noted).andThen_blind fun _ _ => rfl

theorem hostBegin_sameNext (col : Collaborators) (h : s.Alike t) :
    SameNext (hostBegin col s) (hostBegin col t) := by
  have hcaptured : t.captured = s.captured := h.shown.agree _ fun _ _ => rfl
  unfold hostBegin
  rw [hcaptured]
  cases s.captured with
  | nil => exact .next h.shown
  | cons blk rest =>
    exact hostWritePcm_sameNext col blk
      (h.map (f := fun u => { u with captured := rest }) (fun _ _ => rfl) fun _ => rfl)

theorem hostTest_sameNext (h : s.Alike t) : SameNext (hostTest s) (hostTest t) := by
  unfold hostTest
  rw [h.shown.cfg]
  exact (issue_sameNext _ _ h).andThen_blind fun _ _ => rfl

/-- The encoder reads only the response. -/
theorem hostEncode_sameNext (col : Collaborators) (h : s.SameShown t) :
    SameNext (hostEncode col s) (hostEncode col t) := by
  have hdout : lastDout t = lastDout s := h.agree _ fun _ _ => rfl
  unfold hostEncode
  dsimp only
  rw [hdout, h.cfg]
  split
  · exact .next (h.map (f := fun u => setHost (note u _) _) fun _ _ => rfl)
  · split
    · exact .next (h.map (f := fun u => setHost u _) fun _ _ => rfl)
    · exact fun _ hu => nomatch hu

theorem hostRead_sameNext (col : Collaborators) (h : s.Alike t) :
    SameNext (hostRead col s) (hostRead col t) := by
  unfold hostRead
  rw [h.shown.cfg]
  exact (issue_sameNext _ _ h).andThen fun _ _ => hostEncode_sameNext col

theorem hostBatch_sameNext (h : s.Alike t) : SameNext (hostBatch s) (hostBatch t) :=
  (hostCommand_sameNext _ h).andThen_blind (.ite (fun _ _ => rfl) (fun _ _ => rfl) fun _ _ => rfl)

theorem hostTurn_sameNext (col : Collaborators) (h : s.Alike t) :
    SameNext (hostTurn col s) (hostTurn col t) := by
  have hhost : t.host = s.host := h.shown.agree _ fun _ _ => rfl
  unfold hostTurn
  rw [hhost]
  cases s.host with
  | idle => exact hostBegin_sameNext col h
  | test => exact hostTest_sameNext h
  | read => exact hostRead_sameNext col h
  | append out => exact (issue_sameNext _ _ h).andThen_blind fun _ _ => rfl
  | batch => exact hostBatch_sameNext h
  | stop => exact hostCommand_sameNext _ h
  | owesStop => exact hostCommand_sameNext _ h

theorem deliver_sameNext (col : Collaborators) (blk : CaptureBlock) (h : s.Alike t) :
    SameNext (deliver col blk s) (deliver col blk t) := by
  have hcapture : t.capture = s.capture := h.shown.agree _ fun _ _ => rfl
  have hcaptured : t.captured = s.captured := h.shown.agree _ fun _ _ => rfl
  have hhost : t.host = s.host := h.shown.agree _ fun _ _ => rfl
  have queued := h.shown.map (f := fun u => { u with captured := u.captured ++ [blk] }) fun _ _ => rfl
  exact .ite (by rw [hcapture]) (.next h.shown)
    (.ite (by rw [hhost, hcaptured]) (hostWritePcm_sameNext col blk h) (.next queued))

theorem waitFill_sameNext (a : Agent) (i : RbSel) (k : Nat) (h : s.Alike t) :
    SameNext (waitFill a i k s) (waitFill a i k t) :=
  (issue_sameNext _ _ h).andThen_blind (.ite (fun _ _ => rfl) (fun _ _ => rfl) fun _ _ => rfl)

theorem takeEntry_sameNext (col : Collaborators) (x : Turn) (h : s.Alike t) :
    SameNext (takeEntry col x s) (takeEntry col x t) := by
  cases x with
  | command a tx =>
    cases a with
    | host => exact hostCommand_sameNext tx h
    | observer n => exact issue_sameNext _ tx h
  | waitFill a i k => exact waitFill_sameNext a i k h
  | capture blk => exact deliver_sameNext col blk h
  | host => exact hostTurn_sameNext col h
  | start => exact hostCommand_sameNext AsmLine.sessStart.assemble h
  | stop => exact hostCommand_sameNext AsmLine.sessStop.assemble h
  | captureStart => exact .next (h.shown.map (f := fun u => { u with capture := _ }) fun _ _ => rfl)
  | captureHalt => exact .next (h.shown.map (f := haltCapture) fun _ _ => rfl)

theorem takeTurn_sameNext (col : Collaborators) (x : Turn) (h : s.Alike t) :
    SameNext (takeTurn col x s) (takeTurn col x t) := by
  have hwaits : x.waits t = x.waits s := h.shown.agree _ fun _ _ => by cases x <;> rfl
  exact .ite (by rw [hwaits]) ((hostTurn_sameNext col h).andThen_blind fun _ _ => rfl)
    (takeEntry_sameNext col x h)

/-- No step of any agent observes cursors or stale bytes. -/
theorem step_sameNext (h : s.Alike t) : SameNext (step s) (step t) := by
  have hturns : t.turns = s.turns := h.shown.agree _ fun _ _ => rfl
  unfold step
  rw [h.shown.cfg]
  refine .ite (by rw [h.shown.cfg]) ?_ fun _ hu => nomatch hu
  rw [hturns]
  cases s.turns with
  | nil => exact .next h.shown
  | cons x rest =>
    exact takeTurn_sameNext _ x
      (h.map (f := fun u => { u with turns := rest }) (fun _ _ => rfl) fun _ => rfl)

end

/-- Settles O52: the invariant makes the buffers well formed, and then every step of the one state is a
step of the other. -/
theorem staleBytesAreNeverObserved : Obligations.StaleBytesAreNeverObserved := by
  unfold Obligations.StaleBytesAreNeverObserved
  intro s t s' hs ht hshown hstep
  exact step_sameNext ⟨hshown, hs.buffers, ht.buffers⟩ s' hstep

end Sys2Proof.Machine
end

section
/-! The order of the agents: which entry a step takes and what it leaves of the order, the polls of
WAIT_FILL, and asking a query again (10_state.md R57, 20_memory.md R60, R67, 30_encoding.md R70, R82,
41_batch.md R138, 60_exceptions.md R224). -/

namespace Sys2Proof.Machine

/-! ## Queries asked again (R57) -/

/-- A query reads no earlier response, and its own takes that one's place. -/
theorem exec_query_resp {i : Instr} (hq : isQuery i = true) (s : State) (r : Option Response) :
    exec i { s with resp := r } = exec i s := by
  cases i with
  | rbLen | rbGlitch | crc32 | status | cntRd => rfl
  | sessStart | sessStop | rbWrite | rbRead | batchSel | emit2 | emit4 => nomatch hq

/-- Settles O17: a query only answers, and with its data put back only the response differs, which
no query reads. -/
theorem queriesHaveNoEffect : Obligations.QueriesHaveNoEffect := by
  unfold Obligations.QueriesHaveNoEffect
  intro i s hq
  obtain ⟨t, ht, r, rfl⟩ := exec_query hq s
  exact ⟨r, ht, (exec_query_resp hq s (some r)).trans ht⟩

/-! ## The entry a step takes (R60, R138) -/

/-- A step takes the first entry of the order. -/
theorem step_of_turns {s : State} {x : Turn} {rest : List Turn} (hl : s.cfg.legal = true)
    (hs : s.turns = x :: rest) :
    step s = takeTurn (Config.collaborators s.cfg) x { s with turns := rest } := by
  simp only [step, stepWith, hl, hs, if_true]

theorem takeTurn_of_waits {col : Collaborators} {x : Turn} {s : State} (h : x.waits s = true) :
    takeTurn col x s =
      andThen (hostTurn col s) fun u => .next { u with turns := yieldPoll .host x u.turns } :=
  if_pos h

theorem takeTurn_of_not_waits {col : Collaborators} {x : Turn} {s : State} (h : x.waits s = false) :
    takeTurn col x s = takeEntry col x s :=
  if_neg (by simp [h])

/-- Only an entry of the HOST waits for the HOST's program. -/
theorem mover_of_waits {x : Turn} {s : State} (h : x.waits s = true) : x.mover = some .host := by
  cases x with
  | command a | waitFill a => simp_all [Turn.waits, Turn.mover]
  | host | capture => nomatch h
  | start | stop | captureStart | captureHalt => rfl

/-- While callbacks are to be run every entry of the HOST waits but a turn of its program. -/
theorem waits_of_hostBusy {x : Turn} {s : State} (hm : x.mover = some .host) (hx : x ≠ .host)
    (hb : hostBusy s = true) : x.waits s = true := by
  cases x with
  | command a | waitFill a =>
    obtain rfl : a = .host := Option.some.inj hm
    simp [Turn.waits, hb]
  | capture => nomatch hm
  | host => exact absurd rfl hx
  | start | stop | captureStart | captureHalt => exact hb

/-- A command of the HOST with a word that decodes. -/
theorem hostCommand_of_decode {tx : Transaction} {i : Instr} (h : decode tx.word = .ok i)
    (s : State) :
    hostCommand tx s = andThen (exec i { hostPrepare tx s with issuer := .host, din := tx.din })
      fun t => .next (hostReact tx t) := by
  rw [hostCommand, issue_of_decode h]

/-- Settles O6: a transaction that does not wait is taken by its agent, and an entry that waits gives
place to the HOST's program. -/
theorem stepRunsDecodedCommand : Obligations.StepRunsDecodedCommand := by
  unfold Obligations.StepRunsDecodedCommand
  refine ⟨fun s a tx rest i hl hs hd => ⟨?_, fun ha => ?_⟩, fun s x rest hl hs hm hx hb => ?_⟩
  · rintro rfl hb
    have hw : (Turn.command .host tx).waits s = false := by simp [Turn.waits, hb]
    rw [step_of_turns hl hs, takeTurn_of_not_waits (by rwa [waits_dropTurns])]
    exact hostCommand_of_decode hd _
  · cases a with
    | host => exact absurd rfl ha
    | observer n =>
      rw [step_of_turns hl hs, takeTurn_of_not_waits rfl]
      exact issue_of_decode hd _
  · have hw : x.waits s = true := waits_of_hostBusy hm hx hb
    rw [step_of_turns hl hs, takeTurn_of_waits (by rwa [waits_dropTurns])]

/-! ## What a turn leaves of the order

A turn puts nothing before the entries that stand in the order. It adds only the HOST's turn for an
owed SESS_STOP behind them (R224), and an entry that is gone back to (R82, R138). -/

section
variable {s t : State}

theorem issue_turns {a : Agent} {tx : Transaction} (h : issue a tx s = .next t) :
    t.turns = s.turns := by
  unfold issue at h
  split at h
  next => exact (environment_eq_iff.1 (exec_effect h).environment).2.2.1
  next => cases h; rfl

/-- A command and then a change that keeps the order. -/
theorem issue_then_turns {a : Agent} {tx : Transaction} {k : State → Host.Outcome State Fault Refusal}
    (h : andThen (issue a tx s) k = .next t) (hk : ∀ v, k v = .next t → v.turns <+: t.turns) :
    s.turns <+: t.turns := by
  obtain ⟨v, hv, ht⟩ := andThen_next h
  exact issue_turns hv ▸ hk v ht

theorem hostPrepare_turns (tx : Transaction) (s : State) : (hostPrepare tx s).turns = s.turns := by
  unfold hostPrepare
  split <;> rfl

theorem afterStart_turns (t : State) : (afterStart t).turns = t.turns := by
  unfold afterStart
  split
  · rfl
  · split <;> rfl

theorem afterStop_turns (t : State) : (afterStop t).turns = t.turns := by
  unfold afterStop
  split
  · rfl
  · split <;> rfl

/-- The HOST's reaction adds at most its turn for SESS_STOP, at the end. -/
theorem hostReact_turns (tx : Transaction) (t : State) : t.turns <+: (hostReact tx t).turns := by
  unfold hostReact
  split
  · exact List.prefix_append _ _
  · split
    · rw [afterStart_turns]
    · split
      · rw [afterStop_turns]
      · exact List.prefix_rfl

theorem hostCommand_turns {tx : Transaction} (h : hostCommand tx s = .next t) :
    s.turns <+: t.turns := by
  rw [← hostPrepare_turns tx s]
  exact issue_then_turns h fun v hv => by cases hv; exact hostReact_turns tx v

theorem hostWritePcm_turns {col : Collaborators} {blk : CaptureBlock}
    (h : hostWritePcm col blk s = .next t) : s.turns <+: t.turns :=
  issue_then_turns (s := note s (capturePcm col s.cfg blk).2) h fun _ hv => by
    cases hv; exact List.prefix_rfl

theorem hostBegin_turns {col : Collaborators} (h : hostBegin col s = .next t) :
    s.turns <+: t.turns := by
  unfold hostBegin at h
  split at h
  next => cases h; exact List.prefix_rfl
  next rest _ => exact hostWritePcm_turns (s := { s with captured := rest }) h

theorem hostEncode_turns {col : Collaborators} (h : hostEncode col s = .next t) :
    s.turns <+: t.turns := by
  unfold hostEncode at h
  dsimp only at h
  split at h
  · cases h; exact List.prefix_rfl
  · split at h
    · cases h; exact List.prefix_rfl
    · nomatch h

theorem hostBatch_turns (h : hostBatch s = .next t) : s.turns <+: t.turns := by
  obtain ⟨v, hv, ht⟩ := andThen_next h
  refine (hostCommand_turns hv).trans ?_
  cases ht
  split <;> exact List.prefix_rfl

theorem hostTurn_turns {col : Collaborators} (h : hostTurn col s = .next t) :
    s.turns <+: t.turns := by
  unfold hostTurn at h
  split at h
  next => exact hostBegin_turns h
  next => exact issue_then_turns h fun _ hv => by cases hv; exact List.prefix_rfl
  next => exact issue_then_turns h fun _ => hostEncode_turns
  next => exact issue_then_turns h fun _ hv => by cases hv; exact List.prefix_rfl
  next => exact hostBatch_turns h
  next => exact hostCommand_turns h
  next => exact hostCommand_turns h

theorem deliver_turns {col : Collaborators} {blk : CaptureBlock} (h : deliver col blk s = .next t) :
    s.turns <+: t.turns := by
  unfold deliver at h
  split at h
  · cases h; exact List.prefix_rfl
  · split at h
    · exact hostWritePcm_turns h
    · cases h; exact List.prefix_rfl

theorem takeCommand_turns {a : Agent} {tx : Transaction} (h : takeCommand a tx s = .next t) :
    s.turns <+: t.turns := by
  cases a with
  | host => exact hostCommand_turns h
  | observer => rw [issue_turns h]

/-- What taking the entry `x` with the entries `rest` behind it can make of the order: the entries
behind it stay in front, and the agent may go back to `x`. -/
def OrderAfter (x : Turn) (rest after : List Turn) : Prop :=
  ∃ later, rest <+: later ∧ (after = later ∨ ∃ a, x.mover = some a ∧ after = yieldPoll a x later)

theorem OrderAfter.of_prefix {x : Turn} {rest after : List Turn} (h : rest <+: after) :
    OrderAfter x rest after := ⟨after, h, .inl rfl⟩

theorem waitFill_orderAfter {a : Agent} {i : RbSel} {k : Nat} (h : waitFill a i k s = .next t) :
    OrderAfter (.waitFill a i k) s.turns t.turns := by
  obtain ⟨v, hv, ht⟩ := andThen_next h
  refine ⟨v.turns, by rw [issue_turns hv], ?_⟩
  cases ht
  split
  · exact .inr ⟨a, rfl, rfl⟩
  · exact .inl rfl

theorem takeEntry_orderAfter {col : Collaborators} {x : Turn} (h : takeEntry col x s = .next t) :
    OrderAfter x s.turns t.turns := by
  cases x with
  | command => exact .of_prefix (takeCommand_turns h)
  | waitFill => exact waitFill_orderAfter h
  | capture => exact .of_prefix (deliver_turns h)
  | host => exact .of_prefix (hostTurn_turns h)
  | start => exact .of_prefix (hostCommand_turns (tx := AsmLine.sessStart.assemble) h)
  | stop => exact .of_prefix (hostCommand_turns (tx := AsmLine.sessStop.assemble) h)
  | captureStart | captureHalt => cases h; exact .of_prefix List.prefix_rfl

theorem takeTurn_orderAfter {col : Collaborators} {x : Turn} (h : takeTurn col x s = .next t) :
    OrderAfter x s.turns t.turns := by
  cases hw : x.waits s with
  | true =>
    rw [takeTurn_of_waits hw] at h
    obtain ⟨u, hu, ht⟩ := andThen_next h
    cases ht
    exact ⟨u.turns, hostTurn_turns hu, .inr ⟨.host, mover_of_waits hw, rfl⟩⟩
  | false =>
    rw [takeTurn_of_not_waits hw] at h
    exact takeEntry_orderAfter h

/-- What any step makes of the order. -/
theorem step_orderAfter {x : Turn} {rest : List Turn} (hs : s.turns = x :: rest)
    (h : step s = .next t) : OrderAfter x rest t.turns := by
  cases hl : s.cfg.legal with
  | true =>
    rw [step_of_turns hl hs] at h
    exact takeTurn_orderAfter h
  | false => simp [step, stepWith, hl] at h

end

/-! ## Weak fairness (R67, D35) -/

/-- The next entry of another mover stays pending, and no more entries stand before it. -/
theorem OrderAfter.keepsNext {x : Turn} {rest after : List Turn} {m : Option Agent}
    (h : OrderAfter x rest after) (hx : x.mover ≠ m) (hm : ∃ y ∈ rest, y.mover = m) :
    (∃ y ∈ after, y.mover = m) ∧
    (after.takeWhile fun y => y.mover ≠ m).length ≤ (rest.takeWhile fun y => y.mover ≠ m).length := by
  obtain ⟨later, ⟨added, rfl⟩, hafter⟩ := h
  have hpending : ∃ y ∈ rest ++ added, y.mover = m := by
    obtain ⟨y, hy, hym⟩ := hm
    exact ⟨y, List.mem_append_left _ hy, hym⟩
  rw [← takeWhile_append_of_mem hm added]
  rcases hafter with rfl | ⟨a, ha, rfl⟩
  · exact ⟨hpending, le_rfl⟩
  · obtain ⟨hkept, hbefore⟩ := yieldPoll_next x (fun h => hx (ha.trans h.symm)) hpending
    exact ⟨hkept, hbefore ▸ List.length_filter_le _ _⟩

/-! ## One poll (R82) -/

/-- A fill level fits RVAL (R8, R22). -/
theorem State.Inv.len_lt {s : State} (h : s.Inv) {b : Buffers} (hb : s.session.buffers = some b)
    (i : RbSel) : (b.get i).len < 2 ^ 32 := by
  have hle := RingBuffer.len_le (Buffers.wf_iff.1 (h.wf hb) i)
  obtain ⟨⟨-, h0⟩, ⟨-, h1⟩, -⟩ := h.constraints
  cases i <;> simp only [Config.capOf] at hle <;> omega

/-- In a session RB_LEN answers the fill level (R110). -/
theorem exec_rbLen {s : State} {b : Buffers} (hd : s.din = []) (hb : s.session.buffers = some b)
    (i : RbSel) :
    exec (.rbLen i) s = .next (respond s .ok (BitVec.ofNat 32 (b.get i).len) []) := by
  rw [exec, execRbLen, checkDin_ok (by rw [hd]; rfl), inSession_some hb]

/-- A poll gets the fill level, whoever issues it, and the response is all that changes. -/
theorem issue_rbLen {s : State} {b : Buffers} (hi : s.Inv) (hb : s.session.buffers = some b)
    (a : Agent) (i : RbSel) :
    ∃ t, issue a (AsmLine.rbLen i).assemble s = .next t ∧ t.session = s.session ∧
      t.trace = s.trace ∧ t.turns = s.turns ∧ lastRval t = (b.get i).len := by
  have hissue := issue_of_decode (a := a) (tx := (AsmLine.rbLen i).assemble) (decode_encode_rbLen i) s
  have hexec := exec_rbLen (s := { s with issuer := a, din := [] }) rfl hb i
  exact ⟨_, hissue.trans hexec, rfl, rfl, rfl, Nat.mod_eq_of_lt (hi.len_lt hb i)⟩

/-- Settles O58: a poll is an RB_LEN followed at most by a yield, and every step leaves the entries
behind the one it takes in front, but for the entries of an agent that goes back to its own. -/
theorem waitFillPollsAndYields : Obligations.WaitFillPollsAndYields := by
  unfold Obligations.WaitFillPollsAndYields
  refine ⟨fun s b a i k hi hb => ?_, fun s t x rest m hs hx hm hstep => ?_⟩
  · obtain ⟨u, hu, hsession, htrace, hturns, hlen⟩ := issue_rbLen hi hb a i
    have hown : (Turn.waitFill a i k).movedBy a = true := by simp [Turn.movedBy, Turn.mover]
    rw [waitFill, hu, ← hlen, ← hturns]
    refine ⟨_, rfl, ?_, ?_, fun hlt => ?_, fun hge => ?_⟩
    · split <;> exact hsession
    · split <;> exact htrace
    · rw [if_pos hlt]
      exact ⟨yieldPoll_own hown _, yieldPoll_others hown _⟩
    · rw [if_neg (Nat.not_lt.2 hge)]
  · obtain ⟨hkept, hle⟩ := (step_orderAfter hs hstep).keepsNext hx hm
    refine ⟨hkept, ?_⟩
    rw [hs, List.takeWhile_cons_of_pos (by simpa using hx), List.length_cons]
    exact Nat.lt_succ_of_le hle

end Sys2Proof.Machine
end

section
/-! The decoder and the encoder (30_encoding.md R71 to R75): the words that decode are those of the
well-formed commands, and those are the words the opcode map lists. -/

namespace Sys2Proof

/-! ## The parts of the decoder, by the fields of the word -/

section
variable {w : Word} {i : Instr}

theorem decodePlain_eq_ok {j : Instr} (h : decodePlain w j = .ok i) :
    selField w = 0 ∧ lenField w = 0 ∧ i = j := by
  unfold decodePlain at h
  split at h
  · nomatch h
  next hsel =>
    split at h
    · nomatch h
    next hlen => cases h; exact ⟨not_not.1 hsel, not_not.1 hlen, rfl⟩

theorem decodeRb_eq_ok {f : RbSel → Except DecodeError Instr} (h : decodeRb w f = .ok i) :
    ∃ r : RbSel, selField w = r.code ∧ f r = .ok i := by
  unfold decodeRb at h
  split at h
  next hsel => exact ⟨.rb0, hsel, h⟩
  next =>
    split at h
    next hsel => exact ⟨.rb1, hsel, h⟩
    next => nomatch h

theorem decodeRbQuery_eq_ok {f : RbSel → Instr} (h : decodeRbQuery w f = .ok i) :
    ∃ r : RbSel, selField w = r.code ∧ lenField w = 0 ∧ i = f r := by
  obtain ⟨r, hsel, hf⟩ := decodeRb_eq_ok h
  split at hf
  · nomatch hf
  next hlen => cases hf; exact ⟨r, hsel, not_not.1 hlen, rfl⟩

theorem decodeEmit_eq_ok (h : decodeEmit w = .ok i) :
    selField w = 0 ∧ (lenField w = 2 ∧ i = .emit2 ∨ lenField w = 4 ∧ i = .emit4) := by
  unfold decodeEmit at h
  split at h
  · nomatch h
  next hsel =>
    refine ⟨not_not.1 hsel, ?_⟩
    split at h
    next hlen => cases h; exact .inl ⟨hlen, rfl⟩
    next =>
      split at h
      next hlen => cases h; exact .inr ⟨hlen, rfl⟩
      next => nomatch h

theorem decodeCrc_eq_ok (h : decodeCrc w = .ok i) : selField w = 0 ∧ i = .crc32 (lenField w) := by
  unfold decodeCrc at h
  split at h
  · nomatch h
  next hsel => cases h; exact ⟨not_not.1 hsel, rfl⟩

/-! ## Decoding and encoding are inverse -/

/-- A word is the one packed from the fields it is known to have. -/
theorem packWord_eq_of_fields {op sel : BitVec 4} {len : Nat} (hop : (opField w).toNat = op.toNat)
    (hsel : selField w = sel) (hlen : lenField w = len) : packWord op sel len = w := by
  obtain rfl := BitVec.eq_of_toNat_eq hop
  subst hsel hlen
  exact packWord_fields w

/-- Every LEN field is a well-formed LEN operand (R72). -/
theorem lenField_le_maxLen (w : Word) : lenField w ≤ maxLen := Nat.le_pred_of_lt (lenField_lt w)

theorem decode_encode (h : i.wf = true) : decode (encode i) = .ok i := by
  have len_lt {n : Nat} (hn : decide (n ≤ maxLen) = true) : n < 2 ^ 24 :=
    Nat.lt_succ_of_le (of_decide_eq_true hn)
  cases i with
  | rbWrite r n => rw [Machine.decode_encode_rbWrite, Nat.mod_eq_of_lt (len_lt h)]
  | rbRead r n => exact Machine.decode_encode_rbRead r (len_lt h)
  | crc32 n => simpa [encode, decode, decodeCrc] using len_lt h
  | rbLen r | rbGlitch r => cases r <;> rfl
  | sessStart | sessStop | batchSel | emit2 | emit4 | status | cntRd => rfl

theorem wf_and_encode_of_decode (h : decode w = .ok i) : i.wf = true ∧ encode i = w := by
  have plain {op : BitVec 4} {j : Instr} (hop : (opField w).toNat = op.toNat) (hj : j.wf = true)
      (he : encode j = packWord op 0 0) (hd : decodePlain w j = .ok i) :
      i.wf = true ∧ encode i = w := by
    obtain ⟨hsel, hlen, rfl⟩ := decodePlain_eq_ok hd
    exact ⟨hj, he.trans (packWord_eq_of_fields hop hsel hlen)⟩
  have hlen := decide_eq_true (lenField_le_maxLen w)
  unfold decode at h
  split at h
  next hop => exact plain (op := 0x1) hop rfl rfl h
  next hop => exact plain (op := 0x2) hop rfl rfl h
  next hop =>
    obtain ⟨r, hsel, hi⟩ := decodeRb_eq_ok h
    cases hi
    exact ⟨hlen, packWord_eq_of_fields hop hsel rfl⟩
  next hop =>
    obtain ⟨r, hsel, hi⟩ := decodeRb_eq_ok h
    cases hi
    exact ⟨hlen, packWord_eq_of_fields hop hsel rfl⟩
  next hop =>
    obtain ⟨r, hsel, hzero, rfl⟩ := decodeRbQuery_eq_ok h
    exact ⟨rfl, packWord_eq_of_fields hop hsel hzero⟩
  next hop =>
    obtain ⟨r, hsel, hzero, rfl⟩ := decodeRbQuery_eq_ok h
    exact ⟨rfl, packWord_eq_of_fields hop hsel hzero⟩
  next hop => exact plain (op := 0x7) hop rfl rfl h
  next hop =>
    obtain ⟨hsel, ⟨hcount, rfl⟩ | ⟨hcount, rfl⟩⟩ := decodeEmit_eq_ok h
    · exact ⟨rfl, packWord_eq_of_fields hop hsel hcount⟩
    · exact ⟨rfl, packWord_eq_of_fields hop hsel hcount⟩
  next hop =>
    obtain ⟨hsel, rfl⟩ := decodeCrc_eq_ok h
    exact ⟨hlen, packWord_eq_of_fields hop hsel rfl⟩
  next hop => exact plain (op := 0xA) hop rfl rfl h
  next hop => exact plain (op := 0xB) hop rfl rfl h
  next => nomatch h

end

/-- Settles O1, one command after the other. -/
theorem decodeOfEncode : Obligations.DecodeOfEncode := by
  unfold Obligations.DecodeOfEncode
  exact fun _ => decode_encode

/-- Settles O2: a legal word has the fields its command is packed from. -/
theorem encodeOfDecode : Obligations.EncodeOfDecode := by
  unfold Obligations.EncodeOfDecode
  exact fun _ _ => wf_and_encode_of_decode

/-- Settles O5: the decoder evaluated on each word. -/
theorem sampleWordsDecode : Obligations.SampleWordsDecode := by
  unfold Obligations.SampleWordsDecode
  exact ⟨rfl, rfl, rfl, rfl, rfl, rfl, rfl, rfl⟩

/-! ## The rows of the opcode map (R74, R75) -/

/-- Any two rows of the map differ in a bit that both masks hold. -/
theorem row_eq_of_patterns_agree : ∀ r ∈ opcodeMap, ∀ q ∈ opcodeMap,
    r.pattern &&& q.mask = q.pattern &&& r.mask → r = q := by decide

/-- Settles O4: the bits that both masks hold tell the rows apart. -/
theorem noTwoRowsMatchOneWord : Obligations.NoTwoRowsMatchOneWord := by
  unfold Obligations.NoTwoRowsMatchOneWord
  intro w r q hr hq hrw hqw
  refine row_eq_of_patterns_agree r hr q hq ?_
  calc r.pattern &&& q.mask = w &&& r.mask &&& q.mask := by rw [hrw]
    _ = w &&& q.mask &&& r.mask := by rw [BitVec.and_assoc, BitVec.and_comm r.mask, BitVec.and_assoc]
    _ = q.pattern &&& r.mask := by rw [hqw]

theorem selField_and (w m : Word) : selField (w &&& m) = selField w &&& selField m :=
  BitVec.extractLsb'_and

theorem lenField_and (w m : Word) : lenField (w &&& m) = lenField w &&& lenField m := by
  rw [lenField, BitVec.extractLsb'_and, BitVec.toNat_and, lenField, lenField]

section
variable {w : Word}

/-- A row whose mask holds every bit selects its pattern alone. -/
theorem eq_pattern_of_selects {r : OpcodeRow} (hm : r.mask = BitVec.allOnes 32) (h : r.Selects w) :
    w = r.pattern := by
  rw [← h, hm, BitVec.and_allOnes]

/-- A mask that holds all of SEL but its lowest bit, with SEL 0 in the pattern, selects the two
ring buffers (R73). -/
theorem selField_eq_code_of_selects {r : OpcodeRow} (hm : selField r.mask = 0xE)
    (hp : selField r.pattern = 0) (h : r.Selects w) : ∃ i : RbSel, selField w = i.code := by
  have hand : selField w &&& 0xE = 0 := by rw [← hm, ← selField_and, h, hp]
  have low : ∀ v : BitVec 4, v &&& 0xE = 0 → v = RbSel.code .rb0 ∨ v = RbSel.code .rb1 := by decide
  rcases low _ hand with hsel | hsel
  · exact ⟨.rb0, hsel⟩
  · exact ⟨.rb1, hsel⟩

/-- A mask that holds all of LEN selects the LEN of the pattern. -/
theorem lenField_eq_of_selects {r : OpcodeRow} (hm : lenField r.mask = 2 ^ 24 - 1)
    (h : r.Selects w) : lenField w = lenField r.pattern := by
  rw [← h, lenField_and, hm, Nat.and_two_pow_sub_one_eq_mod, Nat.mod_eq_of_lt (lenField_lt w)]

/-- A word that a row selects is the encoding of a well-formed command. -/
theorem exists_encode_of_selects {r : OpcodeRow} (hr : r ∈ opcodeMap) (h : r.Selects w) :
    ∃ i : Instr, i.wf = true ∧ encode i = w := by
  have hop := congrArg BitVec.toNat (Laws.RowMatch.opField_of_selects hr h)
  have hlen := decide_eq_true (lenField_le_maxLen w)
  simp only [opcodeMap, List.mem_cons, List.not_mem_nil, or_false] at hr
  rcases hr with rfl | rfl | rfl | rfl | rfl | rfl | rfl | rfl | rfl | rfl | rfl | rfl
  · exact ⟨.sessStart, rfl, (eq_pattern_of_selects rfl h).symm⟩
  · exact ⟨.sessStop, rfl, (eq_pattern_of_selects rfl h).symm⟩
  · obtain ⟨i, hsel⟩ := selField_eq_code_of_selects rfl rfl h
    exact ⟨.rbWrite i (lenField w), hlen, packWord_eq_of_fields hop hsel rfl⟩
  · obtain ⟨i, hsel⟩ := selField_eq_code_of_selects rfl rfl h
    exact ⟨.rbRead i (lenField w), hlen, packWord_eq_of_fields hop hsel rfl⟩
  · obtain ⟨i, hsel⟩ := selField_eq_code_of_selects rfl rfl h
    exact ⟨.rbLen i, rfl, packWord_eq_of_fields hop hsel (lenField_eq_of_selects rfl h)⟩
  · obtain ⟨i, hsel⟩ := selField_eq_code_of_selects rfl rfl h
    exact ⟨.rbGlitch i, rfl, packWord_eq_of_fields hop hsel (lenField_eq_of_selects rfl h)⟩
  · exact ⟨.batchSel, rfl, (eq_pattern_of_selects rfl h).symm⟩
  · exact ⟨.emit2, rfl, (eq_pattern_of_selects rfl h).symm⟩
  · exact ⟨.emit4, rfl, (eq_pattern_of_selects rfl h).symm⟩
  · have hsel : selField w = 0 := by
      rw [← BitVec.and_allOnes (x := selField w)]
      exact (selField_and w _).symm.trans (congrArg selField h)
    exact ⟨.crc32 (lenField w), hlen, packWord_eq_of_fields hop hsel rfl⟩
  · exact ⟨.status, rfl, (eq_pattern_of_selects rfl h).symm⟩
  · exact ⟨.cntRd, rfl, (eq_pattern_of_selects rfl h).symm⟩

end

/-- The encoder's word of every command selects rows of its own mnemonic, and one at least. -/
theorem encode_selectsItsRow (i : Instr) : Laws.RowMatch.Statement i := by
  cases i with
  | sessStart => exact Laws.RowMatch.sessStart
  | sessStop => exact Laws.RowMatch.sessStop
  | rbWrite r n => exact Laws.RowMatch.rbWrite r n
  | rbRead r n => exact Laws.RowMatch.rbRead r n
  | rbLen r => exact Laws.RowMatch.rbLen r
  | rbGlitch r => exact Laws.RowMatch.rbGlitch r
  | batchSel => exact Laws.RowMatch.batchSel
  | emit2 => exact Laws.RowMatch.emit2
  | emit4 => exact Laws.RowMatch.emit4
  | crc32 n => exact Laws.RowMatch.crc32 n
  | status => exact Laws.RowMatch.status
  | cntRd => exact Laws.RowMatch.cntRd

/-- The rows of the map bear different mnemonics. -/
theorem row_eq_of_mnemonic : ∀ r ∈ opcodeMap, ∀ q ∈ opcodeMap, r.mnemonic = q.mnemonic → r = q := by
  decide

theorem decode_of_selects {w : Word} {r : OpcodeRow} (hr : r ∈ opcodeMap) (h : r.Selects w) :
    ∃ i, decode w = .ok i ∧ i.mnemonic = r.mnemonic := by
  obtain ⟨i, hwf, rfl⟩ := exists_encode_of_selects hr h
  obtain ⟨-, named⟩ := encode_selectsItsRow i
  exact ⟨i, decode_encode hwf, (named r hr h).symm⟩

theorem selects_of_decode {w : Word} {i : Instr} (h : decode w = .ok i) :
    ∃ r ∈ opcodeMap, r.Selects w ∧ r.mnemonic = i.mnemonic := by
  obtain ⟨-, rfl⟩ := wf_and_encode_of_decode h
  obtain ⟨⟨r, hr, hsel⟩, named⟩ := encode_selectsItsRow i
  exact ⟨r, hr, hsel, named r hr hsel⟩

/-- Settles O3: a selected row names the command, and a command's word selects the one row of its
mnemonic. -/
theorem decodesExactlyTheMapRows : Obligations.DecodesExactlyTheMapRows := by
  unfold Obligations.DecodesExactlyTheMapRows
  refine fun w => ⟨fun r hr => ⟨decode_of_selects hr, ?_⟩, fun hnone => ?_, ?_⟩
  · rintro ⟨i, hi, hname⟩
    obtain ⟨q, hq, hsel, hqname⟩ := selects_of_decode hi
    rwa [row_eq_of_mnemonic r hr q hq (hname.symm.trans hqname.symm)]
  · cases hd : decode w with
    | error e => exact ⟨e, rfl⟩
    | ok i =>
      obtain ⟨q, hq, hsel, -⟩ := selects_of_decode hd
      exact absurd hsel (hnone q hq)
  · rintro ⟨e, he⟩ r hr hsel
    obtain ⟨i, hi, -⟩ := decode_of_selects hr hsel
    nomatch he.symm.trans hi

end Sys2Proof
end

section
/-! The checks before a command and the responses after it (30_encoding.md R76 to R79, R88). -/

namespace Sys2Proof.Machine

/-! ## What is refused or illegal -/

/-- A configuration without a block is refused whatever the order holds. -/
theorem step_of_not_legal {s : State} (h : s.cfg.legal = false) : step s = .refused .illegalConfig := by
  simp [step, stepWith, h]

/-- Settles O13: each of the breaches contradicts a constraint of a legal configuration. -/
theorem brokenFrameConfigIsRefused : Obligations.BrokenFrameConfigIsRefused := by
  unfold Obligations.BrokenFrameConfigIsRefused
  refine fun s broken => step_of_not_legal (decide_eq_false ?_)
  rintro ⟨-, -, -, -, hsize2, hsize4, hrc⟩
  rcases broken with h | h | h
  · exact Nat.not_le.2 h hsize2
  · exact Nat.not_le.2 h hsize4
  · exact hrc h

/-- A command checks first that its data have the length of its row (R77). -/
theorem exec_eq_checkDin (i : Instr) (s : State) :
    ∃ run, exec i s = .next (checkDin (i.dinLen s.cfg) s run) := by
  cases i <;> exact ⟨_, rfl⟩

/-- Settles O8: the check of the length comes before all else. -/
theorem wrongDataLengthIsIllegal : Obligations.WrongDataLengthIsIllegal := by
  unfold Obligations.WrongDataLengthIsIllegal
  intro i s hlen
  obtain ⟨run, hexec⟩ := exec_eq_checkDin i s
  rw [hexec, checkDin_bad hlen]
  rfl

section
variable {tx : Transaction} {e : DecodeError} (h : decode tx.word = .error e)
include h

theorem issue_of_illegalWord (a : Agent) (s : State) :
    issue a tx s = .next (respond { s with issuer := a, din := tx.din } .illegal 0 []) := by
  simp only [issue, h, respondIllegal_eq]

theorem word_ne_encode {i : Instr} (hi : i.wf = true) : tx.word ≠ encode i := by
  intro hw
  rw [hw, decode_encode hi] at h
  nomatch h

/-- The HOST neither prepares for an illegal word nor reacts to its response. -/
theorem takeCommand_of_illegalWord (a : Agent) (s : State) :
    takeCommand a tx s = .next (respond { s with issuer := a, din := tx.din } .illegal 0 []) := by
  cases a with
  | observer n => exact issue_of_illegalWord h _ s
  | host =>
    have hstart : tx.word ≠ encode .sessStart := word_ne_encode h rfl
    have hstop : tx.word ≠ encode .sessStop := word_ne_encode h rfl
    rw [takeCommand, hostCommand, hostPrepare_of_other hstop, issue_of_illegalWord h, andThen,
      hostReact_of_other _ hstart hstop]
    simp [lastRstat]

end

/-- Settles O7: the entry does not wait, and taking it gives the response and no more. -/
theorem illegalWordHasNoEffect : Obligations.IllegalWordHasNoEffect := by
  unfold Obligations.IllegalWordHasNoEffect
  intro s a tx rest e hl hs hd hfree
  have hw : (Turn.command a tx).waits s = false := by simpa [Turn.waits] using hfree
  rw [step_of_turns hl hs, takeTurn_of_not_waits (by rwa [waits_dropTurns])]
  exact takeCommand_of_illegalWord hd a _

/-! ## The responses of each command (R78, R79) -/

/-- The responses a command can answer with, one constructor for each RSTAT code, and two for OK. -/
inductive AnswerOf : Instr → Response → Prop
  /-- Another data length than the row's (R77). -/
  | illegal (i : Instr) : AnswerOf i ⟨.illegal, 0, []⟩
  /-- A session state that does not accept the command (R205). -/
  | badState (i : Instr) : AnswerOf i ⟨.badState, 0, []⟩
  | ok {i : Instr} (h : ∀ sel n, i ≠ .rbRead sel n) (v : Word) : AnswerOf i ⟨.ok, v, []⟩
  | readOk (sel : RbSel) {n : Nat} (v : Word) {d : List Byte} (h : d.length = n) :
      AnswerOf (.rbRead sel n) ⟨.ok, v, d⟩
  | underrun (sel : RbSel) {n : Nat} (v : Word) {d : List Byte} (h : d.length = n) :
      AnswerOf (.rbRead sel n) ⟨.underrun, v, d⟩
  | noBatch (v : Word) : AnswerOf .batchSel ⟨.noBatch, v, []⟩
  | txFail {i : Instr} (h : i = .batchSel ∨ i = .emit2 ∨ i = .emit4) (v : Word) :
      AnswerOf i ⟨.txFail, v, []⟩
  | initFail (v : Word) : AnswerOf .sessStart ⟨.initFail, v, []⟩

/-- The state holds a response that the command can answer with. -/
def HasAnswerOf (i : Instr) (t : State) : Prop := ∃ r, t.resp = some r ∧ AnswerOf i r

section
variable {i : Instr} {s : State}

theorem AnswerOf.respond {r : RStat} {v : Word} {d : List Byte} (h : AnswerOf i ⟨r, v, d⟩) :
    HasAnswerOf i (respond s r v d) := ⟨_, rfl, h⟩

theorem HasAnswerOf.checkDin {need : Nat} {run : State} (h : HasAnswerOf i run) :
    HasAnswerOf i (checkDin need s run) := checkDin_of (AnswerOf.illegal i).respond h

theorem HasAnswerOf.inIdle {run : State} (h : HasAnswerOf i run) : HasAnswerOf i (inIdle s run) :=
  inIdle_of (AnswerOf.badState i).respond h

theorem HasAnswerOf.inActive {run : Buffers → State} (h : ∀ b, HasAnswerOf i (run b)) :
    HasAnswerOf i (inActive s run) := inActive_of (AnswerOf.badState i).respond h

theorem HasAnswerOf.inSession {run : Buffers → State} (h : ∀ b, HasAnswerOf i (run b)) :
    HasAnswerOf i (inSession s run) := inSession_of (AnswerOf.badState i).respond h

/-- OK without `dout`, for any command but RB_READ. -/
theorem respondOk_hasAnswerOf {v : Word} (h : ∀ sel n, i ≠ .rbRead sel n) :
    HasAnswerOf i (respond s .ok v []) := (AnswerOf.ok h v).respond

theorem respondEmission_hasAnswerOf (h : i = .batchSel ∨ i = .emit2 ∨ i = .emit4) (v : Word)
    (r : Answer × State) : HasAnswerOf i (respondEmission v r) := by
  unfold respondEmission
  split
  · refine respondOk_hasAnswerOf ?_
    rintro sel n rfl
    simp at h
  · exact (AnswerOf.txFail h v).respond

end

theorem sessStart_hasAnswerOf (s : State) : HasAnswerOf .sessStart (sessStart s) := by
  rcases sessStart_cases s with h | h <;> rw [h]
  · exact respondOk_hasAnswerOf nofun
  · exact (AnswerOf.initFail 0).respond

theorem rbWrite_hasAnswerOf (i : RbSel) (n : Nat) (s : State) (b : Buffers) :
    HasAnswerOf (.rbWrite i n) (rbWrite i n s b) := by
  unfold rbWrite
  split <;> exact respondOk_hasAnswerOf nofun

theorem rbRead_hasAnswerOf (i : RbSel) (n : Nat) (s : State) (b : Buffers) :
    HasAnswerOf (.rbRead i n) (rbRead i n s b) := by
  have hlen := RingBuffer.length_readOut (b.get i) n
  unfold rbRead
  dsimp only
  split
  next hn => exact (AnswerOf.readOk i 0 (d := []) hn.symm).respond
  next =>
    split
    · exact (AnswerOf.underrun i _ hlen).respond
    · exact (AnswerOf.readOk i _ hlen).respond

theorem batchSel_hasAnswerOf (s : State) (b : Buffers) : HasAnswerOf .batchSel (batchSel s b) := by
  unfold batchSel
  split
  · exact respondEmission_hasAnswerOf (.inl rfl) _ _
  · exact (AnswerOf.noBatch 0).respond

/-- Every command in every state answers, with one of its own responses. -/
theorem exec_hasAnswerOf (i : Instr) (s : State) : ∃ t, exec i s = .next t ∧ HasAnswerOf i t := by
  cases i <;> refine ⟨_, rfl, .checkDin ?_⟩
  case sessStart => exact .inIdle (sessStart_hasAnswerOf s)
  case sessStop => exact .inSession fun _ => respondOk_hasAnswerOf nofun
  case rbWrite j n => exact .inActive (rbWrite_hasAnswerOf j n s)
  case rbRead j n => exact .inActive (rbRead_hasAnswerOf j n s)
  case rbLen => exact .inSession fun _ => respondOk_hasAnswerOf nofun
  case rbGlitch => exact .inSession fun _ => respondOk_hasAnswerOf nofun
  case batchSel => exact .inActive (batchSel_hasAnswerOf s)
  case emit2 => exact .inActive fun _ => respondEmission_hasAnswerOf (.inr (.inl rfl)) _ _
  case emit4 => exact .inActive fun _ => respondEmission_hasAnswerOf (.inr (.inr rfl)) _ _
  case crc32 => exact respondOk_hasAnswerOf nofun
  case status => exact respondOk_hasAnswerOf nofun
  case cntRd => exact respondOk_hasAnswerOf nofun

/-- Settles O10: read off from the responses of each command. -/
theorem onlyTheListedRstats : Obligations.OnlyTheListedRstats := by
  unfold Obligations.OnlyTheListedRstats
  intro i s
  obtain ⟨t, hexec, r, hresp, hr⟩ := exec_hasAnswerOf i s
  refine ⟨t, r, hexec, hresp, ?_⟩
  cases hr with
  | illegal | badState | ok | readOk => exact ⟨nofun, nofun, nofun, nofun⟩
  | underrun sel => exact ⟨fun _ => ⟨sel, _, rfl⟩, nofun, nofun, nofun⟩
  | noBatch => exact ⟨nofun, fun _ => rfl, nofun, nofun⟩
  | txFail h => exact ⟨nofun, nofun, fun _ => h, nofun⟩
  | initFail => exact ⟨nofun, nofun, nofun, fun _ => rfl⟩

/-- Settles O11: of the responses of each command only those of RB_READ bear `dout`. -/
theorem everyCommandResponds : Obligations.EveryCommandResponds := by
  unfold Obligations.EveryCommandResponds
  intro i s
  obtain ⟨t, hexec, r, hresp, hr⟩ := exec_hasAnswerOf i s
  refine ⟨t, r, hexec, hresp, ?_⟩
  cases hr with
  | illegal | badState | txFail => exact ⟨nofun, fun _ _ _ => nofun⟩
  | noBatch | initFail => exact ⟨nofun, nofun⟩
  | ok h => exact ⟨nofun, fun sel n hi => absurd hi (h sel n)⟩
  | readOk sel v hlen =>
    exact ⟨fun _ => ⟨sel, _, rfl, .inl rfl⟩, fun _ _ hi _ => hlen.trans (Instr.rbRead.inj hi).2⟩
  | underrun sel v hlen =>
    exact ⟨fun _ => ⟨sel, _, rfl, .inr rfl⟩, fun _ _ hi _ => hlen.trans (Instr.rbRead.inj hi).2⟩

end Sys2Proof.Machine
end

section
/-! The wire frame (30_encoding.md R83 to R85): what each phase of the sequencer (42_emitter.md R150)
leaves of an all-zero frame. -/

namespace Sys2Proof.Machine

/-- Bytes 0 to 5 of a wire frame (R151 to R154). -/
def frameHeader (c : Config) (n : BatchSize) (ctr : BitVec 16) : List Byte :=
  [reportCode c n, c.m1, c.m2] ++ le16 ctr ++ [c.mode]

/-- The bytes before the checksum: header, payload and zero padding. -/
def frameBody (c : Config) (n : BatchSize) (ctr : BitVec 16) (payload : List Byte) : List Byte :=
  frameHeader c n ctr ++ payload ++ zeros (frameSpan c n - (10 + payloadLen c n))

/-- The bytes behind the checksum: DEVID of a 4-frame frame (R159). -/
def frameTrailer (c : Config) : BatchSize → List Byte
  | .two => []
  | .four => [c.devid]

/-- Both layouts are body, checksum over LEAD and the body, and trailer. -/
theorem layout_eq (c : Config) (n : BatchSize) (ctr : BitVec 16) (payload : List Byte) :
    layout c n ctr payload =
      frameBody c n ctr payload ++ le32 (crc32 c.crc (c.lead :: frameBody c n ctr payload)) ++
        frameTrailer c n := by
  cases n with
  | two => exact (List.append_nil _).symm
  | four => rfl

theorem wireLen_eq (c : Config) (n : BatchSize) :
    wireLen c n = frameSpan c n + (frameTrailer c n).length := by
  cases n <;> rfl

@[simp] theorem length_frameHeader (c : Config) (n : BatchSize) (ctr : BitVec 16) :
    (frameHeader c n ctr).length = 6 := rfl

/-- A legal configuration has room for header, payload and checksum (R88). -/
theorem payload_fits {c : Config} (h : c.legal = true) (n : BatchSize) :
    10 + payloadLen c n ≤ frameSpan c n := by
  obtain ⟨-, -, -, -, hsize2, hsize4, -⟩ : c.Constraints := of_decide_eq_true h
  cases n with
  | two => exact hsize2
  | four => exact hsize4

theorem zeros_add (j k : Nat) : zeros (j + k) = zeros j ++ zeros k := List.replicate_add ..

section
variable {c : Config} {n : BatchSize} {ctr : BitVec 16} {payload : List Byte}

theorem length_frameBody (hl : c.legal = true) (hp : payload.length = payloadLen c n) :
    (frameBody c n ctr payload).length = frameSpan c n - 4 := by
  have := payload_fits hl n
  simp [frameBody, zeros, hp]
  omega

/-- The regions of a frame: header, payload, padding, checksum and trailer. -/
theorem zeros_wireLen (hl : c.legal = true) : zeros (wireLen c n) =
    zeros 6 ++ (zeros (payloadLen c n) ++ (zeros (frameSpan c n - (10 + payloadLen c n)) ++
      (zeros 4 ++ zeros (frameTrailer c n).length))) := by
  have := payload_fits hl n
  simp only [← zeros_add, wireLen_eq]
  congr 1
  omega

/-- HDR puts the header in place of the first six bytes. -/
theorem putHeader_append (rest : List Byte) :
    putHeader c n ctr (zeros 6 ++ rest) = frameHeader c n ctr ++ rest :=
  putBytes_append [] (zeros 6) rest (frameHeader c n ctr) 0 rfl rfl

/-- Header, then payload: the body stands before the bytes that are still 0. -/
theorem putPayload_eq (hl : c.legal = true) (hp : payload.length = payloadLen c n) :
    putBytes (putHeader c n ctr (zeros (wireLen c n))) 6 payload =
      frameBody c n ctr payload ++ zeros 4 ++ zeros (frameTrailer c n).length := by
  rw [zeros_wireLen hl, putHeader_append, ← List.append_assoc,
    putBytes_append _ (zeros (payloadLen c n)) _ payload 6 rfl (by simp [zeros, hp]), frameBody]
  simp only [List.append_assoc]

/-- CRC replaces the four bytes behind the body by its checksum. -/
theorem putChecksum_append (hl : c.legal = true) (hp : payload.length = payloadLen c n)
    (rest : List Byte) :
    putChecksum c n (frameBody c n ctr payload ++ zeros 4 ++ rest) =
      frameBody c n ctr payload ++ le32 (crc32 c.crc (c.lead :: frameBody c n ctr payload)) ++ rest := by
  have hlen := length_frameBody (ctr := ctr) hl hp
  have hsum : frameChecksum c n (frameBody c n ctr payload ++ zeros 4 ++ rest) =
      crc32 c.crc (c.lead :: frameBody c n ctr payload) := by
    rw [frameChecksum, List.append_assoc, List.take_left' hlen]
  rw [putChecksum, hsum, putBytes_append _ (zeros 4) rest (le32 _) _ hlen.symm rfl]

/-- TRL puts the trailer in place of the last bytes. -/
theorem putDeviceId_append {pre : List Byte} (hpre : pre.length = frameSpan c n) :
    putDeviceId c n (pre ++ zeros (frameTrailer c n).length) = pre ++ frameTrailer c n := by
  cases n with
  | two => rfl
  | four =>
    have hpre : pre.length = c.size4 := hpre
    simp [putDeviceId, frameTrailer, zeros, ← hpre]

theorem buildFrame_eq_layout (hl : c.legal = true) (hp : payload.length = payloadLen c n) :
    buildFrame c n ctr payload = layout c n ctr payload := by
  have hfits := payload_fits hl n
  rw [buildFrame, putPayload_eq hl hp, putChecksum_append hl hp, putDeviceId_append, layout_eq]
  rw [List.length_append, length_frameBody hl hp, show (le32 _).length = 4 from rfl]
  omega

/-- No phase changes the length of the frame. -/
theorem length_buildFrame : (buildFrame c n ctr payload).length = wireLen c n := by
  cases n <;> simp [buildFrame, putDeviceId, putChecksum, putHeader, zeros]

end

/-- Settles O35: phase by phase the all-zero frame becomes the layout. -/
theorem sequencerBuildsTheLayout : Obligations.SequencerBuildsTheLayout := by
  unfold Obligations.SequencerBuildsTheLayout
  intro c n ctr payload hl hp
  refine ⟨buildFrame_eq_layout hl hp, length_buildFrame.trans ?_⟩
  cases n <;> rfl

end Sys2Proof.Machine
end

section
/-! The ring-buffer commands (40_ringbuffer.md R100 to R114): the rules of a ring buffer for writes and
reads of any length, one equation for each way a command ends, and writes in a row. -/

namespace Sys2Proof.Machine

/-! ## The most recent bytes of a sequence -/

theorem lastBytes_of_length_le {n : Nat} {bs : List Byte} (h : bs.length ≤ n) : lastBytes n bs = bs := by
  rw [lastBytes, Nat.sub_eq_zero_of_le h, List.drop_zero]

theorem length_lastBytes (n : Nat) (bs : List Byte) : (lastBytes n bs).length = min n bs.length := by
  rw [lastBytes, List.length_drop]
  omega

/-- Of a sequence that ends in `n` or more bytes the earlier ones do not matter. -/
theorem lastBytes_append_of_le {n : Nat} (xs : List Byte) {ys : List Byte} (h : n ≤ ys.length) :
    lastBytes n (xs ++ ys) = lastBytes n ys := by
  rw [lastBytes, lastBytes, List.length_append, List.drop_append, List.drop_eq_nil_of_le (by omega),
    List.nil_append]
  congr 1
  omega

/-- Bytes that fell out once do not come back. -/
theorem lastBytes_lastBytes_append (n : Nat) (xs ys : List Byte) :
    lastBytes n (lastBytes n xs ++ ys) = lastBytes n (xs ++ ys) := by
  rcases Nat.le_total xs.length n with h | h
  · rw [lastBytes_of_length_le h]
  · have hkept : (lastBytes n xs).length = n := by rw [length_lastBytes, Nat.min_eq_left h]
    have hsplit : xs.take (xs.length - n) ++ lastBytes n xs = xs := List.take_append_drop _ _
    calc lastBytes n (lastBytes n xs ++ ys)
      _ = lastBytes n (xs.take (xs.length - n) ++ (lastBytes n xs ++ ys)) :=
        (lastBytes_append_of_le _ (by rw [List.length_append]; omega)).symm
      _ = lastBytes n (xs ++ ys) := by rw [← List.append_assoc, hsplit]

/-! ## A ring buffer written and read (R101, R105) -/

section
variable {cap : Nat} {rb : RingBuffer}

theorem RingBuffer.content_eq_nil (h : rb.len = 0) : rb.content = [] :=
  List.eq_nil_of_length_eq_zero (by rw [RingBuffer.length_content, h])

/-- In a full buffer the cursors meet (R24, R25). -/
theorem RingBuffer.Wf.start_eq_end_of_full (h : rb.Wf cap) (hfull : rb.len = cap) :
    rb.start = rb.end_ := by
  rw [RingBuffer.end_eq h, hfull, Nat.add_mod_right, Nat.mod_eq_of_lt h.start_lt]

/-- The content after a write of any number of bytes (R102, R104). -/
theorem RingBuffer.Wf.content_write (h : rb.Wf cap) (bs : List Byte) :
    (rb.write bs).content = lastBytes cap (rb.content ++ bs) := by
  rcases eq_or_ne bs [] with rfl | hbs
  · rw [RingBuffer.write_nil h, List.append_nil,
      lastBytes_of_length_le (by rw [RingBuffer.length_content]; exact RingBuffer.len_le h)]
  · exact RingBuffer.content_write h hbs

/-- The fill level after a write of any number of bytes (R114). -/
theorem RingBuffer.Wf.len_write (h : rb.Wf cap) (bs : List Byte) :
    (rb.write bs).len = min cap (rb.len + bs.length) := by
  rw [← RingBuffer.length_content, h.content_write, length_lastBytes, List.length_append,
    RingBuffer.length_content]

/-- Writes in a row keep a buffer well formed (R115). -/
theorem RingBuffer.Wf.writes (h : rb.Wf cap) (chunks : List (List Byte)) :
    (chunks.foldl RingBuffer.write rb).Wf cap := by
  induction chunks generalizing rb with
  | nil => exact h
  | cons bs chunks ih => exact ih (h.write bs)

/-- The content after writes in a row is that after one write of all their bytes (R112, R113). -/
theorem RingBuffer.Wf.content_writes (h : rb.Wf cap) (chunks : List (List Byte)) :
    (chunks.foldl RingBuffer.write rb).content = lastBytes cap (rb.content ++ chunks.flatten) := by
  induction chunks generalizing rb with
  | nil => simpa [RingBuffer.write_nil h] using h.content_write []
  | cons bs chunks ih =>
    rw [List.foldl_cons, ih (h.write bs), h.content_write, lastBytes_lastBytes_append,
      List.flatten_cons, List.append_assoc]

/-- Taking no byte changes nothing (R109). -/
theorem RingBuffer.take_zero (h : rb.Wf cap) : rb.take 0 = rb := by
  have hflag : hasDataAfterTake 0 rb.len rb.hasData = rb.hasData := by
    have := RingBuffer.hasData_iff h
    unfold hasDataAfterTake
    split
    next hl => cases hd : rb.hasData <;> simp_all
    next => rfl
  obtain ⟨rfl, -, hs, -⟩ := h
  simp [RingBuffer.take, hflag, Nat.mod_eq_of_lt hs]

theorem RingBuffer.readOut_of_lt {n : Nat} (h : rb.len < n) :
    rb.readOut n = rb.content ++ zeros (n - rb.len) := by
  rw [RingBuffer.readOut, List.take_of_length_le (by rw [RingBuffer.length_content]; omega)]

theorem RingBuffer.readOut_of_le {n : Nat} (h : n ≤ rb.len) : rb.readOut n = rb.content.take n := by
  rw [RingBuffer.readOut, Nat.sub_eq_zero_of_le h]
  exact List.append_nil _

end

/-! ## The two buffers of a session -/

section
variable {b : Buffers} {i : RbSel}

@[simp] theorem set_get_self (b : Buffers) (i : RbSel) : b.set i (b.get i) = b := by cases i <;> rfl

@[simp] theorem set_set (b : Buffers) (i : RbSel) (rb q : RingBuffer) :
    (b.set i rb).set i q = b.set i q := by cases i <;> rfl

/-- What the new buffer has in common with the one it replaces, no buffer loses. -/
theorem get_set_congr {α : Type} (f : RingBuffer → α) {rb : RingBuffer} (h : f rb = f (b.get i))
    (j : RbSel) : f ((b.set i rb).get j) = f (b.get j) := by
  by_cases hj : j = i
  · subst hj; rwa [get_set_same]
  · rw [get_set_other b i j rb hj]

theorem Buffers.Wf.get {c : Config} (h : b.Wf c) (i : RbSel) : (b.get i).Wf (b.get i).cap := by
  have hi := Buffers.wf_iff.1 h i
  rwa [hi.cap_eq]

/-- In a legal configuration a fill level fits RVAL (R8, R22): the invariant says so of any session
with these buffers. -/
theorem Buffers.Wf.len_lt {c : Config} (h : b.Wf c) (hl : c.legal = true) (i : RbSel) :
    (b.get i).len < 2 ^ 32 :=
  State.Inv.len_lt (s := setBuffers (State.resetWith c) b) (.of_active hl rfl h rfl) rfl i

theorem toNat_ofNat_len {c : Config} (h : b.Wf c) (hl : c.legal = true) (i : RbSel) :
    (BitVec.ofNat 32 (b.get i).len).toNat = (b.get i).len := by
  rw [BitVec.toNat_ofNat, Nat.mod_eq_of_lt (h.len_lt hl i)]

end

theorem setBuffers_self {s : State} {b : Buffers} (h : s.session = .active b) : setBuffers s b = s := by
  rw [setBuffers, ← h]

/-! ## How each command ends (R100 to R111) -/

section
variable {s : State} {b : Buffers}

/-- Outside a session RB_LEN answers BAD_STATE (R110). -/
theorem exec_rbLen_idle (hd : s.din = []) (h : s.session = .idle) (i : RbSel) :
    exec (.rbLen i) s = .next (answered s ⟨.badState, 0, []⟩) := by
  rw [exec, execRbLen, checkDin_ok (by rw [hd]; rfl), inSession_idle h]
  rfl

/-- Outside a session RB_GLITCH answers BAD_STATE (R111). -/
theorem exec_rbGlitch_idle (hd : s.din = []) (h : s.session = .idle) (i : RbSel) :
    exec (.rbGlitch i) s = .next (answered s ⟨.badState, 0, []⟩) := by
  rw [exec, execRbGlitch, checkDin_ok (by rw [hd]; rfl), inSession_idle h]
  rfl

/-- In a session RB_GLITCH answers the underrun count (R111). -/
theorem exec_rbGlitch (hd : s.din = []) (hb : s.session.buffers = some b) (i : RbSel) :
    exec (.rbGlitch i) s = .next (answered s ⟨.ok, (b.get i).glitch, []⟩) := by
  rw [exec, execRbGlitch, checkDin_ok (by rw [hd]; rfl), inSession_some hb]
  rfl

/-- RB_READ of more bytes than are held (R106, R107). -/
theorem rbRead_of_lt {i : RbSel} {n : Nat} (h : (b.get i).len < n) :
    rbRead i n s b = respond (emitEvent (setBuffers s
      (b.set i ((b.get i).take (b.get i).len).countUnderrun)) (.underrun i))
      .underrun (BitVec.ofNat 32 (b.get i).len) ((b.get i).readOut n) := by
  have hn : n ≠ 0 := Nat.ne_zero_of_lt h
  simp only [rbRead, if_neg hn, if_pos h, Nat.min_eq_left h.le]

/-- RB_READ of held bytes (R105). -/
theorem rbRead_of_le {i : RbSel} {n : Nat} (h : n ≤ (b.get i).len) (hn : n ≠ 0) :
    rbRead i n s b = respond (setBuffers s (b.set i ((b.get i).take n)))
      .ok (BitVec.ofNat 32 n) ((b.get i).content.take n) := by
  simp only [rbRead, if_neg hn, if_neg (Nat.not_lt.2 h), Nat.min_eq_right h,
    RingBuffer.readOut_of_le h]

variable (hs : s.session = .active b)
include hs

theorem exec_rbWrite_active (i : RbSel) :
    exec (.rbWrite i s.din.length) s = .next (rbWrite i s.din.length s b) := by
  rw [exec, execRbWrite, checkDin_ok rfl, inActive_active hs]

theorem exec_rbRead_active (hd : s.din = []) (i : RbSel) (n : Nat) :
    exec (.rbRead i n) s = .next (rbRead i n s b) := by
  rw [exec, execRbRead, checkDin_ok (by rw [hd]; rfl), inActive_active hs]

variable (hw : b.Wf s.cfg)
include hw

/-- In ACTIVE RB_WRITE of any length appends its bytes (R101, R104). -/
theorem exec_rbWrite (i : RbSel) :
    exec (.rbWrite i s.din.length) s =
      .next (respond (setBuffers s (b.set i ((b.get i).write s.din))) .ok 0 []) := by
  rw [exec_rbWrite_active hs, rbWrite]
  split
  next hn =>
    rw [List.length_eq_zero_iff.1 hn, RingBuffer.write_nil (hw.get i), set_get_self,
      setBuffers_self hs]
  next => rfl

/-- Held bytes are returned and removed, also when they are none (R105, R109). -/
theorem rbRead_held {i : RbSel} {n : Nat} (h : n ≤ (b.get i).len) :
    rbRead i n s b = respond (setBuffers s (b.set i ((b.get i).take n)))
      .ok (BitVec.ofNat 32 n) ((b.get i).content.take n) := by
  rcases eq_or_ne n 0 with rfl | hn
  · rw [RingBuffer.take_zero (hw.get i), set_get_self, setBuffers_self hs]
    rfl
  · exact rbRead_of_le h hn

/-- What a read of any length leaves in its buffer, and its response (R105 to R109). -/
theorem exec_rbRead (hd : s.din = []) (i : RbSel) (n : Nat) :
    ∃ t rb, exec (.rbRead i n) s = .next t ∧ t.session = .active (b.set i rb) ∧
      t.resp = some ⟨if (b.get i).len < n then .underrun else .ok,
        BitVec.ofNat 32 (min (b.get i).len n), (b.get i).readOut n⟩ ∧
      rb.Wf (b.get i).cap ∧ rb.content = (b.get i).content.drop n ∧
      rb.len = (b.get i).len - min (b.get i).len n := by
  have hwi := hw.get i
  rw [exec_rbRead_active hs hd]
  rcases Nat.lt_or_ge (b.get i).len n with h | h
  · rw [rbRead_of_lt h, if_pos h, Nat.min_eq_left h.le]
    refine ⟨_, _, rfl, rfl, rfl, RingBuffer.countUnderrun_wf (RingBuffer.take_wf hwi le_rfl), ?_, ?_⟩
    · rw [RingBuffer.countUnderrun_content, RingBuffer.content_take hwi le_rfl,
        List.drop_eq_nil_of_le (RingBuffer.length_content _).le,
        List.drop_eq_nil_of_le (by rw [RingBuffer.length_content]; exact h.le)]
    · rw [RingBuffer.countUnderrun_len, RingBuffer.len_take hwi le_rfl]
  · rw [rbRead_held hs hw h, if_neg (Nat.not_lt.2 h), Nat.min_eq_right h, RingBuffer.readOut_of_le h]
    exact ⟨_, _, rfl, rfl, rfl, RingBuffer.take_wf hwi h, RingBuffer.content_take hwi h,
      RingBuffer.len_take hwi h⟩

end

/-! ## Writes in a row (R112, R113) -/

/-- Commands in a row run one part after the other. -/
theorem runCommands_append {xs ys : List (Instr × List Byte)} {s t : State}
    (h : runCommands xs s = .next t) : runCommands (xs ++ ys) s = runCommands ys t := by
  induction xs generalizing s with
  | nil => cases h; rfl
  | cons x xs ih =>
    obtain ⟨v, hv, hxs⟩ := andThen_next h
    rw [List.cons_append, runCommands, hv]
    exact ih hxs

/-- RB_WRITEs in a row write their pieces one after the other and do nothing else to the block. -/
theorem runCommands_rbWrites {s : State} {b : Buffers} (hs : s.session = .active b) (hw : b.Wf s.cfg)
    (i : RbSel) (chunks : List (List Byte)) :
    ∃ t, runCommands (chunks.map fun d => (Instr.rbWrite i d.length, d)) s = .next t ∧
      t.session = .active (b.set i (chunks.foldl RingBuffer.write (b.get i))) ∧
      t.cfg = s.cfg ∧ t.trace = s.trace := by
  induction chunks generalizing s b with
  | nil => exact ⟨s, rfl, by rw [List.foldl_nil, set_get_self, hs], rfl, rfl⟩
  | cons d chunks ih =>
    have hwrite := exec_rbWrite (s := { s with din := d }) hs hw i
    obtain ⟨t, hrun, hsession, hcfg, htrace⟩ := ih (s := respond (setBuffers { s with din := d }
      (b.set i ((b.get i).write d))) .ok 0 []) rfl (hw.set ((Buffers.wf_iff.1 hw i).write d))
    rw [get_set_same, set_set] at hsession
    refine ⟨t, ?_, hsession, hcfg, htrace⟩
    rw [List.map_cons, runCommands, hwrite]
    exact hrun

/-! ## The statements about one command -/

/-- Settles O18: a full buffer's cursors meet at the new `end`, and the last bytes of the content and
the data together are those of the data alone when these fill the buffer. -/
theorem writeKeepsTheMostRecentBytes : Obligations.WriteKeepsTheMostRecentBytes := by
  unfold Obligations.WriteKeepsTheMostRecentBytes
  intro s b i hs hw
  have hwi := hw.get i
  have hcontent := hwi.content_write s.din
  refine ⟨_, _, exec_rbWrite hs hw i, rfl, rfl, ?_⟩
  rw [get_set_same]
  refine ⟨fun hne => ?_, fun hover => ?_, fun hfit => ⟨?_, ?_⟩⟩
  · exact if_neg (mt List.length_eq_zero_iff.1 hne)
  · have hfull : ((b.get i).write s.din).len = (b.get i).cap := by
      rw [hwi.len_write, Nat.min_eq_left hover.le]
    have hcursors := (hwi.write s.din).start_eq_end_of_full hfull
    refine ⟨hcontent, fun hle => ?_, fun hlt => ?_, hfull, hcursors, rfl⟩
    · rw [hcontent, lastBytes, List.length_append, RingBuffer.length_content,
        List.drop_append_of_le_length (by rw [RingBuffer.length_content]; omega)]
    · rw [hcontent, lastBytes_append_of_le _ hlt.le]
  · rw [hcontent, lastBytes_of_length_le (by rwa [List.length_append, RingBuffer.length_content])]
  · show ((b.get i).start + ((b.get i).len + s.din.length - (b.get i).cap)) % (b.get i).cap = _
    rw [Nat.sub_eq_zero_of_le hfit, Nat.add_zero, Nat.mod_eq_of_lt hwi.start_lt]

/-- Settles O19: the registers as RB_WRITE sets them, and the bytes by the rules of a store. -/
theorem writeFrame : Obligations.WriteFrame := by
  unfold Obligations.WriteFrame
  intro s b i hs hw
  have hmem := (hw.get i).mem_wf
  refine ⟨_, _, exec_rbWrite hs hw i, rfl, ?_⟩
  rw [get_set_same]
  refine ⟨fun k hk hlast => Memory.read_store hmem _ _ k _ hk hlast,
    fun j hj => Memory.read_store_other hmem _ _ j _ hj, rfl, rfl, ?_, rfl, rfl,
    fun j hj => get_set_other b i j _ hj, rfl, rfl, rfl, rfl, rfl⟩
  simp [RingBuffer.write, hasDataAfterWrite]

/-- Settles O20: RVAL holds the count of real bytes, since a fill level fits 32 bits. -/
theorem readRemovesOldestBytes : Obligations.ReadRemovesOldestBytes := by
  unfold Obligations.ReadRemovesOldestBytes
  intro s b i n hs hw hl hd
  obtain ⟨t, rb, hexec, hsession, hresp, -, hcontent, -⟩ := exec_rbRead hs hw hd i n
  refine ⟨t, _, _, hexec, hsession, hresp, rfl, ?_, rfl, by rw [get_set_same, hcontent]⟩
  have := hw.len_lt hl i
  exact Nat.mod_eq_of_lt (by omega)

/-- Settles O21: taking every held byte leaves an empty buffer. -/
theorem underrunZeroFills : Obligations.UnderrunZeroFills := by
  unfold Obligations.UnderrunZeroFills
  intro s b i n hs hw hl hd hn
  rw [exec_rbRead_active hs hd, rbRead_of_lt hn, RingBuffer.readOut_of_lt hn]
  refine ⟨_, _, rfl, rfl, rfl, toNat_ofNat_len hw hl i, ?_, rfl⟩
  rw [get_set_same, RingBuffer.countUnderrun_content, RingBuffer.content_take (hw.get i) le_rfl]
  exact List.drop_eq_nil_of_le (RingBuffer.length_content _).le

/-- Settles O23: the flag says whether a byte is left, and without it the cursors meet. -/
theorem drainingReadClearsHasData : Obligations.DrainingReadClearsHasData := by
  unfold Obligations.DrainingReadClearsHasData
  intro s b i n hs hw hd
  obtain ⟨t, rb, hexec, hsession, -, hwf, -, hlen⟩ := exec_rbRead hs hw hd i n
  have hflag : rb.hasData = false ↔ min (b.get i).len n = (b.get i).len := by
    rw [← Bool.not_eq_true, RingBuffer.hasData_iff hwf, hlen]
    omega
  refine ⟨t, _, hexec, hsession, ?_⟩
  rw [get_set_same]
  exact ⟨hflag, fun hall => hwf.flag (hflag.2 hall)⟩

/-- Settles O25: none of the three ends of RB_READ stores a byte or moves `end`. -/
theorem readFrame : Obligations.ReadFrame := by
  unfold Obligations.ReadFrame
  intro s b i n hs hd
  rw [exec_rbRead_active hs hd]
  rcases eq_or_ne n 0 with rfl | hn
  · exact ⟨_, b, rfl, hs, fun _ _ => rfl, rfl, rfl, fun _ _ => rfl, rfl, rfl, rfl, rfl, .inl rfl⟩
  have kept (rb : RingBuffer) (hmem : rb.mem = (b.get i).mem) (j : RbSel) (a : Nat) :
      ((b.set i rb).get j).mem.read a = (b.get j).mem.read a :=
    congrArg (Memory.read · a) (get_set_congr RingBuffer.mem hmem j)
  rcases Nat.lt_or_ge (b.get i).len n with h | h
  · rw [rbRead_of_lt h]
    exact ⟨_, _, rfl, rfl, kept _ rfl, by rw [get_set_same]; rfl, by rw [get_set_same]; rfl,
      fun j => get_set_other b i j _, rfl, rfl, rfl, rfl, .inr ⟨h, rfl⟩⟩
  · rw [rbRead_of_le h hn]
    exact ⟨_, _, rfl, rfl, kept _ rfl, by rw [get_set_same]; rfl, by rw [get_set_same]; rfl,
      fun j => get_set_other b i j _, rfl, rfl, rfl, rfl, .inl rfl⟩

/-- Settles O26: the fill level fits RVAL, and its corner cases are those of its definition. -/
theorem rbLenAnswersFillLevel : Obligations.RbLenAnswersFillLevel := by
  unfold Obligations.RbLenAnswersFillLevel
  refine fun s i hd => ⟨fun h => exec_rbLen_idle hd h i, fun b hb hw hl => ?_⟩
  have hv := toNat_ofNat_len hw hl i
  refine ⟨_, exec_rbLen hd hb i, hv, hv.le.trans (RingBuffer.len_le (hw.get i)), fun hflag => ?_,
    fun hflag hcursors => ?_⟩
  · rw [RingBuffer.len, hflag]; rfl
  · rw [hv, RingBuffer.len, if_pos hflag, if_pos hcursors]

/-- Settles O30: the sum up to the capacity, the difference from the bytes taken, and the queries. -/
theorem fillLevelIsConserved : Obligations.FillLevelIsConserved := by
  unfold Obligations.FillLevelIsConserved
  intro s b i hs hw
  refine ⟨⟨_, _, exec_rbWrite hs hw i, rfl, ?_⟩, fun n hd => ?_, ?_, ?_⟩
  · rw [get_set_same, (hw.get i).len_write]
  · obtain ⟨t, rb, hexec, hsession, -, -, -, hlen⟩ := exec_rbRead hs hw hd i n
    exact ⟨t, _, hexec, hsession, by rw [get_set_same, hlen]⟩
  · obtain ⟨t, hexec, hanswer⟩ := exec_query (i := .rbLen i) rfl s
    exact ⟨t, hexec, hanswer.sameBlock.session⟩
  · obtain ⟨t, hexec, hanswer⟩ := exec_query (i := .rbGlitch i) rfl s
    exact ⟨t, hexec, hanswer.sameBlock.session⟩

/-- Settles O24: the length is looked at before the buffer. -/
theorem zeroLengthTransfersAreNoOps : Obligations.ZeroLengthTransfersAreNoOps := by
  unfold Obligations.ZeroLengthTransfersAreNoOps
  intro s b i hs hd
  have hwrite := exec_rbWrite_active hs i
  rw [hd] at hwrite
  exact ⟨hwrite, exec_rbRead_active hs hd i 0⟩

/-- Settles O27: a query of a session answers the count, and outside a session there is none. -/
theorem rbGlitchAnswersCount : Obligations.RbGlitchAnswersCount := by
  unfold Obligations.RbGlitchAnswersCount
  exact fun s i hd => ⟨fun h => exec_rbGlitch_idle hd h i, fun b hb => exec_rbGlitch hd hb i⟩

/-! ## The statements about writes in a row -/

/-- Settles O28: pieces that fit an empty buffer are its content, and the read takes all of it. -/
theorem roundTripThroughRingBuffer : Obligations.RoundTripThroughRingBuffer := by
  unfold Obligations.RoundTripThroughRingBuffer
  intro s b i chunks hs hw hl hempty hfit
  have hwi := Buffers.wf_iff.1 hw i
  obtain ⟨t, hrun, hsession, hcfg, htrace⟩ := runCommands_rbWrites hs hw i chunks
  have hcontent : (chunks.foldl RingBuffer.write (b.get i)).content = chunks.flatten := by
    rw [(hw.get i).content_writes, RingBuffer.content_eq_nil hempty, List.nil_append,
      lastBytes_of_length_le hfit]
  have hlen : (chunks.foldl RingBuffer.write (b.get i)).len = chunks.flatten.length := by
    rw [← hcontent, RingBuffer.length_content]
  have hread := exec_rbRead_active (s := { t with din := [] }) hsession rfl i chunks.flatten.length
  rw [rbRead_held (s := { t with din := [] }) hsession (hcfg ▸ hw.set (hwi.writes chunks))
    (by rw [get_set_same, hlen]), get_set_same, hcontent, List.take_length] at hread
  exact ⟨_, (runCommands_append hrun).trans (congrArg (andThen · (runCommands [])) hread), rfl, htrace⟩

/-- Settles O29: the last `cap` bytes of more than that many are `cap` bytes. -/
theorem overwriteOldest : Obligations.OverwriteOldest := by
  unfold Obligations.OverwriteOldest
  intro s b i chunks hs hw hempty hover
  obtain ⟨t, hrun, hsession, -, -⟩ := runCommands_rbWrites hs hw i chunks
  have hcontent : (chunks.foldl RingBuffer.write (b.get i)).content =
      lastBytes (b.get i).cap chunks.flatten := by
    rw [(hw.get i).content_writes, RingBuffer.content_eq_nil hempty, List.nil_append]
  refine ⟨t, _, hrun, hsession, ?_, by rw [get_set_same, hcontent]⟩
  rw [get_set_same, ← RingBuffer.length_content, hcontent, length_lastBytes, Nat.min_eq_left hover.le]

/-! ## The underrun counts (R107) -/

/-- The buffers that exist both before and after keep their underrun counts. -/
def KeepsCounts (s t : State) : Prop :=
  ∀ b b', s.session.buffers = some b → t.session.buffers = some b' →
    ∀ i, (b'.get i).glitch = (b.get i).glitch

theorem KeepsCounts.of_buffers {s t : State} (h : t.session.buffers = s.session.buffers) :
    KeepsCounts s t := by
  intro b b' hb hb' i
  rw [Option.some.inj (hb.symm.trans (h.symm.trans hb'))]

/-- Replacing a buffer by one with the same count, whatever comes after. -/
theorem KeepsCounts.of_set {s t : State} {b : Buffers} {j : RbSel} {rb : RingBuffer}
    (hs : s.session = .active b) (ht : t.session.buffers = some (b.set j rb))
    (hrb : rb.glitch = (b.get j).glitch) : KeepsCounts s t := by
  intro c c' hc hc' i
  rw [hs] at hc
  cases hc
  rw [← Option.some.inj (ht.symm.trans hc')]
  exact get_set_congr RingBuffer.glitch hrb i

/-- An emission keeps the buffers, in FAULTED too (R230). -/
theorem respondEmission_transmit_buffers (v : Word) (n : BatchSize) (fr : List Byte) (s : State) :
    (respondEmission v (transmit n fr s)).session.buffers = s.session.buffers := by
  obtain ⟨st, hr⟩ := respondEmission_eq_respond v (transmit n fr s)
  rw [hr, respond_session]
  rcases nextAnswer_cases s with h | h
  · obtain ⟨u, hu, hsession, -⟩ := transmit_ok n fr h
    rw [hu, hsession]
  · obtain ⟨u, hu, hsession, -⟩ := transmit_fail n fr h
    rw [hu, hsession]
    cases s.session <;> rfl

/-- Only an effect that answers UNDERRUN changes a count. -/
theorem Effect.keepsCounts {s t : State} (e : Effect s t)
    (h : ∀ r, t.resp = some r → r.rstat ≠ .underrun) : KeepsCounts s t := by
  cases e with
  | answer => exact .of_buffers rfl
  | start hs => intro b b' hb; rw [hs] at hb; nomatch hb
  | stop => exact fun _ _ _ => nofun
  | write hs j => exact .of_set hs rfl rfl
  | read hs j => exact .of_set hs rfl rfl
  | underrun => exact absurd rfl (h _ rfl)
  | batch hs => exact .of_set hs (respondEmission_transmit_buffers _ _ _ _) rfl
  | emit => exact .of_buffers (respondEmission_transmit_buffers _ _ _ _)

/-- UNDERRUN answers an accepted read of more bytes than are held, and nothing else (R79, R106). -/
theorem underrun_cause {c : Instr} {s t : State} {r : Response} (h : exec c s = .next t)
    (hr : t.resp = some r) (hu : r.rstat = .underrun) :
    ∃ b j n, c = .rbRead j n ∧ s.session = .active b ∧ s.din = [] ∧ (b.get j).len < n := by
  obtain ⟨t', r', ht', hr', hread, -⟩ := onlyTheListedRstats c s
  obtain rfl : t = t' := Host.Outcome.next.inj (h.symm.trans ht')
  obtain rfl : r = r' := Option.some.inj (hr.symm.trans hr')
  obtain ⟨j, n, rfl⟩ := hread hu
  rw [exec, execRbRead, checkDin, inActive] at h
  split at h
  next hd =>
    split at h
    next b hs =>
      refine ⟨b, j, n, rfl, hs, List.length_eq_zero_iff.1 hd, Nat.lt_of_not_le fun hle => ?_⟩
      rcases eq_or_ne n 0 with rfl | hn
      · cases h; cases hr; nomatch hu
      · rw [rbRead_of_le hle hn] at h
        cases h; cases hr; nomatch hu
    all_goals cases h; cases hr; nomatch hu
  next => cases h; cases hr; nomatch hu

/-- Only SESS_START leaves IDLE (R205). -/
theorem exec_keeps_idle {c : Instr} {s t : State} (hs : s.session = .idle) (hc : c ≠ .sessStart)
    (h : exec c s = .next t) : t.session = .idle := by
  have unchecked {need : Nat} {run : State} (hrun : run.session = .idle) :
      (checkDin need s run).session = .idle :=
    checkDin_of (P := fun u => u.session = .idle) hs hrun
  cases c <;> cases h
  case sessStart => exact absurd rfl hc
  case sessStop | rbLen | rbGlitch => exact unchecked (by rw [inSession_idle hs]; exact hs)
  case rbWrite | rbRead | batchSel | emit2 | emit4 =>
    exact unchecked (by rw [inActive_other (by rw [State.sstate, hs]; nofun)]; exact hs)
  case crc32 | status | cntRd => exact unchecked hs

/-- Buffers that come to exist have counted nothing (R200). -/
theorem Effect.glitch_of_idle {s t : State} (e : Effect s t) (hs : s.session = .idle) {b' : Buffers}
    (hb' : t.session.buffers = some b') (i : RbSel) : (b'.get i).glitch = 0 := by
  cases e with
  | answer => rw [respond_session, hs] at hb'; nomatch hb'
  | start =>
    rcases sessStart_cases s with h | h <;> rw [h] at hb'
    · cases hb'; cases i <;> rfl
    · simp [hs, Session.buffers] at hb'
  | stop => nomatch hb'
  | write h | read h | underrun h | batch h | emit h => rw [hs] at h; nomatch h

/-- Settles O22: an underrunning read is computed, and any other command has an effect that keeps the
counts, since it does not answer UNDERRUN. -/
theorem glitchCountsUnderruns : Obligations.GlitchCountsUnderruns := by
  unfold Obligations.GlitchCountsUnderruns
  refine ⟨fun c s t b b' i h hb hb' => ?_,
    fun c s t b' i h hs hb' => ⟨?_, (exec_effect h).glitch_of_idle hs hb' i⟩⟩
  · by_cases hread : s.session = .active b ∧ s.din = [] ∧ ∃ j n, c = .rbRead j n ∧ (b.get j).len < n
    · obtain ⟨hs, hd, j, n, rfl, hlt⟩ := hread
      rw [exec_rbRead_active hs hd, rbRead_of_lt hlt] at h
      cases h
      cases hb'
      by_cases hij : i = j
      · subst hij
        exact ⟨fun _ => by rw [get_set_same]; rfl, fun hno => absurd ⟨hs, hd, n, rfl, hlt⟩ hno⟩
      · refine ⟨?_, fun _ => by rw [get_set_other b j i _ hij]⟩
        rintro ⟨-, -, m, hc, -⟩
        exact absurd (Instr.rbRead.inj hc).1.symm hij
    · have kept : (b'.get i).glitch = (b.get i).glitch := by
        refine (exec_effect h).keepsCounts (fun r hr hu => hread ?_) b b' hb hb' i
        obtain ⟨q, j, n, hc, hs, hd, hlt⟩ := underrun_cause h hr hu
        obtain rfl : q = b := by rw [hs] at hb; exact Option.some.inj hb
        exact ⟨hs, hd, j, n, hc, hlt⟩
      exact ⟨fun ⟨hs, hd, n, hc, hlt⟩ => absurd ⟨hs, hd, i, n, hc, hlt⟩ hread, fun _ => kept⟩
  · by_contra hc
    rw [exec_keeps_idle hs hc h] at hb'
    nomatch hb'

end Sys2Proof.Machine
end

section
/-! BATCH_SEL (41_batch.md R130 to R137): which batch is selected, and what popping, notifying and
emitting it leaves. -/

namespace Sys2Proof.Machine

/-! ## Selecting a batch (R131, R132) -/

theorem frameSize_pos {c : Config} (h : c.legal = true) : 0 < c.frameSize := by
  obtain ⟨-, -, hF, -⟩ : c.Constraints := of_decide_eq_true h
  exact hF

/-- `k` whole frames are held when their bytes are (R131). -/
theorem le_framesHeld_iff {c : Config} (h : c.legal = true) (b : Buffers) (k : Nat) :
    k ≤ framesHeld c b ↔ k * c.frameSize ≤ b.rb1.len := Nat.le_div_iff_mul_le (frameSize_pos h)

section
variable {c : Config} {b : Buffers}

/-- R132 in bytes: 4 frames when they are held, else 2. -/
theorem selectBatch_eq_some {n : BatchSize} (hl : c.legal = true)
    (h : n = .four ∧ 4 * c.frameSize ≤ b.rb1.len ∨
      n = .two ∧ 2 * c.frameSize ≤ b.rb1.len ∧ b.rb1.len < 4 * c.frameSize) :
    selectBatch (framesHeld c b) = some n := by
  rcases h with ⟨rfl, h4⟩ | ⟨rfl, h2, h4⟩
  · exact if_pos ((le_framesHeld_iff hl b 4).2 h4)
  · rw [selectBatch, if_neg (mt (le_framesHeld_iff hl b 4).1 (Nat.not_le.2 h4)),
      if_pos ((le_framesHeld_iff hl b 2).2 h2)]

theorem selectBatch_eq_none (hl : c.legal = true) (h : b.rb1.len < 2 * c.frameSize) :
    selectBatch (framesHeld c b) = none := by
  have h2 : ¬ 2 ≤ framesHeld c b := mt (le_framesHeld_iff hl b 2).1 (Nat.not_le.2 h)
  rw [selectBatch, if_neg (by omega), if_neg h2]

end

/-- How many frames BATCH_SEL takes of `nf` held ones, 0 when it selects no batch (R132). -/
def selectedFrames (nf : Nat) : Nat := (selectBatch nf).elim 0 BatchSize.frames

theorem selectedFrames_of_none {nf : Nat} (h : selectBatch nf = none) : selectedFrames nf = 0 := by
  rw [selectedFrames, h]; rfl

theorem selectedFrames_of_some {nf : Nat} {n : BatchSize} (h : selectBatch nf = some n) :
    selectedFrames nf = BatchSize.frames n := by
  rw [selectedFrames, h]; rfl

/-! ## Popping and emitting it (R130, R133, R134) -/

/-- A batch is popped and notified, and not yet emitted. -/
def popBatch (n : BatchSize) (s : State) (b : Buffers) : State :=
  emitEvent (setBuffers s (b.set .rb1 (b.rb1.take (payloadLen s.cfg n)))) (.notify n)

@[simp] theorem popBatch_session (n : BatchSize) (s : State) (b : Buffers) :
    (popBatch n s b).session = .active (b.set .rb1 (b.rb1.take (payloadLen s.cfg n))) := rfl
@[simp] theorem popBatch_fcause (n : BatchSize) (s : State) (b : Buffers) :
    (popBatch n s b).fcause = s.fcause := rfl
@[simp] theorem popBatch_ctr (n : BatchSize) (s : State) (b : Buffers) :
    (popBatch n s b).ctr = s.ctr := rfl
@[simp] theorem popBatch_trace (n : BatchSize) (s : State) (b : Buffers) :
    (popBatch n s b).trace = s.trace ++ [.notify n] := rfl
@[simp] theorem nextAnswer_popBatch (n : BatchSize) (s : State) (b : Buffers) :
    nextAnswer (popBatch n s b) = nextAnswer s := nextAnswer_congr rfl rfl rfl

/-- The popped bytes. -/
def popped (n : BatchSize) (s : State) (b : Buffers) : List Byte :=
  b.rb1.content.take (payloadLen s.cfg n)

/-- The emission that ends BATCH_SEL writes a frame built of the popped bytes. -/
theorem emitBatch_eq (n : BatchSize) (s : State) (b : Buffers) :
    emitBatch n s b = respondEmission (BitVec.ofNat 32 (BatchSize.frames n))
      (transmit n (buildFrame s.cfg n s.ctr (popped n s b)) (popBatch n s b)) := rfl

/-- Whatever TRANSPORT answers, the batch is gone from RB[1], and nothing else from the buffers. -/
theorem emitBatch_buffers (n : BatchSize) (s : State) (b : Buffers) :
    (emitBatch n s b).session.buffers =
      some (b.set .rb1 (b.rb1.take (payloadLen s.cfg n))) := by
  rw [emitBatch_eq, respondEmission_transmit_buffers]
  rfl

theorem respondEmission_resp (v : Word) (r : Answer × State) :
    ∃ st, (respondEmission v r).resp = some ⟨st, v, []⟩ ∧ st ≠ .noBatch := by
  unfold respondEmission
  split <;> exact ⟨_, rfl, nofun⟩

section
variable {s : State} {b : Buffers} {n : BatchSize} (hl : s.cfg.legal = true)
  (hk : payloadLen s.cfg n ≤ b.rb1.len)
include hl hk

theorem buildFrame_popped :
    buildFrame s.cfg n s.ctr (popped n s b) = layout s.cfg n s.ctr (popped n s b) := by
  refine buildFrame_eq_layout hl ?_
  rw [popped, List.length_take, RingBuffer.length_content, Nat.min_eq_left hk]

/-- The write succeeds: the session goes on, and the answer is OK (R130, R135). -/
theorem emitBatch_ok (ha : nextAnswer s = .ok) :
    (emitBatch n s b).sstate = .active ∧ (emitBatch n s b).fcause = s.fcause ∧
    (emitBatch n s b).ctr = s.ctr + BitVec.ofNat 16 (BatchSize.frames n) ∧
    (emitBatch n s b).resp = some ⟨.ok, BitVec.ofNat 32 (BatchSize.frames n), []⟩ ∧
    (emitBatch n s b).trace =
      s.trace ++ [.notify n, .frame (layout s.cfg n s.ctr (popped n s b)) .ok] := by
  obtain ⟨t, ht, hsession, hfcause, hctr, htrace⟩ := transmit_ok (s := popBatch n s b) n
    (layout s.cfg n s.ctr (popped n s b)) (by rwa [nextAnswer_popBatch])
  rw [emitBatch_eq, buildFrame_popped hl hk, ht]
  simp [respondEmission, State.sstate, hsession, hfcause, hctr, htrace]

/-- The write fails: FAULTED, cause 5, and the answer is TX_FAIL (R130, R230). -/
theorem emitBatch_fail (ha : nextAnswer s = .fail) :
    (emitBatch n s b).sstate = .faulted ∧ (emitBatch n s b).fcause = RStat.code .txFail ∧
    (emitBatch n s b).ctr = s.ctr + BitVec.ofNat 16 (BatchSize.frames n) ∧
    (emitBatch n s b).resp = some ⟨.txFail, BitVec.ofNat 32 (BatchSize.frames n), []⟩ ∧
    (emitBatch n s b).trace =
      s.trace ++ [.notify n, .frame (layout s.cfg n s.ctr (popped n s b)) .fail, .fatal .txFail] := by
  obtain ⟨t, ht, hsession, hfcause, hctr, htrace⟩ := transmit_fail (s := popBatch n s b) n
    (layout s.cfg n s.ctr (popped n s b)) (by rwa [nextAnswer_popBatch])
  rw [emitBatch_eq, buildFrame_popped hl hk, ht]
  simp [respondEmission, State.sstate, hsession, hfcause, hctr, htrace]

end

/-! ## How BATCH_SEL ends -/

theorem buffers_of_active {s : State} {b : Buffers} (h : s.session = .active b) :
    s.session.buffers = some b := by
  rw [h]; rfl

section
variable {s : State} {b : Buffers} (hs : s.session = .active b) (hd : s.din = [])
include hs hd

theorem exec_batchSel : exec .batchSel s = .next (batchSel s b) := by
  rw [exec, execBatchSel, checkDin_ok (by rw [hd]; rfl), inActive_active hs]

/-- With no batch to select BATCH_SEL only answers (R137). -/
theorem exec_batchSel_of_none (h : selectBatch (framesHeld s.cfg b) = none) :
    exec .batchSel s = .next (answered s ⟨.noBatch, 0, []⟩) := by
  rw [exec_batchSel hs hd, batchSel, h]
  rfl

theorem exec_batchSel_of_some {n : BatchSize} (h : selectBatch (framesHeld s.cfg b) = some n) :
    exec .batchSel s = .next (emitBatch n s b) := by
  rw [exec_batchSel hs hd, batchSel, h]

/-- What BATCH_SEL takes and answers, in the number of frames selected, 0 included (R132, R133). -/
theorem exec_batchSel_takes (hw : b.Wf s.cfg) {m : Nat}
    (hm : selectedFrames (framesHeld s.cfg b) = m) :
    ∃ t b' r, exec .batchSel s = .next t ∧ t.session.buffers = some b' ∧ t.resp = some r ∧
      r.rval = BitVec.ofNat 32 m ∧ (m = 0 ↔ r.rstat = .noBatch) ∧
      b'.rb1.content = b.rb1.content.drop (m * s.cfg.frameSize) ∧
      b'.rb1.len = b.rb1.len - m * s.cfg.frameSize := by
  cases hsel : selectBatch (framesHeld s.cfg b) with
  | none =>
    obtain rfl : 0 = m := (selectedFrames_of_none hsel).symm.trans hm
    exact ⟨_, b, _, exec_batchSel_of_none hs hd hsel, buffers_of_active hs, rfl, rfl,
      iff_of_true rfl rfl, by rw [Nat.zero_mul, List.drop_zero], by rw [Nat.zero_mul, Nat.sub_zero]⟩
  | some n =>
    obtain rfl : BatchSize.frames n = m := (selectedFrames_of_some hsel).symm.trans hm
    have hk := payloadLen_le_of_selectBatch hsel
    have hn : BatchSize.frames n ≠ 0 := by cases n <;> decide
    obtain ⟨st, hresp, hst⟩ := respondEmission_resp (BitVec.ofNat 32 (BatchSize.frames n))
      (transmit n (buildFrame s.cfg n s.ctr (popped n s b)) (popBatch n s b))
    exact ⟨_, _, _, exec_batchSel_of_some hs hd hsel, emitBatch_buffers n s b, hresp, rfl,
      iff_of_false hn hst, RingBuffer.content_take hw.rb1 hk, RingBuffer.len_take hw.rb1 hk⟩

end

/-! ## The statements about BATCH_SEL -/

/-- Settles O31: the batch is selected by the bytes held, and its frame is the laid-out one. -/
theorem batchSelEmitsTheBatch : Obligations.BatchSelEmitsTheBatch := by
  unfold Obligations.BatchSelEmitsTheBatch
  intro s b n hs hw hl hd hn
  have hsel := selectBatch_eq_some hl hn
  have hk := payloadLen_le_of_selectBatch hsel
  refine ⟨_, _, exec_batchSel_of_some hs hd hsel, emitBatch_buffers n s b,
    RingBuffer.content_take hw.rb1 hk, ?_⟩
  rcases nextAnswer_cases s with ha | ha <;> rw [ha]
  · obtain ⟨hsstate, hfcause, hctr, hresp, htrace⟩ := emitBatch_ok hl hk ha
    exact ⟨hctr, fun _ => ⟨hsstate, hfcause, hresp, htrace⟩, nofun⟩
  · obtain ⟨hsstate, hfcause, hctr, hresp, htrace⟩ := emitBatch_fail hl hk ha
    exact ⟨hctr, nofun, fun _ => ⟨hsstate, hfcause, hresp, htrace⟩⟩

/-- Settles O32: less than two frames' bytes are less than two whole frames. -/
theorem tooFewFramesGiveNoBatch : Obligations.TooFewFramesGiveNoBatch := by
  unfold Obligations.TooFewFramesGiveNoBatch
  exact fun s b hs hl hd h => exec_batchSel_of_none hs hd (selectBatch_eq_none hl h)

/-- Settles O33: each row says how many frames are selected and how many that leaves. -/
theorem batchSelectionTable : Obligations.BatchSelectionTable := by
  unfold Obligations.BatchSelectionTable
  intro s b hs hw hl hd row hrow hlen
  obtain ⟨hsel, hleft⟩ : selectedFrames row.1 = row.2.1 ∧ row.1 - row.2.1 = row.2.2 := by
    clear hlen; revert row; decide
  have hheld : framesHeld s.cfg b = row.1 := by
    rw [framesHeld, hlen, Nat.mul_div_cancel _ (frameSize_pos hl)]
  obtain ⟨t, b', r, hexec, hb', hresp, hrval, hrstat, hcontent, hlen'⟩ :=
    exec_batchSel_takes hs hd hw (hheld ▸ hsel)
  exact ⟨t, b', r, hexec, hb', hresp, hrval, hrstat, hcontent,
    by rw [hlen', hlen, ← Nat.sub_mul, hleft]⟩

/-- Settles O34: no batch leaves the buffers as they are, and popping one moves only `start` and the
flag of RB[1]. -/
theorem batchSelFrame : Obligations.BatchSelFrame := by
  unfold Obligations.BatchSelFrame
  intro s b hs hd
  cases hsel : selectBatch (framesHeld s.cfg b) with
  | none =>
    exact ⟨_, b, exec_batchSel_of_none hs hd hsel, buffers_of_active hs, rfl, fun _ => rfl, rfl, rfl,
      rfl⟩
  | some n =>
    exact ⟨_, _, exec_batchSel_of_some hs hd hsel, emitBatch_buffers n s b, rfl, fun _ => rfl,
      rfl, rfl, rfl⟩

end Sys2Proof.Machine
end

section
/-! The HOST's per-block program and its session start (41_batch.md R138 to R143, 60_exceptions.md
R223, 70_reset_and_hazards.md R263): the turns of the encode loop, and what a block meets in IDLE. -/

namespace Sys2Proof.Machine

/-! ## Which turn comes next (R138) -/

section
variable {col : Collaborators} {s : State}

theorem hostTurn_of_idle (h : s.host = .idle) : hostTurn col s = hostBegin col s := by
  simp only [hostTurn, h]

theorem hostTurn_of_test (h : s.host = .test) : hostTurn col s = hostTest s := by
  simp only [hostTurn, h]

theorem hostTurn_of_read (h : s.host = .read) : hostTurn col s = hostRead col s := by
  simp only [hostTurn, h]

theorem hostTurn_of_append {out : List Byte} (h : s.host = .append out) :
    hostTurn col s = hostAppend out s := by
  simp only [hostTurn, h]

/-! ## The encoder's answer (R141, R143) -/

theorem hostEncode_of_nonpos (h : (col.encode (lastDout s)).1 ≤ 0) :
    hostEncode col s = .next (setHost (note s [.encodeFailure]) .test) := if_pos h

theorem hostEncode_of_block (h : ¬ (col.encode (lastDout s)).1 ≤ 0)
    (hblock : (col.encode (lastDout s)).1 = s.cfg.frameSize ∧
      (col.encode (lastDout s)).2.length = s.cfg.frameSize) :
    hostEncode col s = .next (setHost s (.append (col.encode (lastDout s)).2)) :=
  (if_neg h).trans (if_pos hblock)

theorem hostEncode_of_odd (h : 0 < (col.encode (lastDout s)).1)
    (hodd : (col.encode (lastDout s)).1 ≠ s.cfg.frameSize) :
    hostEncode col s = .refused .encoderContract :=
  (if_neg (Int.not_le.2 h)).trans (if_neg fun hblock => hodd hblock.1)

end

/-- Settles O54: the read has taken the C bytes, and a failure only logs. -/
theorem encodeFailureIsLoggedAndDropped : Obligations.EncodeFailureIsLoggedAndDropped := by
  unfold Obligations.EncodeFailureIsLoggedAndDropped
  intro col s b hi hs hh hC hfail
  have hw : b.Wf s.cfg := hi.wf (buffers_of_active hs)
  obtain ⟨t, hread, -, -, hlog, hsession, hdout⟩ := hostRead_encode (col := col) hi hs hC
  rw [hostTurn_of_read hh, hread, hostEncode_of_nonpos (by rwa [hdout])]
  exact ⟨_, _, rfl, rfl, by rw [setHost_hostLog, note_hostLog, hlog], hsession, rfl,
    RingBuffer.content_take hw.rb0 hC⟩

/-- Settles O55: the encoder gets the C oldest bytes, and its odd count is refused. -/
theorem oddEncoderCountIsRefused : Obligations.OddEncoderCountIsRefused := by
  unfold Obligations.OddEncoderCountIsRefused
  intro col s b hi hs hh hC hpos hodd
  obtain ⟨t, hread, hcfg, -, -, -, hdout⟩ := hostRead_encode (col := col) hi hs hC
  rw [hostTurn_of_read hh, hread,
    hostEncode_of_odd (by rwa [hdout]) (by rwa [hdout, hcfg])]

/-! ## The encode loop (R142) -/

theorem ActsOnce.inv {s t : State} (h : ActsOnce s t) (hi : s.Inv) : t.Inv := by
  rcases h with same | ⟨i, u, v, hexec, before, after⟩
  · exact hi.of_sameBlock same
  · exact ((exec_effect hexec).inv (hi.of_sameBlock before)).of_sameBlock after

/-- The HOST's turns keep the invariant. -/
theorem runHost_inv {col : Collaborators} {k : Nat} {s t : State} (hi : s.Inv)
    (h : runHost col k s = .next t) : t.Inv := by
  induction k generalizing s with
  | zero => cases h; exact hi
  | succ k ih =>
    obtain ⟨v, hv, hrest⟩ := andThen_next h
    exact ih ((hostTurn_actsOnce hv).inv hi) hrest

section
variable {col : Collaborators} {s : State} {b : Buffers}

theorem runHost_succ {t : State} (h : hostTurn col s = .next t) (k : Nat) :
    runHost col (k + 1) s = runHost col k t := by
  rw [runHost, h]; rfl

variable (hi : s.Inv) (hs : s.session = .active b)
include hi hs

/-- A read with an encoder that keeps its contract takes the C oldest bytes and, with or without an
append, comes back to the loop head. -/
theorem runHost_of_read (hc : KeepsContract col s.cfg) (hh : s.host = .read)
    (hC : s.cfg.codeSize ≤ b.rb0.len) :
    ∃ k t b', k ≤ 2 ∧ runHost col k s = .next t ∧ t.cfg = s.cfg ∧ t.host = .test ∧
      t.session = .active b' ∧ b'.rb0 = b.rb0.take s.cfg.codeSize := by
  obtain ⟨t, hread, hcfg, -, -, hsession, -⟩ := hostRead_encode (col := col) hi hs hC
  rw [← hostTurn_of_read hh] at hread
  by_cases hfail : (col.encode (lastDout t)).1 ≤ 0
  · rw [hostEncode_of_nonpos hfail] at hread
    exact ⟨1, _, _, by omega, runHost_succ hread 0, hcfg, rfl, hsession, rfl⟩
  · have hblock := (hc (lastDout t)).resolve_left hfail
    rw [hostEncode_of_block hfail (by rwa [hcfg])] at hread
    obtain ⟨u, b', happend, hcfg', -, hhost, hsession', hrb0, -⟩ :=
      hostAppend_next (out := (col.encode (lastDout t)).2) ((hostTurn_actsOnce hread).inv hi) hsession
    refine ⟨2, u, b', le_rfl, ?_, hcfg'.trans hcfg, hhost, hsession', hrb0⟩
    rw [runHost_succ hread, runHost_succ (hostTurn_of_append rfl |>.trans happend)]
    rfl

/-- One pass of the loop: its test, its read and at most one append. -/
theorem runHost_pass (hc : KeepsContract col s.cfg) (hh : s.host = .test)
    (hC : s.cfg.codeSize ≤ b.rb0.len) :
    ∃ k t b', k ≤ 3 ∧ runHost col k s = .next t ∧ t.cfg = s.cfg ∧ t.host = .test ∧
      t.session = .active b' ∧ b'.rb0 = b.rb0.take s.cfg.codeSize := by
  obtain ⟨v, htest, hsession, hcfg, -, hhost⟩ := hostTest_next hi hs
  rw [← hostTurn_of_test (col := col) hh] at htest
  rw [if_pos hC] at hhost
  obtain ⟨k, t, b', hk, hrun, hcfg', h⟩ := runHost_of_read ((hostTurn_actsOnce htest).inv hi)
    (hsession.trans hs) (hcfg ▸ hc) hhost (hcfg ▸ hC)
  rw [hcfg] at hcfg' h
  exact ⟨k + 1, t, b', by omega, (runHost_succ htest k).trans hrun, hcfg', h⟩

/-- With fewer than C bytes the test ends the loop. -/
theorem runHost_exit (hh : s.host = .test) (hC : b.rb0.len < s.cfg.codeSize) :
    ∃ t, runHost col 1 s = .next t ∧ t.host = .batch ∧ t.session = .active b := by
  obtain ⟨t, htest, hsession, -, -, hhost⟩ := hostTest_next hi hs
  rw [if_neg (Nat.not_le.2 hC)] at hhost
  exact ⟨t, runHost_succ ((hostTurn_of_test hh).trans htest) 0, hhost, hsession.trans hs⟩

end

/-- The loop with `q` whole input blocks held takes `q` passes and one more test. -/
theorem runHost_loop {col : Collaborators} (q : Nat) {s : State} {b : Buffers} (hi : s.Inv)
    (hs : s.session = .active b) (hc : KeepsContract col s.cfg) (hh : s.host = .test)
    (hq : b.rb0.len / s.cfg.codeSize = q) :
    ∃ k t b', k ≤ 3 * q + 1 ∧ runHost col k s = .next t ∧ t.host = .batch ∧
      t.session = .active b' ∧ b'.rb0.len < s.cfg.codeSize ∧
      b'.rb0.content = b.rb0.content.drop (q * s.cfg.codeSize) := by
  have hw : b.Wf s.cfg := hi.wf (buffers_of_active hs)
  obtain ⟨-, -, -, ⟨hpos, -⟩, -⟩ := hi.constraints
  induction q generalizing s b with
  | zero =>
    have hlt : b.rb0.len < s.cfg.codeSize := (Nat.div_eq_zero_iff_lt hpos).1 hq
    obtain ⟨t, hrun, hhost, hsession⟩ := runHost_exit (col := col) hi hs hh hlt
    exact ⟨1, t, b, by omega, hrun, hhost, hsession, hlt, by rw [Nat.zero_mul, List.drop_zero]⟩
  | succ q ih =>
    have hC : s.cfg.codeSize ≤ b.rb0.len := by
      by_contra hlt
      rw [Nat.div_eq_of_lt (Nat.not_le.1 hlt)] at hq
      omega
    obtain ⟨j, u, b', hj, hpass, hcfg, hhost, hsession, hrb0⟩ := runHost_pass hi hs hc hh hC
    have hq' : b'.rb0.len / u.cfg.codeSize = q := by
      rw [Nat.div_eq_sub_div hpos hC] at hq
      rw [hrb0, hcfg, RingBuffer.len_take hw.rb0 hC]
      exact Nat.succ.inj hq
    have hiu : u.Inv := runHost_inv hi hpass
    obtain ⟨k, t, b'', hk, hrun, hhost', hsession', hlt, hcontent⟩ :=
      ih hiu hsession (hcfg ▸ hc) hhost hq' (hiu.wf (buffers_of_active hsession)) (hcfg ▸ hpos)
    rw [hcfg] at hlt hcontent
    refine ⟨j + k, t, b'', by omega, (runHost_add col j k s u hpass).trans hrun, hhost', hsession',
      hlt, ?_⟩
    rw [hcontent, hrb0, RingBuffer.content_take hw.rb0 hC, List.drop_drop, Nat.succ_mul, Nat.add_comm]

/-- Settles O53: the loop takes as many passes as whole input blocks are held. -/
theorem encodeLoopDrainsRawBuffer : Obligations.EncodeLoopDrainsRawBuffer := by
  unfold Obligations.EncodeLoopDrainsRawBuffer
  exact fun col s b hi hc hs hh => runHost_loop _ hi hs hc hh rfl

/-! ## Session start (R223, R263) -/

section
variable {s : State}

theorem sessStart_of_ok (h : nextAnswer s = .ok) :
    sessStart s = respond (beginSession (draw s).2) .ok 0 [] := by
  have hd : (draw s).1 = .ok := h
  simp only [sessStart, hd]

theorem sessStart_of_fail (h : nextAnswer s = .fail) :
    sessStart s = respond (recordFatal (draw s).2 .initFail) .initFail 0 [] := by
  have hd : (draw s).1 = .fail := h
  simp only [sessStart, hd]

theorem exec_sessStart_idle (hd : s.din = []) (hs : s.session = .idle) :
    exec .sessStart s = .next (sessStart s) := by
  rw [exec, execSessStart, checkDin_ok (by rw [hd]; rfl), inIdle_idle hs]

theorem hostReact_sessStart_ok (d : List Byte) (h : lastRstat s = some .ok) :
    hostReact ⟨encode .sessStart, d⟩ s = { s with capture := .started } := by
  simp [hostReact, afterStart, h]

theorem hostReact_sessStart_initFail (d : List Byte) (h : lastRstat s = some .initFail) :
    hostReact ⟨encode .sessStart, d⟩ s = { s with capture := .unstarted } := by
  simp [hostReact, afterStart, h]

/-- From IDLE the HOST's session start is SESS_START and the reaction to its response. -/
theorem hostStart_idle (hs : s.session = .idle) : hostStart s =
    .next (hostReact ⟨encode .sessStart, []⟩ (sessStart { s with issuer := .host, din := [] })) := by
  have hissue : issue .host ⟨encode .sessStart, []⟩ s =
      .next (sessStart { s with issuer := .host, din := [] }) :=
    (issue_of_decode decode_encode_sessStart s).trans
      (exec_sessStart_idle (s := { s with issuer := .host, din := [] }) rfl hs)
  show hostCommand ⟨encode .sessStart, []⟩ s = _
  rw [hostCommand, hostPrepare_of_other (show encode .sessStart ≠ encode .sessStop by decide), hissue]
  rfl

end

/-! ## A block in IDLE (R138, R263) -/

theorem exec_rbWrite_idle {s : State} (hs : s.session = .idle) (i : RbSel) :
    exec (.rbWrite i s.din.length) s = .next (answered s ⟨.badState, 0, []⟩) := by
  rw [exec, execRbWrite, checkDin_ok rfl, inActive_other (by rw [State.sstate, hs]; nofun)]
  rfl

/-- Bytes whose count fits LEN reach the block in IDLE as an RB_WRITE, which has no effect (R226). -/
theorem issue_rbWrite_idle {s : State} (hs : s.session = .idle) (a : Agent) (i : RbSel)
    {bs : List Byte} (hlen : bs.length ≤ maxLen) : issue a (AsmLine.rbWrite i bs).assemble s =
      .next (answered { s with issuer := a, din := bs } ⟨.badState, 0, []⟩) := by
  have hdecode : decode (AsmLine.rbWrite i bs).assemble.word = .ok (.rbWrite i bs.length) :=
    decode_encode (i := .rbWrite i bs.length) (decide_eq_true hlen)
  rw [issue_of_decode hdecode]
  exact exec_rbWrite_idle (s := { s with issuer := a, din := bs }) hs i

/-- In IDLE the RB_WRITE of a block meets BAD_STATE, and its callback goes on with the loop test. -/
theorem hostWritePcm_idle {col : Collaborators} {blk : CaptureBlock} {s : State}
    (hs : s.session = .idle) (hlen : (capturePcm col s.cfg blk).1.length ≤ maxLen) :
    ∃ t, hostWritePcm col blk s = .next t ∧ t.resp = some ⟨.badState, 0, []⟩ ∧ t.host = .test ∧
      t.captured = s.captured ∧ t.session = .idle ∧ t.trace = s.trace := by
  have hissue := issue_rbWrite_idle (s := note s (capturePcm col s.cfg blk).2) hs .host .rb0 hlen
  exact ⟨_, congrArg (andThen · fun t => .next (setHost t .test)) hissue, rfl, rfl, rfl, hs, rfl⟩

/-- Settles O57: the reaction to SESS_START follows the draw, and a block's callback begins with the
RB_WRITE that IDLE rejects. -/
theorem captureStartsOnlyAfterOk : Obligations.CaptureStartsOnlyAfterOk := by
  unfold Obligations.CaptureStartsOnlyAfterOk
  refine ⟨fun s hs _ => ⟨_, hostStart_idle hs, fun ha => ?_, fun ha => ?_⟩,
    fun col s blk hs hlen => ⟨fun hcap hh hnil => ?_, fun later hh hblk => ?_⟩,
    fun col s blk hcap hbusy => ?_⟩
  · rw [sessStart_of_ok (by rwa [nextAnswer_issued]), hostReact_sessStart_ok _ rfl]
    exact ⟨rfl, rfl⟩
  · rw [sessStart_of_fail (by rwa [nextAnswer_issued]), hostReact_sessStart_initFail _ rfl]
    refine ⟨?_, rfl, rfl⟩
    simp [State.sstate, hs]
  · rw [deliver, if_neg hcap, if_pos ⟨hh, hnil⟩, ← hnil]
    exact hostWritePcm_idle hs hlen
  · rw [hostTurn_of_idle hh, hostBegin, hblk]
    exact hostWritePcm_idle (s := { s with captured := later }) hs hlen
  · rw [deliver, if_neg hcap, if_neg (by tauto)]

end Sys2Proof.Machine
end

section
/-! The emitter (42_emitter.md R150 to R166): what EMIT leaves for each answer of TRANSPORT, what a frame
says of its counter and its size, and the frames of a sequence of commands. -/

namespace Sys2Proof.Machine

/-! ## EMIT.2 and EMIT.4 (R160 to R164) -/

/-- EMIT.n once its checks have passed, with its frame laid out field after field. -/
def emission (n : BatchSize) (s : State) : State :=
  respondEmission 0 (transmit n (layout s.cfg n s.ctr s.din) s)

/-- The two commands differ in the batch size alone (R163, R164). -/
theorem exec_emitInstr (n : BatchSize) (s : State) : exec (emitInstr n) s =
    .next (checkDin (payloadLen s.cfg n) s
      (inActive s fun _ => respondEmission 0 (emitFrame n s.din s))) := by
  cases n <;> rfl

section
variable {s : State} {n : BatchSize}

theorem exec_emitInstr_active {b : Buffers} (hs : s.session = .active b) (hl : s.cfg.legal = true)
    (hd : s.din.length = payloadLen s.cfg n) : exec (emitInstr n) s = .next (emission n s) := by
  rw [exec_emitInstr, checkDin_ok hd, inActive_active hs, emitFrame, buildFrame_eq_layout hl hd]
  rfl

/-- The write succeeds: only the counter, the trace and the response are new. -/
theorem emission_ok (ha : nextAnswer s = .ok) :
    (emission n s).session = s.session ∧ (emission n s).fcause = s.fcause ∧
    (emission n s).ctr = s.ctr + BitVec.ofNat 16 (BatchSize.frames n) ∧
    (emission n s).resp = some ⟨.ok, 0, []⟩ ∧
    (emission n s).trace = s.trace ++ [.frame (layout s.cfg n s.ctr s.din) .ok] := by
  obtain ⟨t, ht, hsession, hfcause, hctr, htrace⟩ := transmit_ok n (layout s.cfg n s.ctr s.din) ha
  rw [emission, ht]
  exact ⟨hsession, hfcause, hctr, rfl, htrace⟩

/-- The write fails: FAULTED with cause 5 and the fatal event, the counter advanced all the same. -/
theorem emission_fail (ha : nextAnswer s = .fail) :
    (emission n s).session = s.session.toFaulted ∧ (emission n s).fcause = RStat.code .txFail ∧
    (emission n s).ctr = s.ctr + BitVec.ofNat 16 (BatchSize.frames n) ∧
    (emission n s).resp = some ⟨.txFail, 0, []⟩ ∧
    (emission n s).trace =
      s.trace ++ [.frame (layout s.cfg n s.ctr s.din) .fail, .fatal .txFail] := by
  obtain ⟨t, ht, hsession, hfcause, hctr, htrace⟩ := transmit_fail n (layout s.cfg n s.ctr s.din) ha
  rw [emission, ht]
  exact ⟨hsession, hfcause, hctr, rfl, htrace⟩

theorem emission_cfg : (emission n s).cfg = s.cfg :=
  (respondEmission_cfg ..).trans (transmit_environment ..).1

theorem nextAnswer_of_known {a : Answer} {rest : List Answer} (h : s.answers = a :: rest) :
    nextAnswer s = a := by
  rw [nextAnswer, draw_cons s a rest h]

/-- A write uses up one known answer. -/
theorem transmit_answers {a : Answer} {rest : List Answer} (h : s.answers = a :: rest)
    (fr : List Byte) : (transmit n fr s).2.answers = rest := by
  rw [transmit, draw_cons { s with ctr := s.ctr + BitVec.ofNat 16 (BatchSize.frames n) } a rest h]
  cases a <;> rfl

theorem emission_answers {a : Answer} {rest : List Answer} (h : s.answers = a :: rest) :
    (emission n s).answers = rest := by
  obtain ⟨st, hr⟩ := respondEmission_eq_respond 0 (transmit n (layout s.cfg n s.ctr s.din) s)
  rw [emission, hr, respond_answers, transmit_answers h]

end

/-- Settles O36: the emission after either answer of TRANSPORT. -/
theorem emitSendsOneFrame : Obligations.EmitSendsOneFrame := by
  unfold Obligations.EmitSendsOneFrame
  intro s b n hs hl hd
  refine ⟨_, exec_emitInstr_active hs hl hd, ?_⟩
  rcases nextAnswer_cases s with ha | ha <;> rw [ha]
  · obtain ⟨hsession, hfcause, hctr, hresp, htrace⟩ := emission_ok (n := n) ha
    exact ⟨hctr, fun _ => ⟨hsession.trans hs, hfcause, hresp, htrace⟩⟩
  · obtain ⟨-, -, hctr, -⟩ := emission_fail (n := n) ha
    exact ⟨hctr, nofun⟩

/-- Settles O38: the emission after the answer fail. -/
theorem transportFailureEntersFaulted : Obligations.TransportFailureEntersFaulted := by
  unfold Obligations.TransportFailureEntersFaulted
  intro s b n hs hl hd ha
  obtain ⟨hsession, hfcause, hctr, hresp, htrace⟩ := emission_fail (n := n) ha
  exact ⟨_, exec_emitInstr_active hs hl hd, by rw [hsession, hs, toFaulted_active], hfcause, hresp,
    hctr, htrace⟩

/-! ## What a frame says of itself (R87, R151, R153) -/

/-- Bytes 3 and 4 of a frame bear its counter. -/
theorem carriedCounter_layout (c : Config) (n : BatchSize) (ctr : BitVec 16) (payload : List Byte) :
    carriedCounter (layout c n ctr payload) = ctr.toNat := by
  have hbytes : carriedCounter (layout c n ctr payload) =
      (ctr.extractLsb' 0 8).toNat + 256 * (ctr.extractLsb' 8 8).toNat := by
    cases n <;> rfl
  rw [hbytes, BitVec.extractLsb'_toNat, BitVec.extractLsb'_toNat, Nat.shiftRight_zero,
    Nat.shiftRight_eq_div_pow]
  have := ctr.isLt
  omega

/-- Byte 0 tells the two sizes apart, since a legal configuration has two report codes (R88). -/
theorem frameCount_layout {c : Config} (h : c.legal = true) (n : BatchSize) (ctr : BitVec 16)
    (payload : List Byte) : frameCount c (layout c n ctr payload) = BatchSize.frames n := by
  obtain ⟨-, -, -, -, -, -, hcodes⟩ : c.Constraints := of_decide_eq_true h
  cases n with
  | two => exact if_neg fun hhead => hcodes (Option.some.inj hhead)
  | four => exact if_pos rfl

/-! ## The frames of batches in a row (R153, R160) -/

/-- The frames of batches that are emitted one after another from counter `ctr` on. -/
def emittedFrames (c : Config) (ctr : BitVec 16) : List (BatchSize × List Byte) → List (List Byte)
  | [] => []
  | (n, payload) :: batches =>
    layout c n ctr payload :: emittedFrames c (ctr + BitVec.ofNat 16 (BatchSize.frames n)) batches

theorem length_emittedFrames (c : Config) (ctr : BitVec 16) (batches : List (BatchSize × List Byte)) :
    (emittedFrames c ctr batches).length = batches.length := by
  induction batches generalizing ctr with
  | nil => rfl
  | cons _ _ ih => exact congrArg Nat.succ (ih _)

/-- Frame k is laid out with the counter that the batches before it leave. -/
theorem layout_of_emittedFrames {c : Config} {ctr : BitVec 16} {batches : List (BatchSize × List Byte)}
    {k : Nat} {fr : List Byte} (h : (emittedFrames c ctr batches)[k]? = some fr) :
    ∃ n payload, fr =
      layout c n (ctr + BitVec.ofNat 16 (totalFrames ((batches.take k).map Prod.fst))) payload := by
  induction batches generalizing ctr k with
  | nil => nomatch h
  | cons p batches ih =>
    cases k with
    | zero =>
      cases h
      exact ⟨p.1, p.2, congrArg (layout c p.1 · p.2) (BitVec.add_zero ctr).symm⟩
    | succ k =>
      obtain ⟨n, payload, rfl⟩ := ih h
      refine ⟨n, payload, ?_⟩
      rw [BitVec.add_assoc, ← BitVec.ofNat_add]
      rfl

/-- From counter 0, frame k carries the number of frames before it modulo 65536. -/
theorem carriedCounter_of_emittedFrames {c : Config} {batches : List (BatchSize × List Byte)} {k : Nat}
    {fr : List Byte} (h : (emittedFrames c 0 batches)[k]? = some fr) :
    carriedCounter fr = totalFrames ((batches.take k).map Prod.fst) % 65536 := by
  obtain ⟨n, payload, rfl⟩ := layout_of_emittedFrames h
  rw [carriedCounter_layout, zero_add]
  exact BitVec.toNat_ofNat ..

/-- The batches can be told from byte 0 of their frames. -/
theorem frameCount_emittedFrames {c : Config} (h : c.legal = true) (ctr : BitVec 16)
    (batches : List (BatchSize × List Byte)) : (emittedFrames c ctr batches).map (frameCount c) =
      (batches.map Prod.fst).map BatchSize.frames := by
  induction batches generalizing ctr with
  | nil => rfl
  | cons p batches ih => exact congrArg₂ List.cons (frameCount_layout h _ _ _) (ih _)

/-- EMITs whose writes succeed send the frames of their batches and nothing else. -/
theorem runCommands_emits {s : State} {b : Buffers} {batches : List (BatchSize × List Byte)}
    {later : List Answer} (hs : s.session = .active b) (hl : s.cfg.legal = true)
    (hd : ∀ p ∈ batches, p.2.length = payloadLen s.cfg p.1)
    (ha : s.answers = List.replicate batches.length .ok ++ later) :
    ∃ t, runCommands (batches.map fun p => (emitInstr p.1, p.2)) s = .next t ∧
      t.trace = s.trace ++ (emittedFrames s.cfg s.ctr batches).map fun fr => .frame fr .ok := by
  induction batches generalizing s with
  | nil => exact ⟨s, rfl, (List.append_nil _).symm⟩
  | cons p batches ih =>
    obtain ⟨hp, hrest⟩ := List.forall_mem_cons.1 hd
    have hexec := exec_emitInstr_active (s := { s with din := p.2 }) hs hl hp
    obtain ⟨hsession, -, hctr, -, htrace⟩ := emission_ok (s := { s with din := p.2 }) (n := p.1)
      (nextAnswer_of_known ha)
    have hcfg : (emission p.1 { s with din := p.2 }).cfg = s.cfg := emission_cfg
    obtain ⟨t, hrun, ht⟩ :=
      ih (hsession.trans hs) (by rwa [hcfg]) (by rwa [hcfg]) (emission_answers ha)
    refine ⟨t, ?_, ?_⟩
    · rw [List.map_cons, runCommands, hexec]
      exact hrun
    · rw [ht, htrace, hctr, hcfg, List.append_assoc]
      rfl

/-! ## The frames of any commands of a session (R166) -/

/-- What a command sends: no frame, or one that carries the counter before the increase. -/
inductive Sends (s : State) : State → Prop
  | nothing {t : State} (hctr : t.ctr = s.ctr) (hsent : sentFrames t.trace = sentFrames s.trace) :
      Sends s t
  | frame {t : State} (n : BatchSize) (payload : List Byte) (r : Answer)
      (hctr : t.ctr = s.ctr + BitVec.ofNat 16 (BatchSize.frames n))
      (hsent : sentFrames t.trace = sentFrames s.trace ++ [(layout s.cfg n s.ctr payload, r)]) :
      Sends s t

theorem sentFrames_append (es fs : List Event) :
    sentFrames (es ++ fs) = sentFrames es ++ sentFrames fs := List.filterMap_append

section
variable {s : State}

theorem Sends.checkDin {need : Nat} {run : State} (h : Sends s run) : Sends s (checkDin need s run) :=
  checkDin_of (.nothing rfl rfl) h

theorem Sends.inActive {run : Buffers → State} (h : ∀ b, Sends s (run b)) : Sends s (inActive s run) :=
  inActive_of (.nothing rfl rfl) h

theorem Sends.inSession {run : Buffers → State} (h : ∀ b, Sends s (run b)) : Sends s (inSession s run) :=
  inSession_of (.nothing rfl rfl) h

/-- A write sends its frame once and advances the counter, whatever TRANSPORT answers (R160, R161). -/
theorem transmit_sends (s : State) (n : BatchSize) (fr : List Byte) :
    ∃ r, (transmit n fr s).2.ctr = s.ctr + BitVec.ofNat 16 (BatchSize.frames n) ∧
      sentFrames (transmit n fr s).2.trace = sentFrames s.trace ++ [(fr, r)] := by
  rcases nextAnswer_cases s with ha | ha
  · obtain ⟨t, ht, -, -, hctr, htrace⟩ := transmit_ok n fr ha
    exact ⟨.ok, by rw [ht, hctr], by rw [ht, htrace, sentFrames_append]; rfl⟩
  · obtain ⟨t, ht, -, -, hctr, htrace⟩ := transmit_fail n fr ha
    exact ⟨.fail, by rw [ht, hctr], by rw [ht, htrace, sentFrames_append]; rfl⟩

theorem respondEmission_ctr (v : Word) (r : Answer × State) : (respondEmission v r).ctr = r.2.ctr := by
  obtain ⟨st, hr⟩ := respondEmission_eq_respond v r
  rw [hr, respond_ctr]

/-- An emission from any state with the same counter that has sent no more. -/
theorem respondEmission_sends {u : State} (hctr : u.ctr = s.ctr)
    (hsent : sentFrames u.trace = sentFrames s.trace) (v : Word) (n : BatchSize) (payload : List Byte) :
    Sends s (respondEmission v (transmit n (layout s.cfg n s.ctr payload) u)) := by
  obtain ⟨r, htctr, htsent⟩ := transmit_sends u n (layout s.cfg n s.ctr payload)
  refine .frame n payload r ?_ ?_
  · rw [respondEmission_ctr, htctr, hctr]
  · rw [respondEmission_trace, htsent, hsent]

theorem rbWrite_sends (i : RbSel) (n : Nat) (b : Buffers) : Sends s (rbWrite i n s b) := by
  unfold rbWrite
  split <;> exact .nothing rfl rfl

theorem rbRead_sends (i : RbSel) (n : Nat) (b : Buffers) : Sends s (rbRead i n s b) := by
  rcases Nat.lt_or_ge (b.get i).len n with hlt | hle
  · rw [rbRead_of_lt hlt]
    exact .nothing rfl ((sentFrames_append ..).trans (List.append_nil _))
  · rcases eq_or_ne n 0 with rfl | hn
    · exact .nothing rfl rfl
    · rw [rbRead_of_le hle hn]
      exact .nothing rfl rfl

theorem batchSel_sends (hl : s.cfg.legal = true) (b : Buffers) : Sends s (batchSel s b) := by
  unfold batchSel
  split
  next n hn =>
    have hpop : sentFrames (popBatch n s b).trace = sentFrames s.trace :=
      (sentFrames_append ..).trans (List.append_nil _)
    rw [emitBatch_eq, buildFrame_popped hl (payloadLen_le_of_selectBatch hn)]
    exact respondEmission_sends (popBatch_ctr n s b) hpop _ _ _
  next => exact .nothing rfl rfl

/-- A payload of another length sends nothing (R77). -/
theorem emit_sends (hl : s.cfg.legal = true) (n : BatchSize) :
    Sends s (Machine.checkDin (payloadLen s.cfg n) s
      (Machine.inActive s fun _ => respondEmission 0 (emitFrame n s.din s))) := by
  by_cases hd : s.din.length = payloadLen s.cfg n
  · rw [emitFrame, buildFrame_eq_layout hl hd]
    exact .checkDin (.inActive fun _ => respondEmission_sends rfl rfl _ _ _)
  · rw [checkDin_bad hd]
    exact .nothing rfl rfl

/-- Every command but SESS_START, which sets the counter (R200). -/
theorem exec_sends {i : Instr} {t : State} (hl : s.cfg.legal = true) (hi : i ≠ .sessStart)
    (h : exec i s = .next t) : Sends s t := by
  cases i <;> cases h
  case sessStart => exact absurd rfl hi
  case sessStop => exact .checkDin (.inSession fun _ => .nothing rfl rfl)
  case rbWrite j n => exact .checkDin (.inActive (rbWrite_sends j n))
  case rbRead j n => exact .checkDin (.inActive (rbRead_sends j n))
  case rbLen | rbGlitch => exact .checkDin (.inSession fun _ => .nothing rfl rfl)
  case batchSel => exact .checkDin (.inActive (batchSel_sends hl))
  case emit2 => exact emit_sends hl .two
  case emit4 => exact emit_sends hl .four
  case crc32 | status | cntRd => exact .checkDin (.nothing rfl rfl)

end

/-- The frames that commands of one session send are those of some batches in a row. -/
theorem runCommands_sentFrames {s t : State} {cmds : List (Instr × List Byte)}
    (hl : s.cfg.legal = true) (hc : ∀ c ∈ cmds, c.1 ≠ .sessStart) (h : runCommands cmds s = .next t) :
    ∃ frames batches, sentFrames t.trace = sentFrames s.trace ++ frames ∧
      frames.map Prod.fst = emittedFrames s.cfg s.ctr batches := by
  induction cmds generalizing s with
  | nil => cases h; exact ⟨[], [], (List.append_nil _).symm, rfl⟩
  | cons c cmds ih =>
    obtain ⟨u, hexec, hrun⟩ := andThen_next h
    obtain ⟨hfirst, hrest⟩ := List.forall_mem_cons.1 hc
    have hcfg : u.cfg = s.cfg := exec_cfg (s := { s with din := c.2 }) hexec
    obtain ⟨frames, batches, hsent, hframes⟩ := ih (hcfg ▸ hl) hrest hrun
    rw [hcfg] at hframes
    cases exec_sends (s := { s with din := c.2 }) hl hfirst hexec with
    | nothing huctr husent => exact ⟨frames, batches, by rw [hsent, husent], by rw [hframes, huctr]⟩
    | frame n payload r huctr husent =>
      refine ⟨(layout s.cfg n s.ctr payload, r) :: frames, (n, payload) :: batches, ?_, ?_⟩
      · rw [hsent, husent, List.append_assoc]
        rfl
      · rw [List.map_cons, hframes, huctr]
        rfl

/-- Settles O37: both kinds of sequence send the frames of batches in a row from counter 0. -/
theorem counterSequence : Obligations.CounterSequence := by
  unfold Obligations.CounterSequence
  refine ⟨fun s b batches later hs hl hctr hd ha => ?_, fun s t cmds hl hctr hc h => ?_⟩
  · obtain ⟨t, hrun, htrace⟩ := runCommands_emits hs hl hd ha
    rw [hctr] at htrace
    exact ⟨t, _, hrun, length_emittedFrames .., htrace, fun _ _ => carriedCounter_of_emittedFrames⟩
  · obtain ⟨frames, batches, hsent, hframes⟩ := runCommands_sentFrames hl hc h
    rw [hctr] at hframes
    refine ⟨frames, hsent, fun k fr hk => ?_⟩
    have hcarried : carriedCounter fr.1 = totalFrames ((batches.take k).map Prod.fst) % 65536 :=
      carriedCounter_of_emittedFrames (by rw [← hframes, List.getElem?_map, hk]; rfl)
    have hcounts : frames.map (fun f => frameCount s.cfg f.1) =
        (batches.map Prod.fst).map BatchSize.frames := by
      rw [← frameCount_emittedFrames hl 0, ← hframes, List.map_map]
      rfl
    rw [hcarried, totalFrames, List.map_take, List.map_take, List.map_take, hcounts]

end Sys2Proof.Machine
end

section
/-! Session control and the status commands (44_control.md R200 to R205): which commands each session
state accepts, what is left to do in FAULTED (R232), and the answers of SESS_START, STATUS and CNT_RD. -/

namespace Sys2Proof.Machine

/-! ## Accepted and rejected commands (R205) -/

/-- The state holds a response that tells of a command that passed the checks of R229. -/
def PassedChecks (t : State) : Prop :=
  ∃ r, t.resp = some r ∧ r.rstat ≠ .badState ∧ r.rstat ≠ .illegal

/-- The two ends of a command with data of the right length, by what the table of R205 says of it. -/
inductive Tabled (s : State) : Bool → State → Prop
  | rejected : Tabled s false (respond s .badState 0 [])
  | accepted {t : State} (h : PassedChecks t) : Tabled s true t

section
variable {s : State}

theorem respondEmission_passedChecks (v : Word) (r : Answer × State) :
    PassedChecks (respondEmission v r) := by
  unfold respondEmission
  split <;> exact ⟨_, rfl, nofun, nofun⟩

theorem sessStart_passedChecks (s : State) : PassedChecks (sessStart s) := by
  rcases sessStart_cases s with h | h <;> rw [h] <;> exact ⟨_, rfl, nofun, nofun⟩

theorem rbWrite_passedChecks (i : RbSel) (n : Nat) (s : State) (b : Buffers) :
    PassedChecks (rbWrite i n s b) := by
  unfold rbWrite
  split <;> exact ⟨_, rfl, nofun, nofun⟩

theorem rbRead_passedChecks (i : RbSel) (n : Nat) (s : State) (b : Buffers) :
    PassedChecks (rbRead i n s b) := by
  rcases Nat.lt_or_ge (b.get i).len n with hlt | hle
  · rw [rbRead_of_lt hlt]
    exact ⟨_, rfl, nofun, nofun⟩
  · rcases eq_or_ne n 0 with rfl | hn
    · exact ⟨_, rfl, nofun, nofun⟩
    · rw [rbRead_of_le hle hn]
      exact ⟨_, rfl, nofun, nofun⟩

theorem batchSel_passedChecks (s : State) (b : Buffers) : PassedChecks (batchSel s b) := by
  unfold batchSel
  split
  · exact respondEmission_passedChecks _ _
  · exact ⟨_, rfl, nofun, nofun⟩

theorem Tabled.checkDin {need : Nat} {ok : Bool} {run : State} (hlen : s.din.length = need)
    (h : Tabled s ok run) : Tabled s ok (checkDin need s run) := by
  rwa [checkDin_ok hlen]

theorem Tabled.inIdle {run : State} (h : PassedChecks run) :
    Tabled s (s.sstate == .idle) (inIdle s run) := by
  unfold State.sstate Machine.inIdle
  cases s.session with
  | idle => exact .accepted h
  | active | faulted => exact .rejected

theorem Tabled.inActive {run : Buffers → State} (h : ∀ b, PassedChecks (run b)) :
    Tabled s (s.sstate == .active) (inActive s run) := by
  unfold State.sstate Machine.inActive
  cases s.session with
  | active b => exact .accepted (h b)
  | idle | faulted => exact .rejected

theorem Tabled.inSession {run : Buffers → State} (h : ∀ b, PassedChecks (run b)) :
    Tabled s (s.sstate != .idle) (inSession s run) := by
  unfold State.sstate Machine.inSession
  cases s.session with
  | active b | faulted b => exact .accepted (h b)
  | idle => exact .rejected

theorem accepts_sessStart (st : SState) : accepts .sessStart st = (st == .idle) := by cases st <;> rfl

theorem accepts_sessStop (st : SState) : accepts .sessStop st = (st != .idle) := by cases st <;> rfl

/-- The check of the session state that each command makes is its row of the table. -/
theorem exec_tabled {i : Instr} (hlen : s.din.length = i.dinLen s.cfg) :
    ∃ t, exec i s = .next t ∧ Tabled s (accepts i s.sstate) t := by
  cases i <;> refine ⟨_, rfl, .checkDin hlen ?_⟩
  case sessStart => rw [accepts_sessStart]; exact .inIdle (sessStart_passedChecks s)
  case sessStop => rw [accepts_sessStop]; exact .inSession fun _ => ⟨_, rfl, nofun, nofun⟩
  case rbWrite j n => exact .inActive (rbWrite_passedChecks j n s)
  case rbRead j n => exact .inActive (rbRead_passedChecks j n s)
  case rbLen | rbGlitch => exact .inSession fun _ => ⟨_, rfl, nofun, nofun⟩
  case batchSel => exact .inActive (batchSel_passedChecks s)
  case emit2 | emit4 => exact .inActive fun _ => respondEmission_passedChecks 0 _
  case crc32 | status | cntRd => exact .accepted ⟨_, rfl, nofun, nofun⟩

end

/-- Settles O9: a command ends as its row of the table says. -/
theorem sessionStateAcceptsAsTabled : Obligations.SessionStateAcceptsAsTabled := by
  unfold Obligations.SessionStateAcceptsAsTabled
  intro i s hlen
  obtain ⟨t, hexec, htabled⟩ := exec_tabled hlen
  rw [hexec]
  generalize accepts i s.sstate = ok at htabled ⊢
  cases htabled with
  | rejected => exact ⟨fun _ => rfl, nofun⟩
  | accepted h =>
    obtain ⟨r, hresp, hbad, hill⟩ := h
    exact ⟨nofun, fun _ => ⟨t, r, rfl, hresp, hbad, hill⟩⟩

/-! ## In FAULTED (R231, R232) -/

section
variable {s t : State} {b : Buffers} (hs : s.session = .faulted b)
include hs

/-- The effects that change more than the session need IDLE or ACTIVE. -/
theorem Effect.keeps_of_faulted (e : Effect s t) :
    t.trace = s.trace ∧ t.fcause = s.fcause ∧ t.ctr = s.ctr := by
  cases e with
  | answer | stop => exact ⟨rfl, rfl, rfl⟩
  | start h | write h | read h | underrun h | batch h | emit h => rw [hs] at h; nomatch h

/-- A command other than SESS_STOP is a query, or it is rejected (R77, R205). -/
theorem exec_faulted_onlyAnswers {i : Instr} (hi : i ≠ .sessStop) (h : exec i s = .next t) :
    OnlyAnswers s t := by
  obtain ⟨u, hu, hans⟩ : ∃ u, exec i s = .next u ∧ OnlyAnswers s u := by
    by_cases hq : isQuery i = true
    · exact exec_query hq s
    have hrej : accepts i s.sstate = false := by
      rw [State.sstate, hs]
      cases i with
      | sessStop => exact absurd rfl hi
      | rbLen | rbGlitch | crc32 | status | cntRd => exact absurd rfl hq
      | sessStart | rbWrite | rbRead | batchSel | emit2 | emit4 => rfl
    by_cases hlen : s.din.length = i.dinLen s.cfg
    · exact ⟨_, (sessionStateAcceptsAsTabled i s hlen).1 hrej, _, rfl⟩
    · exact ⟨_, wrongDataLengthIsIllegal i s hlen, _, rfl⟩
  cases hu.symm.trans h
  exact hans

end

/-- Settles O48: of the effects of a command only an answer and SESS_STOP are left. -/
theorem nothingHappensInFaulted : Obligations.NothingHappensInFaulted := by
  unfold Obligations.NothingHappensInFaulted
  intro i s t b hs h
  obtain ⟨htrace, hfcause, hctr⟩ := (exec_effect h).keeps_of_faulted hs
  refine ⟨htrace, hfcause, hctr, fun hi => ?_⟩
  obtain ⟨r, rfl⟩ := exec_faulted_onlyAnswers hs hi h
  rfl

/-! ## SESS_START (R200, R223) -/

/-- Settles O42: the draw of SESS_START keeps the configuration and the trace, and the rest are the start
values of a session. -/
theorem successfulStartResetsTheSession : Obligations.SuccessfulStartResetsTheSession := by
  unfold Obligations.SuccessfulStartResetsTheSession
  intro s hs hd ha
  refine ⟨_, ⟨.create s.cfg.cap0, .create s.cfg.cap1⟩, exec_sessStart_idle hd hs, ?_⟩
  rw [sessStart_of_ok ha]
  refine ⟨by simp, rfl, rfl, rfl, by simp, rfl, rfl, fun i => ?_⟩
  cases i <;> exact ⟨rfl, rfl, rfl, rfl⟩

/-- Settles O43: nothing but the fatal event follows the draw. -/
theorem failedStartStaysIdle : Obligations.FailedStartStaysIdle := by
  unfold Obligations.FailedStartStaysIdle
  intro s hs hd ha
  refine ⟨_, exec_sessStart_idle hd hs, ?_⟩
  rw [sessStart_of_fail ha]
  exact ⟨by simp [hs], rfl, rfl, by simp, by simp⟩

/-! ## STATUS and CNT_RD (R36, R203, R204) -/

theorem exec_status {s : State} (hd : s.din = []) : exec .status s =
    .next (answered s ⟨.ok, statusWord s.sstate s.fcause, []⟩) := by
  rw [exec, execStatus, checkDin_ok (by rw [hd]; rfl)]
  rfl

theorem exec_cntRd {s : State} (hd : s.din = []) : exec .cntRd s =
    .next (answered s ⟨.ok, s.ctr.zeroExtend 32, []⟩) := by
  rw [exec, execCntRd, checkDin_ok (by rw [hd]; rfl)]
  rfl

/-- The fields of the status word: 3 session states and 16 causes are a small space. -/
theorem statusWord_fields (st : SState) (cause : BitVec 4) :
    (statusWord st cause).extractLsb' 0 2 = st.code.extractLsb' 0 2 ∧
    (statusWord st cause).extractLsb' 2 2 = 0 ∧ (statusWord st cause).extractLsb' 4 4 = cause ∧
    (statusWord st cause).extractLsb' 8 24 = 0 := by
  cases st <;> revert cause <;> decide

/-- Settles O45: the fields of the status word that STATUS answers. -/
theorem statusAnswersTheStatusWord : Obligations.StatusAnswersTheStatusWord := by
  unfold Obligations.StatusAnswersTheStatusWord
  intro s hd
  obtain ⟨hstate, hzero, hcause, hrest⟩ := statusWord_fields s.sstate s.fcause
  refine ⟨_, exec_status hd, ?_, hzero, hcause, hrest⟩
  rw [hstate, State.sstate]
  cases s.session <;> rfl

/-- Settles O46: extending the counter with zeros keeps its number. -/
theorem cntRdAnswersTheCounter : Obligations.CntRdAnswersTheCounter := by
  unfold Obligations.CntRdAnswersTheCounter
  intro s hd
  have hnat : (s.ctr.zeroExtend 32).toNat = s.ctr.toNat := BitVec.toNat_setWidth_of_le (by decide)
  exact ⟨_, exec_cntRd hd, hnat, hnat ▸ s.ctr.isLt⟩

end Sys2Proof.Machine
end

section
/-! Leaving FAULTED and idling (60_exceptions.md R224, R231, R239): only SESS_STOP ends a faulted session,
and the HOST, to which a failing write leaves it owed, issues it and reports. -/

namespace Sys2Proof.Machine

/-- Settles O12: with no entry in the order there is none to take. -/
theorem idlesBetweenCommands : Obligations.IdlesBetweenCommands := by
  unfold Obligations.IdlesBetweenCommands
  intro s hl hs
  simp only [step, stepWith, hl, hs, if_true]

/-! ## The way out of FAULTED (R231) -/

/-- An effect on a faulted session keeps it or ends it. -/
theorem Effect.session_of_faulted {s t : State} {b : Buffers} (hs : s.session = .faulted b)
    (e : Effect s t) : t.session = s.session ∨ t.session = .idle := by
  cases e with
  | answer => exact .inl rfl
  | stop => exact .inr rfl
  | start h | write h | read h | underrun h | batch h | emit h => rw [hs] at h; nomatch h

/-- Settles O47: a session that ended in FAULTED was ended by the one command that does not keep it. -/
theorem faultedIsLeftOnlyByStop : Obligations.FaultedIsLeftOnlyByStop := by
  unfold Obligations.FaultedIsLeftOnlyByStop
  intro i s t b hs h hleft
  have hchanged : t.session ≠ s.session := fun hkept => hleft (by rw [State.sstate, hkept, hs]; rfl)
  obtain ⟨-, -, -, hkeeps⟩ := nothingHappensInFaulted i s t b hs h
  exact ⟨by_contra fun hi => hchanged (hkeeps hi),
    ((exec_effect h).session_of_faulted hs).resolve_left hchanged⟩

/-! ## A failing write (R161, R230) -/

/-- A command has ended with TX_FAIL: FAULTED, cause 5. -/
structure TxFailed (t : State) : Prop where
  sstate : t.sstate = .faulted
  fcause : t.fcause = RStat.code .txFail
  rstat  : lastRstat t = some .txFail

section
variable {s : State} {b : Buffers} (hs : s.session = .active b) (hl : s.cfg.legal = true)
  (ha : nextAnswer s = .fail)
include hs hl ha

theorem exec_batchSel_txFailed (hd : s.din = []) (h2 : 2 * s.cfg.frameSize ≤ b.rb1.len) :
    ∃ t, exec .batchSel s = .next t ∧ TxFailed t := by
  obtain ⟨n, hn⟩ : ∃ n, selectBatch (framesHeld s.cfg b) = some n := by
    rcases Nat.lt_or_ge b.rb1.len (4 * s.cfg.frameSize) with h4 | h4
    · exact ⟨.two, selectBatch_eq_some hl (.inr ⟨rfl, h2, h4⟩)⟩
    · exact ⟨.four, selectBatch_eq_some hl (.inl ⟨rfl, h4⟩)⟩
  obtain ⟨hsstate, hfcause, -, hresp, -⟩ := emitBatch_fail hl (payloadLen_le_of_selectBatch hn) ha
  exact ⟨_, exec_batchSel_of_some hs hd hn, hsstate, hfcause, by rw [lastRstat, hresp]; rfl⟩

theorem exec_emitInstr_txFailed {n : BatchSize} (hd : s.din.length = payloadLen s.cfg n) :
    ∃ t, exec (emitInstr n) s = .next t ∧ TxFailed t := by
  obtain ⟨hsession, hfcause, -, hresp, -⟩ := emission_fail (n := n) ha
  exact ⟨_, exec_emitInstr_active hs hl hd, by rw [State.sstate, hsession, hs]; rfl, hfcause,
    by rw [lastRstat, hresp]; rfl⟩

end

/-! ## The HOST's reaction to it (R224) -/

/-- What the HOST leaves when one of its commands ends with TX_FAIL: CAPTURE halted, and SESS_STOP owed
in the HOST's next turn, which stands in the order. -/
structure AwaitsStop (s t : State) : Prop extends TxFailed t where
  host     : t.host = if s.host.inCallback then .stop else .owesStop
  capture  : t.capture = .halted
  captured : t.captured = []
  turns    : t.turns = s.turns ++ [.host]
  hostLog  : t.hostLog = s.hostLog

/-- A failing command of the HOST, whatever the command. -/
theorem hostCommand_awaitsStop {s : State} {tx : Transaction} {i : Instr} (hw : tx.word = encode i)
    (hdecode : decode (encode i) = .ok i) (hi : encode i ≠ encode .sessStop)
    (hfails : ∃ v, exec i { s with issuer := .host, din := tx.din } = .next v ∧ TxFailed v) :
    ∃ t, hostCommand tx s = .next t ∧ AwaitsStop s t := by
  obtain ⟨v, hexec, hv⟩ := hfails
  obtain ⟨-, -, hturns, hhost, -, -, hlog⟩ := environment_eq_iff.1 (exec_effect hexec).environment
  refine ⟨stopAfterFailure v, ?_, ⟨hv.sstate, hv.fcause, hv.rstat⟩, ?_, rfl, rfl, ?_, hlog⟩
  · rw [hostCommand_of_decode (hw ▸ hdecode), hostPrepare_of_other (hw ▸ hi), hexec, andThen,
      hostReact_of_txFail hv.rstat]
  · rw [stopAfterFailure_host, hhost]
  · rw [stopAfterFailure_turns, hturns]

section
variable {s : State} {b : Buffers} (hi : s.Inv) (hs : s.session = .active b)
  (ha : nextAnswer s = .fail)
include hi hs ha

theorem hostCommand_batchSel_awaitsStop (h2 : 2 * s.cfg.frameSize ≤ b.rb1.len) :
    ∃ t, hostCommand AsmLine.batchSel.assemble s = .next t ∧ AwaitsStop s t :=
  hostCommand_awaitsStop rfl decode_encode_batchSel (by decide) <|
    exec_batchSel_txFailed (s := { s with issuer := .host, din := [] }) hs hi.legal
      (by rwa [nextAnswer_issued]) rfl h2

theorem hostCommand_emit_awaitsStop {tx : Transaction} {n : BatchSize}
    (hw : tx.word = encode (emitInstr n)) (hd : tx.din.length = payloadLen s.cfg n) :
    ∃ t, hostCommand tx s = .next t ∧ AwaitsStop s t :=
  hostCommand_awaitsStop hw (decode_encode (by cases n <;> rfl)) (by cases n <;> decide) <|
    exec_emitInstr_txFailed (s := { s with issuer := .host, din := tx.din }) hs hi.legal
      (by rwa [nextAnswer_issued]) hd

/-- BATCH_SEL of the per-block program, which ends the callback only when it has not failed. -/
theorem hostBatch_awaitsStop (h2 : 2 * s.cfg.frameSize ≤ b.rb1.len) :
    ∃ t, hostBatch s = .next t ∧ AwaitsStop s t := by
  obtain ⟨t, hnext, ht⟩ := hostCommand_batchSel_awaitsStop hi hs ha h2
  exact ⟨t, by rw [hostBatch, hnext, andThen, if_pos ht.rstat], ht⟩

end

/-! ## The owed SESS_STOP (R202, R224) -/

theorem hostTurn_of_batch {col : Collaborators} {s : State} (h : s.host = .batch) :
    hostTurn col s = hostBatch s := by
  simp only [hostTurn, h]

theorem hostTurn_of_owes {col : Collaborators} {s : State} (h : s.host.owes = true) :
    hostTurn col s = hostFail s := by
  cases hh : s.host with
  | stop | owesStop => simp only [hostTurn, hh]
  | idle | test | read | append | batch => rw [hh] at h; nomatch h

theorem buffers_of_faulted {s : State} (h : s.sstate = .faulted) :
    ∃ b, s.session.buffers = some b := by
  rw [State.sstate] at h
  cases hs : s.session with
  | active b | faulted b => exact ⟨b, rfl⟩
  | idle => rw [hs] at h; nomatch h

theorem exec_sessStop {s : State} {b : Buffers} (hd : s.din = []) (hb : s.session.buffers = some b) :
    exec .sessStop s = .next (respond (endSession s) .ok 0 []) := by
  rw [exec, execSessStop, checkDin_ok (by rw [hd]; rfl), inSession_some hb]

/-- A HOST whose CAPTURE is not running has nothing to do before SESS_STOP. -/
theorem hostPrepare_of_not_started {tx : Transaction} {s : State} (h : s.capture ≠ .started) :
    hostPrepare tx s = s := if_neg fun c => h c.2

/-- The HOST does not react to ILLEGAL, whatever the word. -/
theorem hostReact_of_illegal {tx : Transaction} {t : State} (h : lastRstat t = some .illegal) :
    hostReact tx t = t := by
  simp [hostReact, afterStart, afterStop, h]

/-- The owed SESS_STOP ends the session and is reported. -/
theorem hostFail_of_owes {s : State} {b : Buffers} (hb : s.session.buffers = some b)
    (hc : s.capture ≠ .started) (ho : s.host.owes = true) :
    hostFail s = .next (setHost (note
      (respond (endSession { s with issuer := .host, din := [] }) .ok 0 []) [.sessionFailed]) .idle) := by
  have hexec := exec_sessStop (s := { s with issuer := .host, din := [] }) rfl hb
  show hostCommand ⟨encode .sessStop, []⟩ s = _
  rw [hostCommand_of_decode decode_encode_sessStop, hostPrepare_of_not_started hc, hexec, andThen]
  exact congrArg Host.Outcome.next (hostReact_of_stopped rfl ho)

section
variable {s t : State} (h : AwaitsStop s t)
include h

theorem AwaitsStop.owes : t.host.owes = true := by
  rw [h.host]
  split <;> rfl

theorem AwaitsStop.not_started : t.capture ≠ .started := by
  rw [h.capture]
  nofun

/-- The HOST's next turn stops the session and reports, once. -/
theorem AwaitsStop.stopsAndReports (col : Collaborators) :
    ∃ u, hostTurn col t = .next u ∧ u.session = .idle ∧ u.fcause = 5 ∧ u.host = .idle ∧
      u.hostLog = s.hostLog ++ [.sessionFailed] ∧ u.turns = t.turns := by
  obtain ⟨b, hb⟩ := buffers_of_faulted h.sstate
  exact ⟨_, (hostTurn_of_owes h.owes).trans (hostFail_of_owes hb h.not_started h.owes), rfl, h.fcause,
    rfl, congrArg (· ++ [HostNote.sessionFailed]) h.hostLog, rfl⟩

/-- A SESS_STOP word with data is ILLEGAL and stops nothing (R77). -/
theorem AwaitsStop.illegalStop {d : List Byte} (hd : d ≠ []) :
    takeCommand .host ⟨encode .sessStop, d⟩ t =
      .next (answered { t with issuer := .host, din := d } ⟨.illegal, 0, []⟩) := by
  have hexec := wrongDataLengthIsIllegal .sessStop { t with issuer := .host, din := d }
    (mt List.length_eq_zero_iff.1 hd)
  rw [takeCommand, hostCommand_of_decode decode_encode_sessStop,
    hostPrepare_of_not_started h.not_started, hexec, andThen, hostReact_of_illegal rfl]

end

/-- Settles O56: each of the commands leaves SESS_STOP owed, and the HOST's next turn issues it. -/
theorem hostStopsAfterTxFail : Obligations.HostStopsAfterTxFail := by
  unfold Obligations.HostStopsAfterTxFail
  refine fun col s b hi hs ha => ⟨fun hh h2 => ?_, fun tx htx hfree => ?_⟩
  · obtain ⟨t, hnext, ht⟩ := hostBatch_awaitsStop hi hs ha h2
    obtain ⟨u, hturn, hsession, hfcause, hhost, hlog, -⟩ := ht.stopsAndReports col
    have hstop : t.host = .stop := by rw [ht.host, hh]; rfl
    exact ⟨t, u, (hostTurn_of_batch hh).trans hnext, ht.sstate, ht.capture, ht.captured, ht.turns,
      by rw [hostBusy, hstop]; rfl, hturn, hsession, hfcause, hhost, hlog⟩
  · obtain ⟨t, hnext, ht⟩ : ∃ t, takeCommand .host tx s = .next t ∧ AwaitsStop s t := by
      rcases htx with ⟨rfl, h2⟩ | ⟨n, hw, hd⟩
      · exact hostCommand_batchSel_awaitsStop hi hs ha h2
      · exact hostCommand_emit_awaitsStop hi hs ha hw hd
    obtain ⟨u, hturn, hsession, hfcause, hhost, hlog, hturns⟩ := ht.stopsAndReports col
    have howes : t.host = .owesStop := by rw [ht.host, hfree]; rfl
    refine ⟨t, u, hnext, howes, ht.sstate, ht.capture, ht.captured, ht.turns, hturn, hsession,
      hfcause, hhost, hlog, fun d hd => ⟨_, ht.illegalStop hd, rfl, rfl, rfl, rfl, rfl⟩, fun i k => ?_⟩
    have hwaits : (Turn.waitFill .host i k).waits t = true := by simp [Turn.waits, howes]
    rw [takeTurn_of_waits hwaits, hturn]
    exact ⟨_, rfl, hsession, hhost, hlog, by rw [hturns]⟩

end Sys2Proof.Machine
end

section
/-! Session stop and power-on reset (44_control.md R202, 70_reset_and_hazards.md R260, R262): SESS_STOP
takes the buffers away and nothing else, and no block has any before its first SESS_START. -/

namespace Sys2Proof.Machine

/-- Outside IDLE the ring buffers exist (R40). -/
theorem exists_buffers_of_ne_idle {s : State} (h : s.session ≠ .idle) :
    ∃ b, s.session.buffers = some b := by
  cases hs : s.session with
  | idle => exact absurd hs h
  | active b | faulted b => exact ⟨b, rfl⟩

/-- Outside a session there is nothing to stop (R202). -/
theorem exec_sessStop_idle {s : State} (hd : s.din = []) (h : s.session = .idle) :
    exec .sessStop s = .next (answered s ⟨.badState, 0, []⟩) := by
  rw [exec, execSessStop, checkDin_ok (by rw [hd]; rfl), inSession_idle h]
  rfl

/-- Settles O44: with buffers, whichever state holds them, SESS_STOP ends the session and answers OK. -/
theorem stopDiscardsTheBuffers : Obligations.StopDiscardsTheBuffers := by
  unfold Obligations.StopDiscardsTheBuffers
  refine fun s hd => ⟨fun hs => ?_, exec_sessStop_idle hd⟩
  obtain ⟨b, hb⟩ := exists_buffers_of_ne_idle hs
  exact exec_sessStop hd hb

/-- Settles O49: each value is the one `State.resetWith` gives the field. -/
theorem powerOnReset : Obligations.PowerOnReset := by
  unfold Obligations.PowerOnReset
  exact fun c => ⟨rfl, rfl, rfl, rfl, rfl, rfl⟩

end Sys2Proof.Machine
end

section
/-! The checksum (43_crc32.md R180 to R186): with the default parameters the parametrised register steps
as the serial procedure of R182 does, so both fold a byte sequence to the same value. -/

namespace Sys2Proof.Machine

/-- The two forms of the polynomial in the table of R181. -/
theorem reverse_iso_poly : CrcParams.iso.poly.reverse = 0xEDB88320 := by decide +kernel

theorem crcBit_iso : crcBit CrcParams.iso = isoBit := by
  funext c
  simp only [crcBit, isoBit, reverse_iso_poly]
  rfl

theorem crcByte_iso : crcByte CrcParams.iso = isoByte := by
  funext c b
  simp only [crcByte, crcBits, crcBit_iso, isoByte]
  rfl

/-- The seed of R181 is its own reflection. -/
theorem crcSeed_iso : crcSeed CrcParams.iso = 0xFFFFFFFF := by decide +kernel

/-- Input and output are both reflected, so only the final XOR remains (R181). -/
theorem crcFinal_iso (c : Word) : crcFinal CrcParams.iso c = c ^^^ 0xFFFFFFFF := rfl

/-- Settles O39: seed, byte step and finalization are those of R182. -/
theorem defaultChecksumIsSerialProcedure : Obligations.DefaultChecksumIsSerialProcedure := by
  unfold Obligations.DefaultChecksumIsSerialProcedure
  intro bs
  rw [crc32, crcFinal_iso, crcByte_iso, crcSeed_iso, isoCrc32]

/-- CRC32 passes the length check and asks for no session state (R184). -/
theorem exec_crc32 (s : State) : exec (.crc32 s.din.length) s =
    .next (answered s ⟨.ok, crc32 s.cfg.crc s.din, []⟩) := by
  rw [exec, execCrc32, checkDin_ok rfl]
  rfl

/-- Settles O40: the answer is the configured checksum, by default that of the serial procedure. -/
theorem crc32AnswersChecksum : Obligations.Crc32AnswersChecksum := by
  unfold Obligations.Crc32AnswersChecksum
  refine fun s => ⟨_, exec_crc32 s, rfl, fun hcrc => ?_⟩
  rw [hcrc, defaultChecksumIsSerialProcedure]

/-- Settles O41: no byte leaves the seed, which the final XOR cancels; the check value is nine byte
steps of the serial procedure. -/
theorem checksumCheckValues : Obligations.ChecksumCheckValues := by
  unfold Obligations.ChecksumCheckValues
  rw [defaultChecksumIsSerialProcedure, defaultChecksumIsSerialProcedure]
  exact ⟨by decide, by decide +kernel⟩

end Sys2Proof.Machine
end
